-- ==== Sys2Proof/Word.lean ====
section
/-! DEFINITION. The word types the spec gives widths to (00_scope.md R11): nothing here but their names. -/

namespace Sys2Proof

/-- One byte of memory or of the host link. -/
abbrev Byte := BitVec 8

/-- A sample: "an unsigned 16-bit value" (R40, R94). -/
abbrev Half := BitVec 16

/-- A byte address, or one word of a descriptor (R60, R96). -/
abbrev Word := BitVec 32

/-- A phase register: a fraction of a turn in units of 2^-48 turn (R25). -/
abbrev Phase := BitVec 48

end Sys2Proof
end

