-- ==== Sys2Proof/Config.lean ====
section
/-! DEFINITION. What an implementation fixes: the parameters of 00_scope.md R8, R9 and R10, as one record that the
state carries and no step writes (log 1), and the free values, constants without a body. What makes a parameter set
legal is in Machine/Map.lean. -/

namespace Sys2Proof

/-- `PHASE_FORM` (R10): which reading of the document's phase expression generation uses (90_conflicts.md C1). -/
inductive PhaseForm where
  | asWritten    -- R120: k/2 is added
  | linearSweep  -- R125: k/2 multiplies the square of t
deriving DecidableEq, Repr

/-- `CHIRP_IMPL` (R10): what CHIRP[i] is defined as (R130). -/
inductive ChirpImpl where
  | nco        -- the fixed-point datapath of R124 to R129
  | reference  -- the document's expression over the reals, R120
deriving DecidableEq, Repr

/-- `EMISSION_PATH` (R10, R163): the one path the spec describes (D18). -/
inductive EmissionPath where
  | directConverter
deriving DecidableEq, Repr

/-- Every parameter the spec names. Numbers are unbounded here; their legal ranges are checked by `BOOT` (R304 line 0). -/
structure Params where
  -- R8
  nChirp        : Nat    -- N_CHIRP
  chirpF0       : Rat    -- CHIRP_F0
  chirpF1       : Rat    -- CHIRP_F1
  chirpDuration : Rat    -- CHIRP_DURATION
  levels        : Nat    -- LEVELS
  nCap          : Nat    -- N_CAP
  altEnable     : Bool   -- ALT_TRIGGER_ENABLE
  altArmCount   : Nat    -- ALT_TRIGGER_ARM_COUNT
  -- R9
  carrierPeriod  : Nat   -- CARRIER_PERIOD
  carrierDuty    : Nat   -- CARRIER_DUTY
  carrierIndDuty : Nat   -- CARRIER_IND_DUTY
  guardPeriod    : Nat   -- GUARD_PERIOD
  guardCompare   : Nat   -- GUARD_COMPARE
  prioEmit       : Nat   -- PRIO_EMIT
  prioCap0       : Nat   -- PRIO_CAP0
  prioCap1       : Nat   -- PRIO_CAP1
  emitTailDelay  : Nat   -- EMIT_TAIL_DELAY: time inside a step, no state effect (R218)
  linkBaud       : Nat   -- LINK_BAUD: no state effect (R9)
  -- R10
  phaseForm    : PhaseForm
  chirpImpl    : ChirpImpl
  phaseBits    : Nat     -- PHASE_BITS: a turn is 2^PHASE_BITS (R124)
  angleBits    : Nat     -- ANGLE_BITS: what is left of a phase after truncation (R127)
  ampBits      : Nat     -- AMP_BITS: amplitudes are in units of 2^-AMP_BITS (R127, R129)
  cordicIter   : Nat     -- CORDIC_ITER: the iterations of R127
  elemBits     : Nat     -- ELEM_BITS: the width of a sample (R40, D6)
  emissionPath : EmissionPath
  chirpBase    : Nat     -- CHIRP_BASE
  cap0Base     : Nat     -- CAP0_BASE
  cap1Base     : Nat     -- CAP1_BASE
  descBase     : Nat     -- DESC_BASE
  dacData      : Nat     -- DAC_DATA
  adc0Result   : Nat     -- ADC0_RESULT
  adc1Result   : Nat     -- ADC1_RESULT
deriving DecidableEq, Repr

/-- The DEFAULT set: the defaults of R8, R10 and R62, and for the OPEN parameters of R9 the values the test vectors use,
which "claims nothing of the hardware" (DESIGN CHOICE, unsafe, log 1). For EMIT_TAIL_DELAY and LINK_BAUD R9 gives no value even there
("none (no state effect)"): the 0 that stands here for each is the model's own (DESIGN CHOICE, log 23), and nothing reads it. -/
def Params.default : Params where
  nChirp := 4096
  chirpF0 := 150000
  chirpF1 := 40000
  chirpDuration := mkRat 1 200
  levels := 4096
  nCap := 25000
  altEnable := false
  altArmCount := 2
  carrierPeriod := 30
  carrierDuty := 15
  carrierIndDuty := 15
  guardPeriod := 5
  guardCompare := 3
  prioEmit := 0
  prioCap0 := 0
  prioCap1 := 0
  emitTailDelay := 0   -- the model's value, read by nothing (DESIGN CHOICE, log 23)
  linkBaud := 0        -- the model's value, read by nothing (DESIGN CHOICE, log 23)
  phaseForm := .asWritten
  chirpImpl := .nco
  phaseBits := 48
  angleBits := 32
  ampBits := 30
  cordicIter := 30
  elemBits := 16
  emissionPath := .directConverter
  chirpBase := 0x20000000
  cap0Base := 0x20002000
  cap1Base := 0x2000E350
  descBase := 0x2001B000
  dacData := 0x40000000
  adc0Result := 0x40000010
  adc1Result := 0x40000020

/-- FREE VALUE. What the byte at an address holds while nothing has written it: "A read of a byte that nothing has
written since reset returns an unspecified value" (R69, U1). Safe (log 11). -/
opaque Config.freeByte : Nat → Byte

/-! FREE VALUES for the counters in states that no run reaches. R11 makes arithmetic unbounded "and the rule says where the result is
reduced"; the rules below do not say it, and a count outside its register's width has no stated value. Safe (log 17). -/

/-- FREE VALUE. `GT_CNT` after a count from 0 (R203 line 1). -/
opaque Config.freeGuardCount : Word

/-- FREE VALUE. `W_CNT` after a beat at 0 (R160 line 6). -/
opaque Config.freeBlockCount : Half

/-- FREE VALUE. `CT_CNT` after a count from 0xFFFF (R194). -/
opaque Config.freeCarrierCount : Half

/-- FREE VALUE. `ALT_COUNT` after a count from 0xFF (R268 line 2). -/
opaque Config.freeAltCount : Byte

end Sys2Proof
end

