-- ==== Sys2Proof/Syntax.lean ====
section
/-! DEFINITION. The operations of the block: one constructor of `Instr` per row of spec/opcode_table.json, and the
encoded form of a step. -/

namespace Sys2Proof

/-- The three transfer channels (R26): 0 emission, 1 capture 0, 2 capture 1. Channel value 3 is reserved (R100). -/
inductive Chan where
  | emit
  | cap0
  | cap1
deriving DecidableEq, Repr

/-- A transfer descriptor, format D (R96), every field as the 128 bits hold it. -/
structure Descriptor where
  valid    : Bool      -- CTRL[0]
  blockAct : BitVec 2  -- CTRL[2:1]
  elemSize : BitVec 2  -- CTRL[4:3]
  srcInc   : Bool      -- CTRL[5]
  dstInc   : Bool      -- CTRL[6]
  reserved : BitVec 9  -- CTRL[15:7], must be 0
  count    : BitVec 16 -- CTRL[31:16]
  src      : Word      -- word 1, SRCADDR
  dst      : Word      -- word 2, DSTADDR
  next     : Word      -- word 3, NEXT
deriving DecidableEq, Repr

/-- The operations. Every row of the table is one constructor. -/
inductive Instr where
  -- format H, host opcodes (R92)
  | startJob
  | ampEnable
  | ampDisable
  | rsvdLow (low : BitVec 4)
  | ignored (b : Byte)
  -- format T, transitions (R101)
  | tIdleEmit
  | tEmitWait
  | tWaitListen
  | tListenIdle
  | tNone (v : BitVec 7)
  -- format E, handlers (R102)
  | hEmitDone
  | hGuardOvf
  | hCap0Done
  | hCap1Done
  | hAltTrig
  -- format K, control operations (R100)
  | csGenerate
  | teConfigure (c : Chan) (prio trigsrc burst : BitVec 2)
  | teArm (c : Chan) (descAddr : Word)
  | teEnable (c : Chan)
  | teSuspend (c : Chan)
  | teResume (c : Chan)
  | teDisable (c : Chan)
  | ctConfigure (period duty indDuty : Half)
  | ctEnable
  | gtConfigure (period compare : Word)
  | gtRetrigger
  -- format D (R96) with the record's place in DESC, and format S (R94)
  | descriptor (slot : Chan) (d : Descriptor)
  | sample (v : Half)
  -- format N, steps without an encoding (R103)
  | hlPoll
  | asEval
  | hlDrain
  | teBeat (c : Chan) (draw : Half)
  | ctTick
  | gtTick
  | boot
  | envHostSend (b : Byte)
  | envTrigger (c : Chan)
  | envAltEdge
deriving DecidableEq, Repr

/-- The formats of R90, and N for the steps of R103. -/
inductive Format where
  | h | s | d | k | t | e | n
deriving DecidableEq, Repr

/-- A step as it is written down: which format, and its bytes, the first at the lowest place. -/
structure Code where
  format : Format
  bytes  : List Byte
deriving DecidableEq, Repr

/-- Why a code is no operation; each is safe (the model declines it). -/
inductive DecodeError where
  /-- not the fixed length of its format (R90) -/
  | badLength
  /-- a bit above the format's width is 1 (R90) -/
  | bitsAboveWidth
  /-- format K operation 0 or 12 to 15 (R100, U8) -/
  | reservedOperation
  /-- channel value 3 (R100, U8) -/
  | reservedChannel
  /-- a 1 in K[1:0] of an operation that has no channel (R100), or in an operand bit the operation does not have -/
  | strayBits
  /-- an event word that is not one-hot (R90) -/
  | notOneHot
  /-- a number that is no step of R103 (log 9) -/
  | unknownStep
deriving DecidableEq, Repr

end Sys2Proof
end

