-- ==== Sys2Proof/WellFormed.lean ====
section
/-! DEFINITION. Which terms of `Instr` are operations of the spec: `encodable` says that the operands are ones the
row's own encoding can carry (the default rows of formats H and T hold only what no earlier row matches), `operandsLegal`
that they keep the constraints the operation's rule puts on them. -/

namespace Sys2Proof

/-- A host byte of the default row: 0x11 to 0xFD (R92). -/
abbrev IgnoredByte (b : Byte) : Prop := 0x11 ≤ b.toNat ∧ b.toNat ≤ 0xFD

/-- The operands are ones the row's encoding carries. -/
def Instr.encodable : Instr → Bool
  | .ignored b => decide (IgnoredByte b)
  | .tNone v =>  -- selects none of the four guarded rows (R101)
    match (v.extractLsb' 0 2).toNat with
    | 0 => !v.getLsbD 2
    | 1 => !v.getLsbD 3
    | 2 => !v.getLsbD 4
    | _ => !(v.getLsbD 5 && v.getLsbD 6)
  | _ => true

/-- Descriptor values that R97 reserves: ELEMSIZE 3, COUNT 0, a 1 in CTRL[15:7], NEXT neither 0 nor a multiple of 16, and a
source or destination that is not a multiple of the element size (R72). -/
def Descriptor.reservedValue (d : Descriptor) : Bool :=
  d.elemSize = 3 || d.count = 0 || d.reserved ≠ 0 || d.next.toNat % 16 ≠ 0 ||
    d.src.toNat % (1 <<< d.elemSize.toNat) ≠ 0 || d.dst.toNat % (1 <<< d.elemSize.toNat) ≠ 0

/-- The operands keep the constraints of the operation's rule. -/
def Instr.operandsLegal : Instr → Bool
  | .teConfigure _ _ _ burst => burst = 0                                  -- R152
  | .teArm _ a => a ≠ 0 && a.toNat % 16 = 0                                -- R153
  | .ctConfigure per duty ind =>                                           -- R191
    2 ≤ per.toNat && 0 < duty.toNat && duty.toNat < per.toNat && 0 < ind.toNat && ind.toNat < per.toNat
  | .gtConfigure per cmp => 1 ≤ per.toNat && (cmp = 0 || cmp.toNat < per.toNat)   -- R201
  | .descriptor _ d => !d.valid || !d.reservedValue                        -- R97, R158 line 2
  | .teBeat .emit draw => draw = 0                                         -- R104: BEAT 0 carries no drawn value
  | _ => true

/-- An operation as the spec writes it. -/
abbrev WellFormed (i : Instr) : Prop := i.encodable = true ∧ i.operandsLegal = true

end Sys2Proof
end

