-- ==== Sys2Proof/Decode.lean ====
section
/-! DEFINITION. The encodings of 30_encoding.md, both ways, and the bit and byte helpers every other file uses. The decoder
is total on any bytes and rejects by name. Formats H, S, D, K, T, E are the spec's; the place of a control operation's
operands beside its code (log 8), the record number beside a descriptor (log 6) and the numbers of the steps that have no encoding
(log 9) are the model's. -/

namespace Sys2Proof

/-- Byte `k` of a word, the least significant being byte 0 (R71). -/
def byteOf {n : Nat} (w : BitVec n) (k : Nat) : Byte := w.extractLsb' (8 * k) 8

/-- Two bytes as a 16-bit value, low byte first (R71, R94). -/
def le16 (b0 b1 : Byte) : Half := (b1 ++ b0).setWidth 16

/-- Four bytes as a 32-bit value, low byte first (R71). -/
def le32 (b0 b1 b2 b3 : Byte) : Word := (b3 ++ b2 ++ b1 ++ b0).setWidth 32

/-- Eight bytes as a 64-bit value, low byte first. -/
def le64 (b0 b1 b2 b3 b4 b5 b6 b7 : Byte) : BitVec 64 :=
  (le32 b4 b5 b6 b7 ++ le32 b0 b1 b2 b3).setWidth 64

/-- The number of a channel (R26). -/
def Chan.code : Chan → BitVec 2
  | .emit => 0
  | .cap0 => 1
  | .cap1 => 2

/-- The channel of a number; 3 is reserved (R100). -/
def Chan.ofCode (c : BitVec 2) : Option Chan :=
  if c = 0 then some .emit else if c = 1 then some .cap0 else if c = 2 then some .cap1 else none

/-! ### Format H (R92, R241): the first row that matches -/

/-- The operation a host byte selects; every byte selects one (R93). -/
def decodeByte (b : Byte) : Instr :=
  if b = 0x10 then .startJob
  else if b = 0xFE then .ampEnable
  else if b = 0xFF then .ampDisable
  else if b &&& 0xF0 = 0x00 then .rsvdLow (b.extractLsb' 0 4)
  else .ignored b

/-! ### Format T (R101, R216) -/

/-- The transition a vector `{FLAGS, ACQ_STATE}` selects; every vector selects one. -/
def selectT (v : BitVec 7) : Instr :=
  if v &&& 0x07 = 0x04 then .tIdleEmit
  else if v &&& 0x0B = 0x09 then .tEmitWait
  else if v &&& 0x13 = 0x12 then .tWaitListen
  else if v &&& 0x63 = 0x63 then .tListenIdle
  else .tNone v

/-- Format T in a byte: bit 7 must be 0. -/
def decodeT (b : Byte) : Except DecodeError Instr :=
  if b.getLsbD 7 then .error .bitsAboveWidth else .ok (selectT (b.extractLsb' 0 7))

/-! ### Format E (R102): one-hot (R90) -/

/-- The handler an event line selects. -/
def decodeE (b : Byte) : Except DecodeError Instr :=
  if b.extractLsb' 5 3 ≠ 0 then .error .bitsAboveWidth
  else if b = 0x01 then .ok .hEmitDone
  else if b = 0x02 then .ok .hGuardOvf
  else if b = 0x04 then .ok .hCap0Done
  else if b = 0x08 then .ok .hCap1Done
  else if b = 0x10 then .ok .hAltTrig
  else .error .notOneHot

/-! ### Format K (R100): the code `{op, c}` in the first byte, eight bytes of operands after it (log 8) -/

/-- An operation without a channel: K[1:0] is 0 and no operand bit it does not have is 1. -/
def plainOp (c : BitVec 2) (stray : Bool) (i : Instr) : Except DecodeError Instr :=
  if c ≠ 0 || stray then .error .strayBits else .ok i

/-- An operation of the channel `K[1:0]`. -/
def chanOp (c : BitVec 2) (stray : Bool) (f : Chan → Instr) : Except DecodeError Instr :=
  match Chan.ofCode c with
  | none => .error .reservedChannel
  | some ch => if stray then .error .strayBits else .ok (f ch)

/-- Format K, operation by operation: `op` is K[5:2], `c` is K[1:0], `o` the operands. -/
def decodeOp (op : BitVec 4) (c : BitVec 2) (o : BitVec 64) : Except DecodeError Instr :=
  if op = 1 then plainOp c (o ≠ 0) .csGenerate
  else if op = 2 then
    chanOp c (o.extractLsb' 6 58 ≠ 0)
      (fun ch => .teConfigure ch (o.extractLsb' 0 2) (o.extractLsb' 2 2) (o.extractLsb' 4 2))
  else if op = 3 then chanOp c (o.extractLsb' 32 32 ≠ 0) (fun ch => .teArm ch (o.extractLsb' 0 32))
  else if op = 4 then chanOp c (o ≠ 0) .teEnable
  else if op = 5 then chanOp c (o ≠ 0) .teSuspend
  else if op = 6 then chanOp c (o ≠ 0) .teResume
  else if op = 7 then chanOp c (o ≠ 0) .teDisable
  else if op = 8 then
    plainOp c (o.extractLsb' 48 16 ≠ 0)
      (.ctConfigure (o.extractLsb' 0 16) (o.extractLsb' 16 16) (o.extractLsb' 32 16))
  else if op = 9 then plainOp c (o ≠ 0) .ctEnable
  else if op = 10 then plainOp c false (.gtConfigure (o.extractLsb' 0 32) (o.extractLsb' 32 32))
  else if op = 11 then plainOp c (o ≠ 0) .gtRetrigger
  else .error .reservedOperation

/-- Format K: bits 7:6 of the first byte must be 0. -/
def decodeK (k : Byte) (o : BitVec 64) : Except DecodeError Instr :=
  if k.extractLsb' 6 2 ≠ 0 then .error .bitsAboveWidth
  else decodeOp (k.extractLsb' 2 4) (k.extractLsb' 0 2) o

/-! ### Format D (R96) -/

/-- The CTRL word of a descriptor (R96, R98). -/
def Descriptor.ctrl (d : Descriptor) : Word :=
  (d.count ++ d.reserved ++ BitVec.ofBool d.dstInc ++ BitVec.ofBool d.srcInc ++ d.elemSize ++ d.blockAct ++
    BitVec.ofBool d.valid).setWidth 32

/-- The descriptor that four words hold (R96). -/
def Descriptor.ofWords (ctrl src dst next : Word) : Descriptor where
  valid := ctrl.getLsbD 0
  blockAct := ctrl.extractLsb' 1 2
  elemSize := ctrl.extractLsb' 3 2
  srcInc := ctrl.getLsbD 5
  dstInc := ctrl.getLsbD 6
  reserved := ctrl.extractLsb' 7 9
  count := ctrl.extractLsb' 16 16
  src := src
  dst := dst
  next := next

/-- Format D with the number of the record in DESC in the byte after it (log 6). -/
def decodeD (ctrl src dst next : Word) (slot : Byte) : Except DecodeError Instr :=
  if slot.extractLsb' 2 6 ≠ 0 then .error .strayBits
  else match Chan.ofCode (slot.extractLsb' 0 2) with
    | none => .error .reservedChannel
    | some c => .ok (.descriptor c (Descriptor.ofWords ctrl src dst next))

/-! ### Steps without an encoding (R103): the model's numbers, in the order of the table (log 9) -/

/-- A step that takes no operand. -/
def bareStep (a lo hi : Byte) (i : Instr) : Except DecodeError Instr :=
  if a ≠ 0 || lo ≠ 0 || hi ≠ 0 then .error .strayBits else .ok i

/-- A step of a channel. -/
def chanStep (a : Byte) (stray : Bool) (f : Chan → Instr) : Except DecodeError Instr :=
  if a.extractLsb' 2 6 ≠ 0 then .error .strayBits else chanOp (a.extractLsb' 0 2) stray f

/-- The step with number `n`; `a` is its byte or channel operand, `lo`, `hi` the value a beat draws (R104). -/
def decodeN (n a lo hi : Byte) : Except DecodeError Instr :=
  if n = 0 then bareStep a lo hi .hlPoll
  else if n = 1 then bareStep a lo hi .asEval
  else if n = 2 then bareStep a lo hi .hlDrain
  else if n = 3 then chanStep a false (fun c => .teBeat c (le16 lo hi))
  else if n = 4 then bareStep a lo hi .ctTick
  else if n = 5 then bareStep a lo hi .gtTick
  else if n = 6 then bareStep a lo hi .boot
  else if n = 7 then bareStep 0 lo hi (.envHostSend a)
  else if n = 8 then chanStep a (lo ≠ 0 || hi ≠ 0) .envTrigger
  else if n = 9 then bareStep a lo hi .envAltEdge
  else .error .unknownStep

/-! ### The whole decoder and encoder -/

/-- The operation a code stands for, or the reason it is none. -/
def decode (x : Code) : Except DecodeError Instr :=
  match x.format, x.bytes with
  | .h, [b] => .ok (decodeByte b)
  | .t, [b] => decodeT b
  | .e, [b] => decodeE b
  | .s, [b0, b1] => .ok (.sample (le16 b0 b1))
  | .k, [k, o0, o1, o2, o3, o4, o5, o6, o7] => decodeK k (le64 o0 o1 o2 o3 o4 o5 o6 o7)
  | .d, [c0, c1, c2, c3, s0, s1, s2, s3, d0, d1, d2, d3, n0, n1, n2, n3, slot] =>
    decodeD (le32 c0 c1 c2 c3) (le32 s0 s1 s2 s3) (le32 d0 d1 d2 d3) (le32 n0 n1 n2 n3) slot
  | .n, [n, a, lo, hi] => decodeN n a lo hi
  | _, _ => .error .badLength

/-- How many bytes a code of a format has (R90: "Every one is fixed length"). -/
def Format.length : Format → Nat
  | .h => 1
  | .s => 2
  | .d => 17
  | .k => 9
  | .t => 1
  | .e => 1
  | .n => 4

/-- The four bytes of a word, low byte first. -/
def wordBytes (w : Word) : List Byte := [byteOf w 0, byteOf w 1, byteOf w 2, byteOf w 3]

/-- A code of format K. -/
def encodeOp (op : BitVec 4) (c : BitVec 2) (o : BitVec 64) : Code :=
  ⟨.k, [(op ++ c).setWidth 8, byteOf o 0, byteOf o 1, byteOf o 2, byteOf o 3, byteOf o 4, byteOf o 5, byteOf o 6,
    byteOf o 7]⟩

/-- A channel number in a byte of its own. -/
def chanByte (c : Chan) : Byte := c.code.setWidth 8

/-- The code of an operation. -/
def encode : Instr → Code
  | .startJob => ⟨.h, [0x10]⟩
  | .ampEnable => ⟨.h, [0xFE]⟩
  | .ampDisable => ⟨.h, [0xFF]⟩
  | .rsvdLow low => ⟨.h, [low.setWidth 8]⟩
  | .ignored b => ⟨.h, [b]⟩
  | .tIdleEmit => ⟨.t, [0x04]⟩
  | .tEmitWait => ⟨.t, [0x09]⟩
  | .tWaitListen => ⟨.t, [0x12]⟩
  | .tListenIdle => ⟨.t, [0x63]⟩
  | .tNone v => ⟨.t, [v.setWidth 8]⟩
  | .hEmitDone => ⟨.e, [0x01]⟩
  | .hGuardOvf => ⟨.e, [0x02]⟩
  | .hCap0Done => ⟨.e, [0x04]⟩
  | .hCap1Done => ⟨.e, [0x08]⟩
  | .hAltTrig => ⟨.e, [0x10]⟩
  | .csGenerate => encodeOp 1 0 0
  | .teConfigure c prio trigsrc burst => encodeOp 2 c.code ((burst ++ trigsrc ++ prio).setWidth 64)
  | .teArm c a => encodeOp 3 c.code (a.setWidth 64)
  | .teEnable c => encodeOp 4 c.code 0
  | .teSuspend c => encodeOp 5 c.code 0
  | .teResume c => encodeOp 6 c.code 0
  | .teDisable c => encodeOp 7 c.code 0
  | .ctConfigure per duty ind => encodeOp 8 0 ((ind ++ duty ++ per).setWidth 64)
  | .ctEnable => encodeOp 9 0 0
  | .gtConfigure per cmp => encodeOp 10 0 ((cmp ++ per).setWidth 64)
  | .gtRetrigger => encodeOp 11 0 0
  | .descriptor c d => ⟨.d, wordBytes d.ctrl ++ wordBytes d.src ++ wordBytes d.dst ++ wordBytes d.next ++ [chanByte c]⟩
  | .sample v => ⟨.s, [byteOf v 0, byteOf v 1]⟩
  | .hlPoll => ⟨.n, [0, 0, 0, 0]⟩
  | .asEval => ⟨.n, [1, 0, 0, 0]⟩
  | .hlDrain => ⟨.n, [2, 0, 0, 0]⟩
  | .teBeat c v => ⟨.n, [3, chanByte c, byteOf v 0, byteOf v 1]⟩
  | .ctTick => ⟨.n, [4, 0, 0, 0]⟩
  | .gtTick => ⟨.n, [5, 0, 0, 0]⟩
  | .boot => ⟨.n, [6, 0, 0, 0]⟩
  | .envHostSend b => ⟨.n, [7, b, 0, 0]⟩
  | .envTrigger c => ⟨.n, [8, chanByte c, 0, 0]⟩
  | .envAltEdge => ⟨.n, [9, 0, 0, 0]⟩

/-! ### A word of spec/opcode_table.json -/

/-- Which format a number of bits names: the widths of the table (H 8, T 7, K 6, E 5, S 16, D 128). Formats H, T, K and E
share their numbers and carry no mode bit (R90), so a word asked for in a whole byte is a host byte (log 4). -/
def formatOfWidth (nbits : Nat) : Option Format :=
  if nbits = 8 then some .h
  else if nbits = 7 then some .t
  else if nbits = 6 then some .k
  else if nbits = 5 then some .e
  else if nbits = 16 then some .s
  else if nbits = 128 then some .d
  else none

/-- The first `k` bytes of a number, the least significant first. -/
def bytesOfNat (w : Nat) (k : Nat) : List Byte := (List.range k).map fun j => BitVec.ofNat 8 (w >>> (8 * j))

/-- The code of a table word, every bit above `nbits` being 0. -/
def tableCode (nbits w : Nat) : Option Code :=
  (formatOfWidth nbits).map fun f => ⟨f, bytesOfNat (w % 2 ^ nbits) f.length⟩

/-- The operation the decoder reads from a word of spec/opcode_table.json. -/
def decodeTableWord (nbits w : Nat) : Option Instr :=
  match tableCode nbits w with
  | none => none
  | some x =>
    match decode x with
    | .ok i => some i
    | .error _ => none

end Sys2Proof
end

