-- ==== Sys2Proof/Machine/State.lean ====
section
/-! DEFINITION. The state of the block: every element of 10_state.md R20, and the model's own fields `cfg`, `phase`, `script`
and `dacTrace`. Plain data throughout. INVENTORY.md lists each with its rule and reset value. -/

namespace Sys2Proof.Machine

open Sys2Proof

/-- `ACQ_STATE` (R21); its codes are `AcqState.code`. -/
inductive AcqState where
  | idle
  | emit
  | wait
  | listen
deriving DecidableEq, Repr

/-- `CH_STATE[c]` (R28): 0 IDLE, 1 SUSPENDED, 2 ACTIVE. Code 3 "is never produced by any rule" and has no name here. -/
inductive ChState where
  | idle
  | suspended
  | active
deriving DecidableEq, Repr

/-- What the sequencer does next (R50, R51): `BOOT` has not run, or the half of a main-loop iteration that is due (log 14). -/
inductive LoopPhase where
  | boot
  | poll
  | eval
deriving DecidableEq, Repr

/-- The registers of one transfer channel (R27 to R31). -/
structure ChanRegs where
  prio    : BitVec 2  -- CH_PRIO
  trigSrc : BitVec 2  -- CH_TRIGSRC: 0 none, 1 DAC_READY, 2 ADC0_READY, 3 ADC1_READY
  burst   : BitVec 2  -- CH_BURST
  state   : ChState   -- CH_STATE
  descPtr : Word      -- CH_DESC_PTR
  wCtrl   : Word      -- W_CTRL
  wSrc    : Word      -- W_SRC
  wDst    : Word      -- W_DST
  wCnt    : Half      -- W_CNT
  wNext   : Word      -- W_NEXT
  trig    : Bool      -- CH_TRIG
deriving DecidableEq, Repr

/-- The datapath registers of the synthesizer (R25). -/
structure SynthRegs where
  ncoPh   : Phase     -- NCO_PH
  ncoFr   : Phase     -- NCO_FR
  winPh   : Phase     -- WIN_PH
  genIdx  : BitVec 16 -- GEN_IDX
  genDone : Bool      -- GEN_DONE
deriving DecidableEq, Repr

/-- The registers of the carrier timer (R32). -/
structure CarrierRegs where
  en      : Bool -- CT_EN
  cnt     : Half -- CT_CNT
  per     : Half -- CT_PER
  duty    : Half -- CT_DUTY
  indDuty : Half -- CT_IND_DUTY
deriving DecidableEq, Repr

/-- The registers of the guard timer (R36). -/
structure GuardRegs where
  run : Bool -- GT_RUN
  cnt : Word -- GT_CNT
  per : Word -- GT_PER
  cmp : Word -- GT_CMP
  aux : Bool -- GT_AUX
deriving DecidableEq, Repr

/-- The bytes that have been written since reset, by address, addresses strictly rising (log 11). -/
abbrev Memory := List Host.Cell

/-- The whole state. -/
structure State where
  cfg        : Params          -- R8 to R10; no step writes it (log 1)
  phase      : LoopPhase       -- log 14
  script     : List Code       -- the steps chosen to come next, the first first (R104, log 2)
  acqState   : AcqState        -- S0
  flags      : BitVec 5        -- S1
  evtPending : BitVec 5        -- S2
  altCount   : BitVec 8        -- S3
  ampEn      : Bool            -- S4
  jobInd     : Bool            -- S5
  rxq        : List Byte       -- S6, oldest first
  txs        : List Byte       -- S7, oldest first
  cs         : SynthRegs       -- S8, S9
  ch0        : ChanRegs        -- S10 to S14, channel 0
  ch1        : ChanRegs        -- channel 1
  ch2        : ChanRegs        -- channel 2
  ct         : CarrierRegs     -- S15
  gt         : GuardRegs       -- S16
  dacOut     : Half            -- S17
  dacTrace   : List Half       -- every value written to DAC_DATA, oldest first (R53, R66, log 13)
  mem        : Memory          -- M0 to M3
deriving DecidableEq, Repr

/-- The block raises no fault: "There are none" (R260), and the treatment `fault` is "Never used here" (93 Part 1). A closed
inductive without constructors. -/
inductive Fault where
deriving DecidableEq, Repr

/-- Why the model declines a step (`refuse`, R270). Every one is safe: the model gives no next state where the spec
gives no meaning. -/
inductive Refusal where
  /-- an instruction whose meaning has not been written; raised by `exec` only. Safe. -/
  | notModelled (mnemonic : String)
  /-- the next line of the script is no operation (R100); raised by `step`. Safe. -/
  | undecodable (e : DecodeError)
  /-- the step is not enabled in this state, or its guard does not hold (R13, R50, R104: a script with this line is not
  legal); raised by the main loop's halves, the handlers, a beat, the ticks, `BOOT` and the transitions. Safe. -/
  | notEnabled (mnemonic : String)
  /-- `TE_CONFIGURE` or `TE_ARM` on a channel that is not IDLE (R152, R153, U12). Safe. -/
  | channelNotIdle (c : Chan)
  /-- a burst policy other than 0 (R27, R152, U8). Safe. -/
  | reservedBurst
  /-- an operand outside its operation's constraints (R153, R191, R201, U12). Safe. -/
  | badOperand (mnemonic : String)
  /-- `CT_CONFIGURE` while CT_EN = 1, `GT_CONFIGURE` while GT_RUN = 1 (R191, R201, U12). Safe. -/
  | timerRunning (mnemonic : String)
  /-- `CT_ENABLE` or `GT_RETRIGGER` before configuration (R192, R202, U12). Safe. -/
  | notConfigured (mnemonic : String)
  /-- an address that is not a multiple of the access size, or of 16 for a descriptor (R69, R70, R72, U10). Safe. -/
  | misaligned (addr : Word)
  /-- an address in no region, or a region this agent may not read or write, or a port accessed in another size than
  16 bits (R61, R69, R70, U9). Safe. -/
  | noAccess (addr : Word)
  /-- a write to CHIRP or DESC after boot (R68, R79, U11). Safe. -/
  | immutableAfterBoot
  /-- a descriptor value the spec reserves (R97, R158, U7). Safe. -/
  | reservedDescriptor
  /-- a parameter outside the constraints of R8, R9, R10 or R63 (R304 line 0, U13). Safe. -/
  | badParameters
deriving DecidableEq, Repr

/-- The registers of a channel after reset (R300 S10 to S14). -/
def ChanRegs.reset : ChanRegs where
  prio := 0
  trigSrc := 0
  burst := 0
  state := .idle
  descPtr := 0
  wCtrl := 0
  wSrc := 0
  wDst := 0
  wCnt := 0
  wNext := 0
  trig := false

/-- The machine right after reset with a given parameter set (R300). DAC_OUT, "unspecified", is 0 (DESIGN CHOICE, unsafe, log 12);
the memories, "unspecified", list nothing, and a byte they do not list reads as a free value (log 11). -/
def State.resetWith (p : Params) : State where
  cfg := p
  phase := .boot
  script := []
  acqState := .idle
  flags := 0
  evtPending := 0
  altCount := 0
  ampEn := false
  jobInd := false
  rxq := []
  txs := []
  cs := { ncoPh := 0, ncoFr := 0, winPh := 0, genIdx := 0, genDone := false }
  ch0 := ChanRegs.reset
  ch1 := ChanRegs.reset
  ch2 := ChanRegs.reset
  ct := { en := false, cnt := 0, per := 0, duty := 0, indDuty := 0 }
  gt := { run := false, cnt := 0, per := 0, cmp := 0, aux := false }
  dacOut := 0
  dacTrace := []
  mem := []

/-- The machine right after reset, with the DEFAULT parameters (log 1). -/
def State.reset : State := State.resetWith Params.default

end Sys2Proof.Machine
end

