-- ==== Sys2Proof/Machine/Map.lean ====
section
/-! DEFINITION. The address map (20_memory.md R61 to R63), who may access which region (R61), and which parameter sets are
legal (00_scope.md R8, R9, R10; 20_memory.md R63). -/

namespace Sys2Proof.Machine

open Sys2Proof

/-- The seven regions of R61. -/
inductive Region where
  | chirp
  | cap0
  | cap1
  | desc
  | dacData
  | adc0
  | adc1
deriving DecidableEq, Repr

/-- The regions in the order of R61. -/
def Region.all : List Region := [.chirp, .cap0, .cap1, .desc, .dacData, .adc0, .adc1]

/-- The first address of a region. -/
def Region.base (p : Params) : Region → Nat
  | .chirp => p.chirpBase
  | .cap0 => p.cap0Base
  | .cap1 => p.cap1Base
  | .desc => p.descBase
  | .dacData => p.dacData
  | .adc0 => p.adc0Result
  | .adc1 => p.adc1Result

/-- The size of a region in bytes. -/
def Region.size (p : Params) : Region → Nat
  | .chirp => 2 * p.nChirp
  | .cap0 => 2 * p.nCap
  | .cap1 => 2 * p.nCap
  | .desc => 48
  | .dacData => 2
  | .adc0 => 2
  | .adc1 => 2

/-- The range of `n` bytes from `a` lies inside the region. -/
abbrev Region.Holds (p : Params) (r : Region) (a n : Nat) : Prop := r.base p ≤ a ∧ a + n ≤ r.base p + r.size p

/-- The region that holds a range, if one does. -/
def regionOf (p : Params) (a n : Nat) : Option Region := Region.all.find? fun r => decide (r.Holds p a n)

/-- Two regions share no address. -/
abbrev Region.Apart (p : Params) (r q : Region) : Prop :=
  r.base p + r.size p ≤ q.base p ∨ q.base p + q.size p ≤ r.base p

/-- Who makes an access, as R61's ownership columns name them. -/
inductive Master where
  | generator         -- CS_GENERATE
  | bootCode          -- BOOT
  | fetch             -- the descriptor fetch of TE_ENABLE and of a beat
  | beat (c : Chan)   -- a beat of channel c
  | drain             -- HL_DRAIN
deriving DecidableEq, Repr

/-- R61, column "Who may read". -/
def Region.mayRead : Region → Master → Bool
  | .chirp, .beat .emit => true
  | .cap0, .drain => true
  | .cap1, .drain => true
  | .desc, .fetch => true
  | .adc0, .beat .cap0 => true
  | .adc1, .beat .cap1 => true
  | _, _ => false

/-- R61, column "Who may write". -/
def Region.mayWrite : Region → Master → Bool
  | .chirp, .generator => true
  | .cap0, .beat .cap0 => true
  | .cap1, .beat .cap1 => true
  | .desc, .bootCode => true
  | .dacData, .beat .emit => true
  | _, _ => false

/-- The regions that are immutable once boot is over (R68, R79). -/
def Region.immutable : Region → Bool
  | .chirp => true
  | .desc => true
  | _ => false

end Sys2Proof.Machine

namespace Sys2Proof

open Sys2Proof.Machine

/-- The widths of R10. R10 gives each ONE value, and the table and the constant of R126 and the registers of R25 and R40 exist for that
value alone; another is outside the spec (DEDUCED, safe, log 36). -/
abbrev Params.LegalWidths (p : Params) : Prop :=
  p.phaseBits = 48 ∧ p.angleBits = 32 ∧ p.ampBits = 30 ∧ p.cordicIter = 30 ∧ p.elemBits = 16

/-- The constraints of R8 and the widths of R10. The frequencies are "rational, any sign". -/
abbrev Params.LegalWave (p : Params) : Prop :=
  2 ≤ p.nChirp ∧ p.nChirp ≤ 65535 ∧ 0 < p.chirpDuration.num ∧ 1 ≤ p.levels ∧ p.levels ≤ 65535 ∧
    1 ≤ p.nCap ∧ p.nCap ≤ 65535 ∧ 1 ≤ p.altArmCount ∧ p.altArmCount ≤ 255 ∧ p.LegalWidths

/-- The constraints of R9. -/
abbrev Params.LegalTimers (p : Params) : Prop :=
  (2 ≤ p.carrierPeriod ∧ p.carrierPeriod ≤ 65535 ∧ 0 < p.carrierDuty ∧ p.carrierDuty < p.carrierPeriod ∧
    0 < p.carrierIndDuty ∧ p.carrierIndDuty < p.carrierPeriod) ∧
  (1 ≤ p.guardPeriod ∧ p.guardPeriod ≤ 2 ^ 32 - 1) ∧
  (if 2 ≤ p.guardPeriod then 0 < p.guardCompare ∧ p.guardCompare < p.guardPeriod else p.guardCompare = 0) ∧
  (p.prioEmit ≤ 3 ∧ p.prioCap0 ≤ 3 ∧ p.prioCap1 ≤ 3)

/-- The constraints of R63: regions pairwise disjoint, bases even, DESC_BASE a multiple of 16 and not 0, no region past
0xFFFF_FFFF. -/
abbrev Params.LegalMap (p : Params) : Prop :=
  Region.all.Pairwise (Region.Apart p) ∧
  (∀ r ∈ Region.all, r.base p % 2 = 0 ∧ r.base p + r.size p ≤ 2 ^ 32) ∧
  p.descBase % 16 = 0 ∧ p.descBase ≠ 0

/-- A parameter set inside every constraint (R304 line 0). -/
abbrev Params.Legal (p : Params) : Prop := p.LegalWave ∧ p.LegalTimers ∧ p.LegalMap

end Sys2Proof
end

