-- ==== Sys2Proof/Machine/Ops.lean ====
section
/-! DEFINITION. The named operations over memory, ports, channels and event lines that the meanings are built from. The block has no exception
and no return from one (60_exceptions.md R260, R273, R274); what stands in their place, the bridge's handler, is ONE
shared operation, `State.handle` of Flags.lean (R263). -/

namespace Sys2Proof.Machine

open Sys2Proof

/-- What a meaning answers. -/
abbrev Result := Host.Outcome State Fault Refusal

/-- An operation's answer as a step's outcome: a refusal of the operation is a refusal of the step. -/
def answer : Except Refusal State → Result
  | .ok s => .next s
  | .error r => .refused r

/-! ### Bytes of memory -/

/-- The byte listed at an address. -/
def Memory.find (m : Memory) (a : Nat) : Option Byte :=
  match m with
  | [] => none
  | (x, b) :: rest => if x = a then some b else Memory.find rest a

/-- The byte at an address: the one listed, or the free byte where nothing has been written (R69, log 11). -/
def Memory.read (m : Memory) (a : Nat) : Byte := (Memory.find m a).getD (Config.freeByte a)

/-- Write one byte, keeping the addresses strictly rising. -/
def Memory.write (m : Memory) (a : Nat) (b : Byte) : Memory :=
  match m with
  | [] => [(a, b)]
  | (x, y) :: rest =>
    if a < x then (a, b) :: (x, y) :: rest
    else if a = x then (a, b) :: rest
    else (x, y) :: Memory.write rest a b

/-- The canonical form: addresses strictly rising, and each inside the 32-bit space (R60). -/
abbrev Memory.Wf (m : Memory) : Prop := m.Pairwise (fun x y => x.1 < y.1) ∧ ∀ x ∈ m, x.1 < 2 ^ 32

/-- The canonical form as a test. -/
def Memory.wf (m : Memory) : Bool := decide (Memory.Wf m)

/-! ### Access sizes and little-endian values (R69 to R71) -/

/-- The access sizes: 1, 2 or 4 bytes. -/
inductive Size where
  | b1
  | b2
  | b4
deriving DecidableEq, Repr

/-- The size in bytes. -/
def Size.bytes : Size → Nat
  | .b1 => 1
  | .b2 => 2
  | .b4 => 4

/-- The little-endian value of `n` bytes at `a` (R69), widened with zeros to 32 bits. -/
def Memory.readLE (m : Memory) (a : Nat) : Size → Word
  | .b1 => (Memory.read m a).setWidth 32
  | .b2 => (le16 (Memory.read m a) (Memory.read m (a + 1))).setWidth 32
  | .b4 => le32 (Memory.read m a) (Memory.read m (a + 1)) (Memory.read m (a + 2)) (Memory.read m (a + 3))

/-- Store the low bytes of `v` at `a`, low byte at the lowest address (R70). -/
def Memory.writeLE (m : Memory) (a : Nat) (n : Size) (v : Word) : Memory :=
  match n with
  | .b1 => Memory.write m a (byteOf v 0)
  | .b2 => Memory.write (Memory.write m a (byteOf v 0)) (a + 1) (byteOf v 1)
  | .b4 =>
    Memory.write (Memory.write (Memory.write (Memory.write m a (byteOf v 0)) (a + 1) (byteOf v 1)) (a + 2) (byteOf v 2))
      (a + 3) (byteOf v 3)

/-! ### The primitives of R69 and R70 -/

/-- `MemRead(addr, n)` by `who` (R69, R61). `draw` is the value a capture port returns, chosen by the environment (R67). -/
def memRead (who : Master) (draw : Half) (a : Word) (n : Size) (s : State) : Except Refusal Word :=
  if a.toNat % n.bytes ≠ 0 then .error (.misaligned a)
  else
    match regionOf s.cfg a.toNat n.bytes with
    | none => .error (.noAccess a)
    | some r =>
      if r.mayRead who then
        match r with
        | .adc0 => if n = .b2 then .ok (draw.setWidth 32) else .error (.noAccess a)
        | .adc1 => if n = .b2 then .ok (draw.setWidth 32) else .error (.noAccess a)
        | _ => .ok (s.mem.readLE a.toNat n)
      else .error (.noAccess a)

/-- `MemWrite(addr, n, v)` by `who` (R70, R61); a write to DAC_DATA is an output event (R66); CHIRP and DESC are written only
during boot (R68, R79). -/
def memWrite (who : Master) (a : Word) (n : Size) (v : Word) (s : State) : Except Refusal State :=
  if a.toNat % n.bytes ≠ 0 then .error (.misaligned a)
  else
    match regionOf s.cfg a.toNat n.bytes with
    | none => .error (.noAccess a)
    | some r =>
      if r.mayWrite who then
        if r.immutable && s.phase ≠ .boot then .error .immutableAfterBoot
        else
          match r with
          | .dacData =>
            if n = .b2 then
              .ok { s with dacOut := v.setWidth 16, dacTrace := s.dacTrace ++ [v.setWidth 16] }
            else .error (.noAccess a)
          | _ => .ok { s with mem := s.mem.writeLE a.toNat n v }
      else .error (.noAccess a)

/-! ### Counters: one down or one up, a free value where the result leaves the register (log 17) -/

/-- `GT_CNT - 1` (R203 line 1). -/
def guardDown (n : Word) : Word := if n = 0 then Config.freeGuardCount else n - 1

/-- `W_CNT - 1` (R160 line 6). -/
def blockDown (n : Half) : Half := if n = 0 then Config.freeBlockCount else n - 1

/-- `CT_CNT + 1` (R194). -/
def carrierUp (n : Half) : Half := if n = 0xFFFF then Config.freeCarrierCount else n + 1

/-- `ALT_COUNT + 1` (R268 line 2). -/
def altUp (n : Byte) : Byte := if n = 0xFF then Config.freeAltCount else n + 1

/-! ### Channels -/

/-- The registers of channel `c`. -/
def State.chan (s : State) : Chan → ChanRegs
  | .emit => s.ch0
  | .cap0 => s.ch1
  | .cap1 => s.ch2

/-- Replace the registers of channel `c`. -/
def State.setChan (s : State) (c : Chan) (r : ChanRegs) : State :=
  match c with
  | .emit => { s with ch0 := r }
  | .cap0 => { s with ch1 := r }
  | .cap1 => { s with ch2 := r }

/-- Where the record of channel `c` stands in DESC: DESC_BASE + 16*c (R39). -/
def descAddr (p : Params) (c : Chan) : Word := BitVec.ofNat 32 (p.descBase + 16 * c.code.toNat)

/-! ### Event lines and the handler (60_exceptions.md) -/

/-- The event lines by bit of EVT_PENDING (R37, R102). -/
inductive Event where
  | emitDone
  | guardOvf
  | cap0Done
  | cap1Done
  | altEdge
deriving DecidableEq, Repr

/-- The one-bit mask of a line (R102). -/
def Event.mask : Event → BitVec 5
  | .emitDone => 0b00001
  | .guardOvf => 0b00010
  | .cap0Done => 0b00100
  | .cap1Done => 0b01000
  | .altEdge => 0b10000

/-- A line is pending. -/
def State.pending (s : State) (e : Event) : Bool := s.evtPending &&& e.mask != 0

/-- `signal EV_x`: set the latch; a set latch stays set (R262). -/
def State.signal (s : State) (e : Event) : State := { s with evtPending := s.evtPending ||| e.mask }

/-- The handler's acknowledge: clear the latch (R263 line 1). -/
def State.ack (s : State) (e : Event) : State := { s with evtPending := s.evtPending &&& ~~~e.mask }

/-- The line a channel's completion raises (R162 line 2). -/
def completionEvent : Chan → Event
  | .emit => .emitDone
  | .cap0 => .cap0Done
  | .cap1 => .cap1Done

/-! ### Restart (R301) -/

/-- A restart is a reset: every element returns to its value of R300; the parameters and the choices still to come stay. -/
def State.restart (s : State) : State := { State.resetWith s.cfg with script := s.script }

end Sys2Proof.Machine
end

