-- ==== Sys2Proof/Machine/Flags.lean ====
section
/-! DEFINITION. FLAGS (10_state.md R22), the transition vector formed from them (30_encoding.md R101), and the handler that sets one
(60_exceptions.md R263). -/

namespace Sys2Proof.Machine

open Sys2Proof

/-- The five SignalFlags, by bit of FLAGS (R22). -/
inductive Flag where
  | emitStart
  | emitStop
  | waitStop
  | cap0Done
  | cap1Done
deriving DecidableEq, Repr

/-- The one-bit mask of a flag (R22). -/
def Flag.mask : Flag → BitVec 5
  | .emitStart => 0b00001
  | .emitStop => 0b00010
  | .waitStop => 0b00100
  | .cap0Done => 0b01000
  | .cap1Done => 0b10000

/-- The flag's value. -/
def State.flag (s : State) (f : Flag) : Bool := s.flags &&& f.mask != 0

/-- `FLAGS.f <- 1`; a flag is a level: setting a set flag leaves it 1 (R22, R281). -/
def State.setFlag (s : State) (f : Flag) : State := { s with flags := s.flags ||| f.mask }

/-- `FLAGS.f <- 0`. -/
def State.clearFlag (s : State) (f : Flag) : State := { s with flags := s.flags &&& ~~~f.mask }

/-- The codes of ACQ_STATE (R21). -/
def AcqState.code : AcqState → BitVec 2
  | .idle => 0
  | .emit => 1
  | .wait => 2
  | .listen => 3

/-- The state of a code; all four are legal (R21). -/
def AcqState.ofCode (c : BitVec 2) : AcqState :=
  if c = 0 then .idle else if c = 1 then .emit else if c = 2 then .wait else .listen

/-- The codes of CH_STATE (R28). -/
def ChState.code : ChState → BitVec 2
  | .idle => 0
  | .suspended => 1
  | .active => 2

/-- The vector `V = {FLAGS[4:0], ACQ_STATE[1:0]}` (R101, R216). -/
def State.vector (s : State) : BitVec 7 := (s.flags ++ s.acqState.code).setWidth 7

/-- A handler may be taken: its line is pending, and `BOOT`, which comes "before any other step", has run (R50; log 34). -/
def State.mayHandle (s : State) (e : Event) : Bool := s.phase ≠ .boot && s.pending e

/-- The body of a handler: acknowledge the line, set one flag (R263). A handler that is not enabled is declined (R50, log 35). Entry saves
nothing and there is nothing to return to (R273, R274). -/
def State.handle (s : State) (e : Event) (f : Flag) (mnemonic : String) : Except Refusal State :=
  if s.mayHandle e then .ok ((s.ack e).setFlag f) else .error (.notEnabled mnemonic)

end Sys2Proof.Machine
end

