-- ==== Sys2Proof/Machine/Operands.lean ====
section
/-! DEFINITION. The operand forms: element size and the two addressing modes of a beat (41_transfer_engine.md R160), the fields of a CTRL word
(30_encoding.md R96), and the constraints on the operands of control operations. -/

namespace Sys2Proof.Machine

open Sys2Proof

/-- `CTRL[4:3]`, ELEMSIZE, as an access size; code 3 is reserved (R96). -/
def elemSize (ctrl : Word) : Option Size :=
  if ctrl.extractLsb' 3 2 = 0 then some .b1
  else if ctrl.extractLsb' 3 2 = 1 then some .b2
  else if ctrl.extractLsb' 3 2 = 2 then some .b4
  else none

/-- `CTRL[2:1]` is NOTIFY or NOTIFY_SUSPEND (R96, R162). -/
def notifies (ctrl : Word) : Bool := ctrl.extractLsb' 1 2 = 1 || ctrl.extractLsb' 1 2 = 3

/-- `CTRL[2:1]` is SUSPEND or NOTIFY_SUSPEND (R96, R162). -/
def suspends (ctrl : Word) : Bool := ctrl.extractLsb' 1 2 = 2 || ctrl.extractLsb' 1 2 = 3

/-- The working address after a beat: fixed, or post-increment by the element size modulo 2^32 (R160 lines 4 and 5). -/
def advance (inc : Bool) (n : Size) (a : Word) : Word := if inc then a + BitVec.ofNat 32 n.bytes else a

/-- `TE_ARM`'s address: a multiple of 16, not 0 (R153). -/
def armAddress (a : Word) : Bool := a ≠ 0 && a.toNat % 16 = 0

/-- `CT_CONFIGURE`'s operands: 2 <= period, 0 < duty < period, 0 < ind_duty < period (R191). -/
def carrierOperands (per duty ind : Half) : Bool :=
  2 ≤ per.toNat && 0 < duty.toNat && duty.toNat < per.toNat && 0 < ind.toNat && ind.toNat < per.toNat

/-- `GT_CONFIGURE`'s operands: 1 <= period; 0 < compare < period, or compare = 0 for no compare event (R201). -/
def guardOperands (per cmp : Word) : Bool := 1 ≤ per.toNat && (cmp = 0 || cmp.toNat < per.toNat)

end Sys2Proof.Machine
end

