-- ==== Sys2Proof/Machine/Guard.lean ====
section
/-! DEFINITION. The guard timer (43_guard_timer.md). -/

namespace Sys2Proof.Machine

open Sys2Proof

/-- `GT_CONFIGURE` (R201). -/
def State.gtConfigure (s : State) (per cmp : Word) : Except Refusal State :=
  if !guardOperands per cmp then .error (.badOperand "GT_CONFIGURE")
  else if s.gt.run then .error (.timerRunning "GT_CONFIGURE")
  else .ok { s with gt := { s.gt with per := per, cmp := cmp, cnt := 0, aux := false } }

/-- `GT_RETRIGGER` (R202): a running countdown restarts and raises nothing for the one abandoned. -/
def State.gtRetrigger (s : State) : Except Refusal State :=
  if s.gt.per = 0 then .error (.notConfigured "GT_RETRIGGER")
  else .ok { s with gt := { s.gt with cnt := s.gt.per, run := true, aux := false } }

/-- GT_CONFIGURE (R201). -/
def execGtConfigure (period compare : Word) (s : State) : Result := answer (s.gtConfigure period compare)

/-- GT_RETRIGGER (R202). -/
def execGtRetrigger (s : State) : Result := answer s.gtRetrigger

/-- One count of the guard time base (R203): the overflow event at 0, the compare event GT_CMP ticks after the retrigger. -/
def State.guardCount (s : State) : State :=
  let cnt := guardDown s.gt.cnt
  if cnt = 0 then { s with gt := { s.gt with cnt := 0, run := false, aux := false } }.signal .guardOvf
  else if s.gt.cmp ≠ 0 ∧ cnt.toNat + s.gt.cmp.toNat = s.gt.per.toNat then
    { s with gt := { s.gt with cnt := cnt, aux := true } }
  else { s with gt := { s.gt with cnt := cnt } }

/-- GT_TICK (R203); enabled while GT_RUN = 1. -/
def execGtTick (s : State) : Result :=
  if s.gt.run then .next s.guardCount else .refused (.notEnabled "GT_TICK")

end Sys2Proof.Machine
end

