-- ==== Sys2Proof/Machine/Link.lean ====
section
/-! DEFINITION. The host link (45_host_link.md): the outcomes of one host byte, the poll, a sample in format S, the drain, and the
host's send (10_state.md R52). -/

namespace Sys2Proof.Machine

open Sys2Proof

/-! ### The outcomes of a host byte (R242 to R246); the poll removes the byte -/

/-- `START_JOB` (R242): honoured only in Idle. -/
def State.startJob (s : State) : State :=
  if s.acqState = .idle then { s.setFlag .emitStart with jobInd := !s.jobInd } else s

/-- START_JOB (R242). -/
def execStartJob (s : State) : Result := .next s.startJob

/-- AMP_ENABLE (R243). -/
def execAmpEnable (s : State) : Result := .next { s with ampEn := true }

/-- AMP_DISABLE (R244). -/
def execAmpDisable (s : State) : Result := .next { s with ampEn := false }

/-- RSVD_LOW (R245): nothing beyond the byte's removal, which is the poll's. -/
def execRsvdLow (_low : BitVec 4) (s : State) : Result := .next s

/-- IGNORED (R246): nothing beyond the byte's removal, which is the poll's. -/
def execIgnored (_b : Byte) (s : State) : Result := .next s

/-- The effect of a host byte: the outcome its decoding selects (R241). -/
def hostByte (b : Byte) (s : State) : Result :=
  match decodeByte b with
  | .startJob => execStartJob s
  | .ampEnable => execAmpEnable s
  | .ampDisable => execAmpDisable s
  | .rsvdLow low => execRsvdLow low s
  | _ => execIgnored b s

/-- HL_POLL (R241): the first half of an iteration takes at most one byte; AS_EVAL is due next (R51). -/
def execHlPoll (s : State) : Result :=
  if s.phase ≠ .poll then .refused (.notEnabled "HL_POLL")
  else
    match s.rxq with
    | [] => .next { s with phase := .eval }
    | b :: rest => hostByte b { s with rxq := rest, phase := .eval }

/-- ENV_HOST_SEND (R52): the host appends a byte. -/
def execEnvHostSend (b : Byte) (s : State) : Result := .next { s with rxq := s.rxq ++ [b] }

/-! ### Samples and the drain -/

/-- Format S: low byte, then high byte (R94). -/
def sampleBytes (v : Half) : List Byte := [byteOf v 0, byteOf v 1]

/-- SAMPLE (R94): one sample goes out on TXS, which is what the drain does with each (R247; log 7). -/
def execSample (v : Half) (s : State) : Result := .next { s with txs := s.txs ++ sampleBytes v }

/-- Element `k` of the capture buffer at `base` (R247). -/
def State.element (s : State) (base k : Nat) : Half :=
  le16 (Memory.read s.mem (base + 2 * k)) (Memory.read s.mem (base + 2 * k + 1))

/-- The bytes of `n` elements of a capture buffer, in order (R247). -/
def State.bufferBytes (s : State) (base n : Nat) : List Byte :=
  (List.range n).flatMap fun k => sampleBytes (s.element base k)

/-- The payload of a job: CAP0 then CAP1 (R82, R247). -/
def State.payload (s : State) : List Byte :=
  s.bufferBytes s.cfg.cap0Base s.cfg.nCap ++ s.bufferBytes s.cfg.cap1Base s.cfg.nCap

/-- `HL_DRAIN` (R247). Under legal parameters every read is one `memRead` allows the drain; other parameters are outside the
spec (log 27). -/
def State.drain (s : State) : Except Refusal State :=
  if ¬s.cfg.Legal then .error .badParameters else .ok { s with txs := s.txs ++ s.payload }

/-- HL_DRAIN (R247). -/
def execHlDrain (s : State) : Result := answer s.drain

end Sys2Proof.Machine
end

