-- ==== Sys2Proof/Machine/Transfer.lean ====
section
/-! DEFINITION. The transfer engine (41_transfer_engine.md): the channel operations, the trigger, the arbiter, the beat and
block completion; and format D, a record placed in DESC. -/

namespace Sys2Proof.Machine

open Sys2Proof

/-! ### Descriptors -/

/-- Store a descriptor in the record of channel `c` (R304 line 2), four words low address first; after boot DESC is immutable (R68). -/
def State.placeDescriptor (s : State) (c : Chan) (d : Descriptor) : Except Refusal State := do
  let a := descAddr s.cfg c
  let s1 ← memWrite .bootCode a .b4 d.ctrl s
  let s2 ← memWrite .bootCode (a + 4) .b4 d.src s1
  let s3 ← memWrite .bootCode (a + 8) .b4 d.dst s2
  memWrite .bootCode (a + 12) .b4 d.next s3

/-- DESCRIPTOR (R96): the record comes to stand in DESC, which is what BOOT does with one (R304 line 2, R68; log 6). A usable record
with a reserved value is declined (R97). -/
def execDescriptor (slot : Chan) (d : Descriptor) (s : State) : Result :=
  if d.valid && d.reservedValue then .refused .reservedDescriptor else answer (s.placeDescriptor slot d)

/-- The four words of a record, read by the descriptor fetch (R158 lines 1, 5, 6, 7). -/
def readDescriptor (ctrl addr : Word) (s : State) : Except Refusal Descriptor := do
  let src ← memRead .fetch 0 (addr + 4) .b4 s
  let dst ← memRead .fetch 0 (addr + 8) .b4 s
  let next ← memRead .fetch 0 (addr + 12) .b4 s
  pure (Descriptor.ofWords ctrl src dst next)

/-- The channel registers once a descriptor is current (R158 lines 4 to 8). -/
def ChanRegs.load (r : ChanRegs) (d : Descriptor) (ctrl : Word) : ChanRegs :=
  { r with wCtrl := ctrl, wSrc := d.src, wDst := d.dst, wNext := d.next, wCnt := d.count }

/-- `LoadDesc(c, addr)` (R158): the loaded registers, or none where VALID = 0. The address is a multiple of 16 (R72); a record with
a value R97 reserves is declined when it is loaded (log 16). -/
def State.loadDesc (s : State) (r : ChanRegs) (addr : Word) : Except Refusal (Option ChanRegs) :=
  if addr.toNat % 16 ≠ 0 then .error (.misaligned addr)
  else do
    let ctrl ← memRead .fetch 0 addr .b4 s
    if ctrl.getLsbD 0 = false then pure none
    else do
      let d ← readDescriptor ctrl addr s
      if d.reservedValue then .error .reservedDescriptor else pure (some (r.load d ctrl))

/-! ### Channel operations (R152 to R157) -/

/-- The channel is IDLE, SUSPENDED or ACTIVE. -/
abbrev State.chState (s : State) (c : Chan) : ChState := (s.chan c).state

/-- `TE_CONFIGURE` (R152). -/
def State.teConfigure (s : State) (c : Chan) (prio trigsrc burst : BitVec 2) : Except Refusal State :=
  if s.chState c ≠ .idle then .error (.channelNotIdle c)
  else if burst ≠ 0 then .error .reservedBurst
  else .ok (s.setChan c { s.chan c with prio := prio, trigSrc := trigsrc, burst := burst })

/-- `TE_ARM` (R153); it does not read the descriptor. -/
def State.teArm (s : State) (c : Chan) (a : Word) : Except Refusal State :=
  if !armAddress a then .error (.badOperand "TE_ARM")
  else if s.chState c ≠ .idle then .error (.channelNotIdle c)
  else .ok (s.setChan c { s.chan c with descPtr := a })

/-- `TE_ENABLE` (R154). -/
def State.teEnable (s : State) (c : Chan) : Except Refusal State :=
  if s.chState c ≠ .idle then .ok s
  else if (s.chan c).descPtr = 0 then .ok s
  else
    match s.loadDesc (s.chan c) (s.chan c).descPtr with
    | .error e => .error e
    | .ok none => .ok s
    | .ok (some r) => .ok (s.setChan c { r with state := .active, trig := false })

/-- `TE_SUSPEND` (R155): a pending trigger is dropped. -/
def State.teSuspend (s : State) (c : Chan) : State :=
  if s.chState c = .active then s.setChan c { s.chan c with state := .suspended, trig := false } else s

/-- `TE_RESUME` (R156). -/
def State.teResume (s : State) (c : Chan) : State :=
  if s.chState c = .suspended then s.setChan c { s.chan c with state := .active } else s

/-- `TE_DISABLE` (R157): legal in every state; signals no completion. -/
def State.teDisable (s : State) (c : Chan) : State := s.setChan c { s.chan c with state := .idle, trig := false }

/-- TE_CONFIGURE (R152). -/
def execTeConfigure (c : Chan) (prio trigsrc burst : BitVec 2) (s : State) : Result :=
  answer (s.teConfigure c prio trigsrc burst)

/-- TE_ARM (R153). -/
def execTeArm (c : Chan) (descAddr : Word) (s : State) : Result := answer (s.teArm c descAddr)

/-- TE_ENABLE (R154). -/
def execTeEnable (c : Chan) (s : State) : Result := answer (s.teEnable c)

/-- TE_SUSPEND (R155). -/
def execTeSuspend (c : Chan) (s : State) : Result := .next (s.teSuspend c)

/-- TE_RESUME (R156). -/
def execTeResume (c : Chan) (s : State) : Result := .next (s.teResume c)

/-- TE_DISABLE (R157). -/
def execTeDisable (c : Chan) (s : State) : Result := .next (s.teDisable c)

/-! ### Triggers and the arbiter (R159, R161) -/

/-- ENV_TRIGGER (R159): latched only while ACTIVE and while none is pending; lost otherwise. -/
def execEnvTrigger (c : Chan) (s : State) : Result :=
  if (s.chan c).trigSrc = 0 then .next s
  else if s.chState c ≠ .active then .next s
  else if (s.chan c).trig then .next s
  else .next (s.setChan c { s.chan c with trig := true })

/-- Channel `c` is a candidate of the arbiter (R161). -/
def State.candidate (s : State) (c : Chan) : Bool := s.chState c = .active && (s.chan c).trig

/-- Between the grant so far and channel `c`: the candidate with the larger CH_PRIO, the earlier one among equals (R161). -/
def State.better (s : State) (best : Option Chan) (c : Chan) : Option Chan :=
  if s.candidate c then
    match best with
    | none => some c
    | some b => if (s.chan b).prio.toNat < (s.chan c).prio.toNat then some c else some b
  else best

/-- The channel the arbiter grants (R161). -/
def State.grant (s : State) : Option Chan := s.better (s.better (s.better none .emit) .cap0) .cap1

/-! ### Beats and block completion (R160, R162) -/

/-- `BlockComplete(c)` (R162): signal, load the successor, suspend. -/
def State.blockComplete (s : State) (c : Chan) : Except Refusal State :=
  let act := (s.chan c).wCtrl
  let s1 := if notifies act then s.signal (completionEvent c) else s
  let r := s1.chan c
  let next : Except Refusal (Option ChanRegs) := if r.wNext = 0 then .ok none else s1.loadDesc r r.wNext
  match next with
  | .error e => .error e
  | .ok none => .ok (s1.setChan c { r with state := .idle })
  | .ok (some q) =>
    .ok (s1.setChan c (if suspends act && q.state = .active then { q with state := .suspended } else q))

/-- The channel registers after a beat of `n` bytes (R160 lines 4 to 7). -/
def ChanRegs.beat (r : ChanRegs) (n : Size) : ChanRegs :=
  { r with
    wSrc := advance (r.wCtrl.getLsbD 5) n r.wSrc
    wDst := advance (r.wCtrl.getLsbD 6) n r.wDst
    wCnt := blockDown r.wCnt
    trig := false }

/-- The element move of a beat: read, write, registers (R160 lines 1 to 7). -/
def State.moveElement (s : State) (c : Chan) (draw : Half) : Except Refusal State :=
  match elemSize (s.chan c).wCtrl with
  | none => .error .reservedDescriptor
  | some n => do
    let v ← memRead (.beat c) draw (s.chan c).wSrc n s
    let s1 ← memWrite (.beat c) (s.chan c).wDst n v s
    pure (s1.setChan c ((s.chan c).beat n))

/-- A beat of the granted channel (R160); `draw` is what a capture port returns (R67). -/
def State.teBeat (s : State) (c : Chan) (draw : Half) : Except Refusal State :=
  if s.grant ≠ some c then .error (.notEnabled "TE_BEAT")
  else do
    let s1 ← s.moveElement c draw
    if (s1.chan c).wCnt = 0 then s1.blockComplete c else pure s1

/-- TE_BEAT (R160). -/
def execTeBeat (c : Chan) (draw : Half) (s : State) : Result := answer (s.teBeat c draw)

end Sys2Proof.Machine
end

