-- ==== Sys2Proof/Machine/Acquisition.lean ====
section
/-! DEFINITION. The acquisition state machine (44_acq_fsm.md): the five outcomes and the step that selects one. Each outcome checks its own
guard, so that it has no effect outside its state when it is taken by itself (log 28). -/

namespace Sys2Proof.Machine

open Sys2Proof

/-- `T_IDLE_EMIT` (R217). -/
def State.idleToEmit (s : State) : Except Refusal State :=
  if s.acqState = .idle ∧ s.flag .emitStart then
    .ok { (s.clearFlag .emitStart).teResume .emit with acqState := .emit }
  else .error (.notEnabled "T_IDLE_EMIT")

/-- `T_EMIT_WAIT` (R218); the delay changes no state. -/
def State.emitToWait (s : State) : Except Refusal State :=
  if s.acqState = .emit ∧ s.flag .emitStop then
    match (s.clearFlag .emitStop).gtRetrigger with
    | .error e => .error e
    | .ok t => .ok { t with acqState := .wait }
  else .error (.notEnabled "T_EMIT_WAIT")

/-- `T_WAIT_LISTEN` (R219): both resumes in one step. -/
def State.waitToListen (s : State) : Except Refusal State :=
  if s.acqState = .wait ∧ s.flag .waitStop then
    .ok { ((s.clearFlag .waitStop).teResume .cap0).teResume .cap1 with acqState := .listen }
  else .error (.notEnabled "T_WAIT_LISTEN")

/-- `T_LISTEN_IDLE` (R220): needs both capture flags; Idle only after the drain. -/
def State.listenToIdle (s : State) : Except Refusal State :=
  if s.acqState = .listen ∧ s.flag .cap0Done ∧ s.flag .cap1Done then
    match ((s.clearFlag .cap0Done).clearFlag .cap1Done).drain with
    | .error e => .error e
    | .ok t => .ok { t with jobInd := !t.jobInd, acqState := .idle }
  else .error (.notEnabled "T_LISTEN_IDLE")

/-- Some guarded transition can fire. -/
def State.guardHolds (s : State) : Bool :=
  match s.acqState with
  | .idle => s.flag .emitStart
  | .emit => s.flag .emitStop
  | .wait => s.flag .waitStop
  | .listen => s.flag .cap0Done && s.flag .cap1Done

/-- `T_NONE` (R221): nothing changes; flags foreign to the state stay. -/
def State.noTransition (s : State) : Except Refusal State :=
  if s.guardHolds then .error (.notEnabled "T_NONE") else .ok s

/-- T_IDLE_EMIT (R217). -/
def execTIdleEmit (s : State) : Result := answer s.idleToEmit

/-- T_EMIT_WAIT (R218). -/
def execTEmitWait (s : State) : Result := answer s.emitToWait

/-- T_WAIT_LISTEN (R219). -/
def execTWaitListen (s : State) : Result := answer s.waitToListen

/-- T_LISTEN_IDLE (R220). -/
def execTListenIdle (s : State) : Result := answer s.listenToIdle

/-- T_NONE (R221); the vector is the one that selected it, and the state says what it says. -/
def execTNone (_v : BitVec 7) (s : State) : Result := answer s.noTransition

/-- The outcome the vector selects (R216). -/
def transition (s : State) : Result :=
  match selectT s.vector with
  | .tIdleEmit => execTIdleEmit s
  | .tEmitWait => execTEmitWait s
  | .tWaitListen => execTWaitListen s
  | .tListenIdle => execTListenIdle s
  | _ => execTNone s.vector s

/-- AS_EVAL (R216): the second half of an iteration fires at most one transition; HL_POLL is due next (R51). -/
def execAsEval (s : State) : Result :=
  if s.phase ≠ .eval then .refused (.notEnabled "AS_EVAL") else transition { s with phase := .poll }

end Sys2Proof.Machine
end

