-- ==== Sys2Proof/Machine/Carrier.lean ====
section
/-! DEFINITION. The carrier timer (42_carrier_timer.md). -/

namespace Sys2Proof.Machine

open Sys2Proof

/-- `CT_CONFIGURE` (R191). -/
def State.ctConfigure (s : State) (per duty ind : Half) : Except Refusal State :=
  if !carrierOperands per duty ind then .error (.badOperand "CT_CONFIGURE")
  else if s.ct.en then .error (.timerRunning "CT_CONFIGURE")
  else .ok { s with ct := { s.ct with per := per, duty := duty, indDuty := ind, cnt := 0 } }

/-- `CT_ENABLE` (R192). -/
def State.ctEnable (s : State) : Except Refusal State :=
  if s.ct.per = 0 then .error (.notConfigured "CT_ENABLE") else .ok { s with ct := { s.ct with en := true } }

/-- CT_CONFIGURE (R191). -/
def execCtConfigure (period duty indDuty : Half) (s : State) : Result := answer (s.ctConfigure period duty indDuty)

/-- CT_ENABLE (R192). -/
def execCtEnable (s : State) : Result := answer s.ctEnable

/-- The counter after one count (R194): back to 0 at the period. -/
def nextCount (cnt per : Half) : Half := if cnt.toNat + 1 = per.toNat then 0 else carrierUp cnt

/-- CT_TICK (R194); enabled while CT_EN = 1. -/
def execCtTick (s : State) : Result :=
  if s.ct.en then .next { s with ct := { s.ct with cnt := nextCount s.ct.cnt s.ct.per } }
  else .refused (.notEnabled "CT_TICK")

/-- `CARR_P` (R193). -/
def State.carrP (s : State) : Bool := s.ct.en && s.ct.cnt.toNat < s.ct.duty.toNat

/-- `CARR_N` (R193). -/
def State.carrN (s : State) : Bool := s.ct.en && s.ct.duty.toNat ≤ s.ct.cnt.toNat

/-- `CARR_IND` (R193). -/
def State.carrInd (s : State) : Bool := s.ct.en && s.ct.cnt.toNat < s.ct.indDuty.toNat

end Sys2Proof.Machine
end

