-- ==== Sys2Proof/Machine/Chirp.lean ====
section
/-! DEFINITION. The arithmetic behind `CS_GENERATE` (40_chirp_synth.md): tuning words, the CORDIC cosine, the sample of the
fixed-point datapath, and the sample of the document's own expression (CHIRP_IMPL = REFERENCE). -/

namespace Sys2Proof.Machine

open Sys2Proof

/-! ### Tuning words (R124, R125) -/

/-- Round to nearest, ties away from zero (R121). -/
def rhaz (q : Rat) : Int := if 0 ≤ q.num then (q + mkRat 1 2).floor else -((-q + mkRat 1 2).floor)

/-- `c0`, the phase of sample 0 in turns. -/
def phaseC0 (p : Params) : Rat :=
  match p.phaseForm with
  | .asWritten => (p.chirpF1 - p.chirpF0) / (2 * p.chirpDuration)
  | .linearSweep => 0

/-- `c1`, the linear coefficient. -/
def phaseC1 (p : Params) : Rat := p.chirpF0 * p.chirpDuration / (p.nChirp : Rat)

/-- `c2`, the quadratic coefficient. -/
def phaseC2 (p : Params) : Rat :=
  match p.phaseForm with
  | .asWritten => p.chirpDuration * p.chirpDuration / ((p.nChirp : Rat) * (p.nChirp : Rat))
  | .linearSweep => (p.chirpF1 - p.chirpF0) * p.chirpDuration / (2 * ((p.nChirp : Rat) * (p.nChirp : Rat)))

/-- A turn in units of the phase registers, `2^PHASE_BITS`. -/
def turn (p : Params) : Nat := 2 ^ p.phaseBits

/-- `PH0`. -/
def ph0 (p : Params) : Phase := BitVec.ofInt 48 (rhaz ((phaseC0 p - ((phaseC0 p).floor : Rat)) * turn p))

/-- `FTW0`. -/
def ftw0 (p : Params) : Phase := BitVec.ofInt 48 (rhaz ((phaseC1 p + phaseC2 p) * turn p))

/-- `CRW`. -/
def crw (p : Params) : Phase := BitVec.ofInt 48 (rhaz (2 * phaseC2 p * turn p))

/-- `WTW`; as a 48-bit word it is 0 when N_CHIRP = 2 (R133(b)). -/
def wtw (p : Params) : Phase := BitVec.ofInt 48 (rhaz ((turn p : Rat) / ((p.nChirp : Rat) - 1)))

/-! ### The CORDIC cosine (R126, R127) -/

/-- `AT[0..29]`, the normative table of R126. -/
def cordicAngles : List Int :=
  [536870912, 316933406, 167458907, 85004756, 42667331, 21354465, 10679838, 5340245, 2670163, 1335087,
   667544, 333772, 166886, 83443, 41722, 20861, 10430, 5215, 2608, 1304,
   652, 326, 163, 81, 41, 20, 10, 5, 3, 1]

/-- `KINV` (R126). -/
def cordicGain : Int := 652032874

/-- The iterations of R127 from index `j` on; the answer is the final `x`. Shifts are arithmetic. -/
def cordic : List Int → Nat → Int → Int → Int → Int
  | [], _, x, _, _ => x
  | at_j :: rest, j, x, y, z =>
    if 0 ≤ z then cordic rest (j + 1) (x - (y >>> j)) (y + (x >>> j)) (z - at_j)
    else cordic rest (j + 1) (x + (y >>> j)) (y - (x >>> j)) (z + at_j)

/-- One, in units of the amplitudes: `2^AMP_BITS`. -/
def ampUnit (p : Params) : Int := (2 ^ p.ampBits : Nat)

/-- The clamp of R127. -/
def clampUnit (p : Params) (x : Int) : Int := if x < 0 then 0 else if x > ampUnit p then ampUnit p else x

/-- The clamped end of the iterations from angle `z` (R127). -/
def cordicCos (p : Params) (z : Int) : Int := clampUnit p (cordic (cordicAngles.take p.cordicIter) 0 cordicGain 0 z)

/-- `cosq(ph)` (R127): the cosine of a phase, truncated to ANGLE_BITS, in units of 2^-AMP_BITS. -/
def cosq (p : Params) (ph : Phase) : Int :=
  let a : Nat := ph.toNat / 2 ^ (p.phaseBits - p.angleBits)
  let half : Nat := 2 ^ (p.angleBits - 1)
  let q := a / 2 ^ (p.angleBits - 2)
  if q = 0 then cordicCos p a
  else if q = 1 then -cordicCos p ((a : Int) - half)
  else if q = 2 then -cordicCos p ((a : Int) - half)
  else cordicCos p ((a : Int) - (2 * half : Nat))

/-- The rounding of R129, on bare numbers: `floor((LEVELS*(2^61 + raw*w2) + 2^61) / 2^62)`, where 2^61 is twice the square of the unit. -/
def roundSample (p : Params) (raw w2 : Int) : Int :=
  let one := 2 * ampUnit p * ampUnit p
  ((p.levels : Int) * (one + raw * w2) + one) / (2 * one)

/-- `S_hw` from the two phase registers (R129). -/
def hwSample (p : Params) (ncoPh winPh : Phase) : Int := roundSample p (cosq p ncoPh) (ampUnit p - cosq p winPh)

/-! ### The document's expression (R120, CHIRP_IMPL = REFERENCE)

`S_ref(i)` is over the reals: exact cosines, exact products, one rounding (R132). The model encloses each cosine between two integers in units of
2^-bits (alternating Taylor series, outward rounding), exactly where the cosine is 0, 1/2 or 1 up to sign, carries the enclosure through the
product, and rounds both ends. Where they agree that is the sample. Where they do not, it encloses again with twice the bits.

This ends with the rounding of the real number itself (log 19). A tie needs a rational product of the two factors of R120, and by Conway and Jones
no two rational angles give one unless one factor is 0 or both cosines are exact; those enclosures have no width. Any other sample is at least
2^-(22 n) from a tie, `n` a common denominator of the two phases (a nonzero algebraic integer of degree below n, its conjugates below 2^22), and
`refDoublings` reaches more than 160 n bits. -/

/-- An enclosure: the real number lies between `lo` and `hi`, in units of 2^-bits. -/
structure Enclosure where
  lo : Int
  hi : Int
deriving DecidableEq, Repr

/-- The alternating sum of `n` terms of the series of atan(1/k) from term `j` on, `k2 = k^2`, each term rounded down. -/
def atanSum : Nat → Nat → Nat → Nat → Int
  | 0, _, _, _ => 0
  | n + 1, k2, j, pw => ((pw / (2 * j + 1) : Nat) : Int) - atanSum n k2 (j + 1) (pw / k2)

/-- Pi, by Machin's formula `pi = 16 atan(1/5) - 4 atan(1/239)`, computed with 32 bits to spare. Each of the `terms` terms of each series is off by
less than 3 and what is left of the series by less than 1. -/
def refPi (bits : Nat) : Enclosure :=
  let unit : Nat := 2 ^ (bits + 32)
  let terms := (bits + 32) / 4 + 1
  let s := 16 * atanSum terms 25 0 (unit / 5) - 4 * atanSum terms 57121 0 (unit / 239)
  let err : Int := (20 * (3 * terms + 1) : Nat)
  let spare : Int := (2 ^ 32 : Nat)
  ⟨(s - err) / spare, (s + err) / spare + 1⟩

/-- The alternating tail of the cosine series from term `k` on, whose term lies between `tlo` and `thi`, with the square of the angle
between `xlo` and `xhi`; what is left after the last term is at most that term. -/
def cosTail (unit : Nat) : Nat → Nat → Nat → Nat → Nat → Nat → Enclosure
  | 0, _, _, thi, _, _ => ⟨-(thi : Int), thi⟩
  | n + 1, k, tlo, thi, xlo, xhi =>
    let d := unit * ((2 * k + 1) * (2 * k + 2))
    let rest := cosTail unit n (k + 1) (tlo * xlo / d) (thi * xhi / d + 1) xlo xhi
    ⟨(tlo : Int) - rest.hi, (thi : Int) - rest.lo⟩

/-- An enclosure of a number that lies between 0 and one. -/
def Enclosure.clamp (unit : Nat) (e : Enclosure) : Enclosure := ⟨max 0 (min e.lo unit), max 0 (min e.hi unit)⟩

/-- The cosine of `q` turns, `0 <= q <= 1/4`; exact at 0, 1/6 and 1/4. -/
def cosQuarter (bits : Nat) (q : Rat) : Enclosure :=
  let unit : Nat := 2 ^ bits
  if q = 0 then ⟨unit, unit⟩
  else if q = mkRat 1 4 then ⟨0, 0⟩
  else if q = mkRat 1 6 then ⟨(unit / 2 : Nat), (unit / 2 : Nat)⟩
  else
    let xlo := 2 * (refPi bits).lo.toNat * q.num.toNat / q.den
    let xhi := 2 * (refPi bits).hi.toNat * q.num.toNat / q.den + 1
    (cosTail unit (bits / 5) 0 unit unit (xlo * xlo / unit) (xhi * xhi / unit + 1)).clamp unit

/-- The cosine of `q` turns, any rational `q`. -/
def cosTurn (bits : Nat) (q : Rat) : Enclosure :=
  let f := q - (q.floor : Rat)
  let g := if f ≤ mkRat 1 2 then f else 1 - f
  if g ≤ mkRat 1 4 then cosQuarter bits g
  else
    let e := cosQuarter bits (mkRat 1 2 - g)
    ⟨-e.hi, -e.lo⟩

/-- `phi(i)` in turns (R120, R125). -/
def refPhase (p : Params) (i : Nat) : Rat := phaseC0 p + phaseC1 p * (i : Rat) + phaseC2 p * ((i : Rat) * (i : Rat))

/-- The two roundings of R120 at index `i`: of the lower and of the upper end of the enclosure. -/
def refBounds (bits : Nat) (p : Params) (i : Nat) : Enclosure :=
  let unit : Int := (2 ^ bits : Nat)
  let raw := cosTurn bits (refPhase p i)
  let c := cosTurn bits ((i : Rat) / ((p.nChirp : Rat) - 1))
  let wlo := unit - c.hi
  let whi := unit - c.lo
  let lo := if 0 ≤ raw.lo then raw.lo * wlo else raw.lo * whi
  let hi := if 0 ≤ raw.hi then raw.hi * whi else raw.hi * wlo
  let sq := unit * unit
  ⟨((p.levels : Int) * (2 * sq + lo) + 2 * sq) / (4 * sq), ((p.levels : Int) * (2 * sq + hi) + 2 * sq) / (4 * sq)⟩

/-- The rounding, with twice the bits as long as the two ends differ and `n` doublings are left; after the last the ends agree. -/
def refRound (p : Params) (i : Nat) : Nat → Nat → Int
  | 0, bits => (refBounds bits p i).lo
  | n + 1, bits =>
    let b := refBounds bits p i
    if b.lo = b.hi then b.lo else refRound p i n (2 * bits)

/-- Doublings of 160 bits that give more than `160 n` bits, `n` a common denominator of the two phases at index `i`. -/
def refDoublings (p : Params) (i : Nat) : Nat := ((refPhase p i).den * (p.nChirp - 1)).log2 + 1

/-- `S_ref(i)` (R120). -/
def refSample (p : Params) (i : Nat) : Int := refRound p i (refDoublings p i) 160

/-! ### The loop (R128) -/

/-- The sample line 3 of R128 stores, as a 16-bit element. -/
def sampleAt (p : Params) (r : SynthRegs) : Half :=
  match p.chirpImpl with
  | .nco => BitVec.ofInt 16 (hwSample p r.ncoPh r.winPh)
  | .reference => BitVec.ofInt 16 (refSample p r.genIdx.toNat)

/-- Line 1 of R128. -/
def synthStart (p : Params) : SynthRegs where
  ncoPh := ph0 p
  ncoFr := ftw0 p
  winPh := 0
  genIdx := 0
  genDone := false

/-- Lines 5 to 8 of R128. -/
def synthNext (p : Params) (r : SynthRegs) : SynthRegs where
  ncoPh := r.ncoPh + r.ncoFr
  ncoFr := r.ncoFr + crw p
  winPh := r.winPh + wtw p
  genIdx := r.genIdx + 1
  genDone := r.genDone

/-- `n` turns of the loop of R128: registers and memory. -/
def genLoop (p : Params) : Nat → SynthRegs → Memory → SynthRegs × Memory
  | 0, r, m => (r, m)
  | n + 1, r, m =>
    genLoop p n (synthNext p r) (m.writeLE (p.chirpBase + 2 * r.genIdx.toNat) .b2 ((sampleAt p r).setWidth 32))

/-- The registers and the memory after R128: the loop, the forced last sample (line 9, R122), and GEN_DONE. -/
def generate (p : Params) (m : Memory) : SynthRegs × Memory :=
  let x := genLoop p p.nChirp (synthStart p) m
  ({ x.1 with genDone := true }, x.2.writeLE (p.chirpBase + 2 * (p.nChirp - 1)) .b2 0)

end Sys2Proof.Machine
end

