-- ==== Sys2Proof/Machine/Synth.lean ====
section
/-! DEFINITION. The synthesizer's operation `CS_GENERATE` (40_chirp_synth.md R128). -/

namespace Sys2Proof.Machine

open Sys2Proof

/-- `CS_GENERATE` (R128): load the tuning words, fill CHIRP, force the last sample to 0. After boot CHIRP is immutable (R79); with a
parameter outside its constraints nothing is generated (R133(a), log 27). Under legal parameters every write is one `memWrite` allows. -/
def State.generateChirp (s : State) : Except Refusal State :=
  if ¬s.cfg.Legal then .error .badParameters
  else if s.phase ≠ .boot then .error .immutableAfterBoot
  else .ok { s with cs := (generate s.cfg s.mem).1, mem := (generate s.cfg s.mem).2 }

/-- CS_GENERATE (R128). -/
def execCsGenerate (s : State) : Result := answer s.generateChirp

end Sys2Proof.Machine
end

