-- ==== Sys2Proof/Machine/Boot.lean ====
section
/-! DEFINITION. `BOOT` (70_reset_and_hazards.md R304). -/

namespace Sys2Proof.Machine

open Sys2Proof

/-- The descriptor boot writes for a channel (R98, R304 line 2): valid, notify and suspend, 16-bit elements, successor itself. -/
def bootDescriptor (p : Params) (c : Chan) : Descriptor :=
  match c with
  | .emit =>
    { valid := true, blockAct := 3, elemSize := 1, srcInc := true, dstInc := false, reserved := 0
      count := BitVec.ofNat 16 p.nChirp
      src := BitVec.ofNat 32 p.chirpBase, dst := BitVec.ofNat 32 p.dacData, next := descAddr p c }
  | .cap0 =>
    { valid := true, blockAct := 3, elemSize := 1, srcInc := false, dstInc := true, reserved := 0
      count := BitVec.ofNat 16 p.nCap
      src := BitVec.ofNat 32 p.adc0Result, dst := BitVec.ofNat 32 p.cap0Base, next := descAddr p c }
  | .cap1 =>
    { valid := true, blockAct := 3, elemSize := 1, srcInc := false, dstInc := true, reserved := 0
      count := BitVec.ofNat 16 p.nCap
      src := BitVec.ofNat 32 p.adc1Result, dst := BitVec.ofNat 32 p.cap1Base, next := descAddr p c }

/-- The priority parameter of a channel (R163). -/
def bootPrio (p : Params) : Chan → BitVec 2
  | .emit => BitVec.ofNat 2 p.prioEmit
  | .cap0 => BitVec.ofNat 2 p.prioCap0
  | .cap1 => BitVec.ofNat 2 p.prioCap1

/-- The trigger source boot gives a channel: its number plus 1 (R163). -/
def bootTrigSrc (c : Chan) : BitVec 2 := c.code + 1

/-- Line 3 of R304 for one channel: configure, arm, enable, suspend. -/
def State.bootChannel (s : State) (c : Chan) : Except Refusal State := do
  let s1 ← s.teConfigure c (bootPrio s.cfg c) (bootTrigSrc c) 0
  let s2 ← s1.teArm c (descAddr s.cfg c)
  let s3 ← s2.teEnable c
  pure (s3.teSuspend c)

/-- Lines 1 to 6 of R304. -/
def State.bootUnits (s : State) : Except Refusal State := do
  let s1 ← s.generateChirp
  let s2 ← s1.placeDescriptor .emit (bootDescriptor s.cfg .emit)
  let s3 ← s2.placeDescriptor .cap0 (bootDescriptor s.cfg .cap0)
  let s4 ← s3.placeDescriptor .cap1 (bootDescriptor s.cfg .cap1)
  let s5 ← s4.bootChannel .emit
  let s6 ← s5.bootChannel .cap0
  let s7 ← s6.bootChannel .cap1
  let s8 ← s7.ctConfigure (BitVec.ofNat 16 s.cfg.carrierPeriod) (BitVec.ofNat 16 s.cfg.carrierDuty)
    (BitVec.ofNat 16 s.cfg.carrierIndDuty)
  let s9 ← s8.ctEnable
  s9.gtConfigure (BitVec.ofNat 32 s.cfg.guardPeriod) (BitVec.ofNat 32 s.cfg.guardCompare)

/-- BOOT (R304): once, after reset; the main loop begins with HL_POLL. -/
def execBoot (s : State) : Result :=
  if s.phase ≠ .boot then .refused (.notEnabled "BOOT")
  else if ¬s.cfg.Legal then .refused .badParameters
  else
    match s.bootUnits with
    | .error e => .refused e
    | .ok t => .next { t with phase := .poll }

end Sys2Proof.Machine
end

