-- ==== Sys2Proof/Machine/Bridge.lean ====
section
/-! DEFINITION. The interrupt bridge (60_exceptions.md): four handlers over the shared `State.handle`, the optional fifth, and the
alternate edge. -/

namespace Sys2Proof.Machine

open Sys2Proof

/-- H_EMIT_DONE (R264). -/
def execHEmitDone (s : State) : Result := answer (s.handle .emitDone .emitStop "H_EMIT_DONE")

/-- H_GUARD_OVF (R265). -/
def execHGuardOvf (s : State) : Result := answer (s.handle .guardOvf .waitStop "H_GUARD_OVF")

/-- H_CAP0_DONE (R266). -/
def execHCap0Done (s : State) : Result := answer (s.handle .cap0Done .cap0Done "H_CAP0_DONE")

/-- H_CAP1_DONE (R267). -/
def execHCap1Done (s : State) : Result := answer (s.handle .cap1Done .cap1Done "H_CAP1_DONE")

/-- Lines 2 and 3 of R268: count the occurrence; the arming one sets EMIT_START and starts the count again. -/
def State.countEdge (s : State) : State :=
  let n := altUp s.altCount
  if n.toNat = s.cfg.altArmCount then { s.setFlag .emitStart with altCount := 0 } else { s with altCount := n }

/-- H_ALT_TRIG (R268): "Exists only when ALT_TRIGGER_ENABLE is true"; it reads neither ACQ_STATE nor JOB_IND. An edge raised before BOOT (R52)
waits for it: the handler is declined until BOOT has run (R50, log 34). -/
def execHAltTrig (s : State) : Result :=
  if s.cfg.altEnable && s.mayHandle .altEdge then .next (s.ack .altEdge).countEdge
  else .refused (.notEnabled "H_ALT_TRIG")

/-- ENV_ALT_EDGE (R52): raises EV_ALT_EDGE if ALT_TRIGGER_ENABLE, no effect otherwise. -/
def execEnvAltEdge (s : State) : Result := if s.cfg.altEnable then .next (s.signal .altEdge) else .next s

end Sys2Proof.Machine
end

