-- ==== Sys2Proof/Machine/Dispatch.lean ====
section
/-! DEFINITION. One arm per operation. -/

namespace Sys2Proof.Machine

open Sys2Proof

def exec (i : Instr) (s : State) : Host.Outcome State Fault Refusal :=
  match i with
  | .startJob => Sys2Proof.Machine.execStartJob s
  | .ampEnable => Sys2Proof.Machine.execAmpEnable s
  | .ampDisable => Sys2Proof.Machine.execAmpDisable s
  | .rsvdLow low => Sys2Proof.Machine.execRsvdLow low s
  | .ignored b => Sys2Proof.Machine.execIgnored b s
  | .tIdleEmit => Sys2Proof.Machine.execTIdleEmit s
  | .tEmitWait => Sys2Proof.Machine.execTEmitWait s
  | .tWaitListen => Sys2Proof.Machine.execTWaitListen s
  | .tListenIdle => Sys2Proof.Machine.execTListenIdle s
  | .tNone v => Sys2Proof.Machine.execTNone v s
  | .hEmitDone => Sys2Proof.Machine.execHEmitDone s
  | .hGuardOvf => Sys2Proof.Machine.execHGuardOvf s
  | .hCap0Done => Sys2Proof.Machine.execHCap0Done s
  | .hCap1Done => Sys2Proof.Machine.execHCap1Done s
  | .hAltTrig => Sys2Proof.Machine.execHAltTrig s
  | .csGenerate => Sys2Proof.Machine.execCsGenerate s
  | .teConfigure c prio trigsrc burst => Sys2Proof.Machine.execTeConfigure c prio trigsrc burst s
  | .teArm c descAddr => Sys2Proof.Machine.execTeArm c descAddr s
  | .teEnable c => Sys2Proof.Machine.execTeEnable c s
  | .teSuspend c => Sys2Proof.Machine.execTeSuspend c s
  | .teResume c => Sys2Proof.Machine.execTeResume c s
  | .teDisable c => Sys2Proof.Machine.execTeDisable c s
  | .ctConfigure period duty indDuty => Sys2Proof.Machine.execCtConfigure period duty indDuty s
  | .ctEnable => Sys2Proof.Machine.execCtEnable s
  | .gtConfigure period compare => Sys2Proof.Machine.execGtConfigure period compare s
  | .gtRetrigger => Sys2Proof.Machine.execGtRetrigger s
  | .descriptor slot d => Sys2Proof.Machine.execDescriptor slot d s
  | .sample v => Sys2Proof.Machine.execSample v s
  | .hlPoll => Sys2Proof.Machine.execHlPoll s
  | .asEval => Sys2Proof.Machine.execAsEval s
  | .hlDrain => Sys2Proof.Machine.execHlDrain s
  | .teBeat c draw => Sys2Proof.Machine.execTeBeat c draw s
  | .ctTick => Sys2Proof.Machine.execCtTick s
  | .gtTick => Sys2Proof.Machine.execGtTick s
  | .boot => Sys2Proof.Machine.execBoot s
  | .envHostSend b => Sys2Proof.Machine.execEnvHostSend b s
  | .envTrigger c => Sys2Proof.Machine.execEnvTrigger c s
  | .envAltEdge => Sys2Proof.Machine.execEnvAltEdge s

end Sys2Proof.Machine
end

