-- ==== Sys2Proof/Machine/Fetch.lean ====
section
/-! DEFINITION. Which step comes next (10_state.md R50, R51; 00_scope.md R13) and how a table word is placed there. -/

namespace Sys2Proof.Machine

open Sys2Proof

/-- The step the sequencer takes when the script chooses none: BOOT after reset, then the main loop's halves in turn, which are
"always (after boot)" enabled (R50, R51; log 2). -/
def LoopPhase.instr : LoopPhase → Instr
  | .boot => .boot
  | .poll => .hlPoll
  | .eval => .asEval

/-- The next step and the state it runs in: the first line of the script, taken off it, or the sequencer's own. -/
def State.fetch (s : State) : Except DecodeError Instr × State :=
  match s.script with
  | [] => (.ok s.phase.instr, s)
  | x :: rest => (decode x, { s with script := rest })

/-- Set what a transition word or an event word is read from (log 3): a format T word IS `{FLAGS, ACQ_STATE}` (R101), a format E word is EVT_PENDING
(R102), which is served only once BOOT has run (log 34). Other formats are read from nowhere else. -/
def State.present (s : State) (f : Format) (w : Nat) : State :=
  match f with
  | .t => { s with flags := BitVec.ofNat 5 (w / 4), acqState := AcqState.ofCode (BitVec.ofNat 2 w) }
  | .e => { s with evtPending := BitVec.ofNat 5 w, phase := if s.phase = .boot then .poll else s.phase }
  | _ => s

/-- Put a table word where the next step is fetched. A width that names no format leaves a line no decoder reads. -/
def State.place (s : State) (nbits w : Nat) : State :=
  match tableCode nbits w with
  | none => { s with script := ⟨.h, []⟩ :: s.script }
  | some x => { s.present x.format (w % 2 ^ nbits) with script := x :: s.script }

end Sys2Proof.Machine
end

