-- ==== Sys2Proof/Machine/Step.lean ====
section
/-! DEFINITION. One step of the block: fetch, decode, execute. -/

namespace Sys2Proof.Machine

open Sys2Proof

/-- Take the next step (R13): the code fetched decodes to an operation, which runs; a code that is none is declined. -/
def step (s : State) : Host.Outcome State Fault Refusal :=
  match s.fetch.1 with
  | .ok i => exec i s.fetch.2
  | .error e => .refused (.undecodable e)

/-- `s` with the operation of a table word as its next step (log 3). -/
def State.withFetchWord (s : State) (nbits w : Nat) : State := s.place nbits w

end Sys2Proof.Machine
end

