-- ==== Sys2Proof/Safety.lean ====
section
/-! DEFINITION. What the claims are stated in: which steps are enabled (10_state.md R50), what the environment observes (R53), the
quiescent states (70_reset_and_hazards.md R320), and `State.Proper`, the invariant of every run from a proper boot with the
alternate trigger off (44_acq_fsm.md R224, with 41_transfer_engine.md R165 and the rules named beside each clause). -/

namespace Sys2Proof.Machine

open Sys2Proof

/-! ### Enabled steps (R50) -/

/-- R50's column "Enabled when": exactly where `exec` does not decline the step as `notEnabled`. BOOT comes "before any other step" but the
environment's, which are enabled always (R50, R52): the handlers test for it, since the environment can raise a line before BOOT; a beat and
the ticks need no test, since until BOOT no channel is ACTIVE and CT_EN and GT_RUN are 0 (R300; `State.enabled_beforeBoot` of Laws/Enabled.lean;
log 34). An operation that R50 says is not a step of its own (the outcomes of a host byte, the transitions, the control operations, a record, a
sample, the drain) is enabled nowhere (log 5). -/
def State.enabled (s : State) : Instr → Bool
  | .boot => s.phase = .boot
  | .hlPoll => s.phase = .poll
  | .asEval => s.phase = .eval
  | .hEmitDone => s.mayHandle .emitDone
  | .hGuardOvf => s.mayHandle .guardOvf
  | .hCap0Done => s.mayHandle .cap0Done
  | .hCap1Done => s.mayHandle .cap1Done
  | .hAltTrig => s.cfg.altEnable && s.mayHandle .altEdge
  | .teBeat c _ => s.grant = some c
  | .ctTick => s.ct.en
  | .gtTick => s.gt.run
  | .envHostSend _ => true
  | .envTrigger _ => true
  | .envAltEdge => true
  | .startJob => false
  | .ampEnable => false
  | .ampDisable => false
  | .rsvdLow _ => false
  | .ignored _ => false
  | .tIdleEmit => false
  | .tEmitWait => false
  | .tWaitListen => false
  | .tListenIdle => false
  | .tNone _ => false
  | .csGenerate => false
  | .teConfigure _ _ _ _ => false
  | .teArm _ _ => false
  | .teEnable _ => false
  | .teSuspend _ => false
  | .teResume _ => false
  | .teDisable _ => false
  | .ctConfigure _ _ _ => false
  | .ctEnable => false
  | .gtConfigure _ _ => false
  | .gtRetrigger => false
  | .descriptor _ _ => false
  | .sample _ => false
  | .hlDrain => false

/-- The operation `step` fetches next is one that R50 enables: the next line of a legal script (R104). -/
def State.StepEnabled (s : State) : Prop := ∃ i, s.fetch.1 = .ok i ∧ s.fetch.2.enabled i = true

/-! ### Codes -/

/-- The code of a control operation is in format K, with operation `op` in K[5:2] and `c` in K[1:0] (30_encoding.md R100). -/
def HasOp (i : Instr) (op : BitVec 4) (c : BitVec 2) : Prop :=
  (encode i).format = .k ∧ (encode i).bytes.head? = some ((op ++ c).setWidth 8)

/-! ### Sequences of operations (R104, R105) -/

/-- The operations of a list in order, up to the first that does not answer a next state. -/
def runAll : List Instr → State → Result
  | [], s => .next s
  | i :: rest, s =>
    match exec i s with
    | .next t => runAll rest t
    | .fault f => .fault f
    | .refused r => .refused r

/-- `FEED c v` of R105: the trigger, then the beat. -/
def feed (c : Chan) (v : Half) : List Instr := [.envTrigger c, .teBeat c v]

/-! ### What the environment observes (R53) -/

/-- The observations of R53. -/
structure Observation where
  txs      : List Byte
  ampEn    : Bool
  jobInd   : Bool
  dacTrace : List Half
  carrP    : Bool
  carrN    : Bool
  carrInd  : Bool
  aux      : Bool
deriving DecidableEq, Repr

/-- What the environment sees of a state (R53). -/
def State.observe (s : State) : Observation where
  txs := s.txs
  ampEn := s.ampEn
  jobInd := s.jobInd
  dacTrace := s.dacTrace
  carrP := s.carrP
  carrN := s.carrN
  carrInd := s.carrInd
  aux := s.gt.aux

/-- A quiescent state (R320). -/
def State.Quiescent (s : State) : Prop := s.acqState = .idle ∧ s.flags = 0 ∧ s.evtPending = 0 ∧ s.rxq = []

/-! ### The proper states (R224) -/

/-- COUNT of the descriptor boot gives a channel (R163). -/
def blockCount (p : Params) : Chan → Nat
  | .emit => p.nChirp
  | .cap0 => p.nCap
  | .cap1 => p.nCap

/-- A working address after `k` elements of two bytes: post-increment or fixed (R160). -/
def workAddr (inc : Bool) (base k : Nat) : Word := BitVec.ofNat 32 (if inc then base + 2 * k else base)

/-- The registers of a channel between boot and the end of time: as boot configured it, part way through its block (R163, R165). -/
structure ChanRegs.Booted (p : Params) (c : Chan) (r : ChanRegs) : Prop where
  prio : r.prio = bootPrio p c
  trigSrc : r.trigSrc = bootTrigSrc c
  burst : r.burst = 0
  descPtr : r.descPtr = descAddr p c
  ctrl : r.wCtrl = (bootDescriptor p c).ctrl
  next : r.wNext = descAddr p c
  count : 1 ≤ r.wCnt.toNat ∧ r.wCnt.toNat ≤ blockCount p c
  src : r.wSrc = workAddr (bootDescriptor p c).srcInc (bootDescriptor p c).src.toNat (blockCount p c - r.wCnt.toNat)
  dst : r.wDst = workAddr (bootDescriptor p c).dstInc (bootDescriptor p c).dst.toNat (blockCount p c - r.wCnt.toNat)
  trig : r.trig = true → r.state = .active
  suspended : r.state = .suspended → r.wCnt.toNat = blockCount p c

/-! ### The state after BOOT (R305) -/

/-- `CTRL_c` of R304: `N_CHIRP << 16 | 0x2F` for the emission channel, `N_CAP << 16 | 0x4F` for the capture channels. -/
def bootCtrl (p : Params) : Chan → Word
  | .emit => BitVec.ofNat 32 (p.nChirp * 2 ^ 16 + 0x2F)
  | .cap0 => BitVec.ofNat 32 (p.nCap * 2 ^ 16 + 0x4F)
  | .cap1 => BitVec.ofNat 32 (p.nCap * 2 ^ 16 + 0x4F)

/-- `SRC_c` of R304. -/
def bootSrc (p : Params) : Chan → Nat
  | .emit => p.chirpBase
  | .cap0 => p.adc0Result
  | .cap1 => p.adc1Result

/-- `DST_c` of R304. -/
def bootDst (p : Params) : Chan → Nat
  | .emit => p.dacData
  | .cap0 => p.cap0Base
  | .cap1 => p.cap1Base

/-- The registers of channel `c` after BOOT (R163, R305). -/
def bootedChan (p : Params) (c : Chan) : ChanRegs where
  prio := bootPrio p c
  trigSrc := c.code + 1
  burst := 0
  state := .suspended
  descPtr := BitVec.ofNat 32 (p.descBase + 16 * c.code.toNat)
  wCtrl := bootCtrl p c
  wSrc := BitVec.ofNat 32 (bootSrc p c)
  wDst := BitVec.ofNat 32 (bootDst p c)
  wCnt := BitVec.ofNat 16 (blockCount p c)
  wNext := BitVec.ofNat 32 (p.descBase + 16 * c.code.toNat)
  trig := false

/-- The four words of a record, stored low address first (R96). -/
def Memory.storeRecord (m : Memory) (a : Nat) (ctrl src dst next : Word) : Memory :=
  Memory.writeLE (Memory.writeLE (Memory.writeLE (Memory.writeLE m a .b4 ctrl) (a + 4) .b4 src) (a + 8) .b4 dst) (a + 12) .b4 next

/-- The record of channel `c`, stored where R39 puts it. -/
def Memory.storeBootRecord (p : Params) (m : Memory) (c : Chan) : Memory :=
  let a := p.descBase + 16 * c.code.toNat
  Memory.storeRecord m a (bootCtrl p c) (BitVec.ofNat 32 (bootSrc p c)) (BitVec.ofNat 32 (bootDst p c)) (BitVec.ofNat 32 a)

/-- The three records, stored in order over a memory (R304 line 2). -/
def bootMemory (p : Params) (m : Memory) : Memory :=
  Memory.storeBootRecord p (Memory.storeBootRecord p (Memory.storeBootRecord p m .emit) .cap0) .cap1

/-- The state after BOOT, from which every run of the main loop starts (R305), for any parameters. -/
def State.afterBoot (p : Params) : State :=
  { State.resetWith p with
    phase := .poll
    cs := (generate p []).1
    ch0 := bootedChan p .emit
    ch1 := bootedChan p .cap0
    ch2 := bootedChan p .cap1
    ct :=
      { en := true, cnt := 0, per := BitVec.ofNat 16 p.carrierPeriod, duty := BitVec.ofNat 16 p.carrierDuty
        indDuty := BitVec.ofNat 16 p.carrierIndDuty }
    gt := { run := false, cnt := 0, per := BitVec.ofNat 32 p.guardPeriod, cmp := BitVec.ofNat 32 p.guardCompare, aux := false }
    mem := bootMemory p (generate p []).2 }

/-- The record of channel `c` in DESC is the one boot wrote (R68, R79). -/
def State.HoldsDescriptor (s : State) (c : Chan) : Prop :=
  let a := (descAddr s.cfg c).toNat
  let d := bootDescriptor s.cfg c
  s.mem.readLE a .b4 = d.ctrl ∧ s.mem.readLE (a + 4) .b4 = d.src ∧ s.mem.readLE (a + 8) .b4 = d.dst ∧
    s.mem.readLE (a + 12) .b4 = d.next

/-- The carrier runs as boot configured it and its counter is inside the period (R32, R304). -/
structure State.CarrierRuns (s : State) : Prop where
  en : s.ct.en = true
  per : s.ct.per.toNat = s.cfg.carrierPeriod
  duty : s.ct.duty.toNat = s.cfg.carrierDuty
  ind : s.ct.indDuty.toNat = s.cfg.carrierIndDuty
  cnt : s.ct.cnt.toNat < s.ct.per.toNat

/-- The guard timer as boot configured it; while it runs the count is inside the period and the auxiliary output is 1 from the compare
event on; while it is stopped both are 0 (R36, R204, R205). -/
structure State.GuardSet (s : State) : Prop where
  per : s.gt.per.toNat = s.cfg.guardPeriod
  cmp : s.gt.cmp.toNat = s.cfg.guardCompare
  running : s.gt.run = true → 1 ≤ s.gt.cnt.toNat ∧ s.gt.cnt.toNat ≤ s.gt.per.toNat
  aux : s.gt.run = true → s.gt.aux = decide (s.gt.cmp ≠ 0 ∧ s.gt.cmp.toNat + s.gt.cnt.toNat ≤ s.gt.per.toNat)
  stopped : s.gt.run = false → s.gt.cnt = 0 ∧ s.gt.aux = false

/-- A channel between its resume and the consumption of its flag: ACTIVE with neither its event pending nor its flag set, or SUSPENDED with
exactly one of the two (R224). -/
def State.InFlight (s : State) (c : Chan) (f : Flag) : Prop :=
  ((s.chan c).state = .active ∧ s.pending (completionEvent c) = false ∧ s.flag f = false) ∨
  ((s.chan c).state = .suspended ∧ s.pending (completionEvent c) = !s.flag f)

/-- The guard interval: running with neither its event pending nor its flag set, or stopped with exactly one of the two (R224). -/
def State.InGuard (s : State) : Prop :=
  (s.gt.run = true ∧ s.pending .guardOvf = false ∧ s.flag .waitStop = false) ∨
  (s.gt.run = false ∧ s.pending .guardOvf = !s.flag .waitStop)

/-- The row of R224's table for the state's ACQ_STATE. -/
def State.Row (s : State) : Prop :=
  match s.acqState with
  | .idle =>
    (∀ c, (s.chan c).state = .suspended) ∧ s.gt.run = false ∧ s.flags &&& ~~~Flag.mask .emitStart = 0 ∧ s.evtPending = 0
  | .emit =>
    s.InFlight .emit .emitStop ∧ s.ch1.state = .suspended ∧ s.ch2.state = .suspended ∧ s.gt.run = false ∧
      s.flags &&& ~~~Flag.mask .emitStop = 0 ∧ s.evtPending &&& ~~~Event.mask .emitDone = 0
  | .wait =>
    (∀ c, (s.chan c).state = .suspended) ∧ s.InGuard ∧ s.flags &&& ~~~Flag.mask .waitStop = 0 ∧
      s.evtPending &&& ~~~Event.mask .guardOvf = 0
  | .listen =>
    s.ch0.state = .suspended ∧ s.InFlight .cap0 .cap0Done ∧ s.InFlight .cap1 .cap1Done ∧ s.gt.run = false ∧
      s.flags &&& ~~~(Flag.mask .cap0Done ||| Flag.mask .cap1Done) = 0 ∧
      s.evtPending &&& ~~~(Event.mask .cap0Done ||| Event.mask .cap1Done) = 0

/-- The states between two steps of a run from a proper boot, the alternate trigger off. -/
structure State.Proper (s : State) : Prop where
  legal : s.cfg.Legal                                                    -- R304 line 0
  altOff : s.cfg.altEnable = false                                       -- R224
  altCount : s.altCount = 0                                              -- R38
  booted : s.phase ≠ .boot                                               -- R50
  mem : Memory.Wf s.mem
  desc : ∀ c, s.HoldsDescriptor c                                        -- R68
  chan : ∀ c, ChanRegs.Booted s.cfg c (s.chan c)                         -- R165
  carrier : s.CarrierRuns                                                -- R32
  guardTimer : s.GuardSet                                                -- R36, R205
  row : s.Row                                                            -- R224
  polled : s.phase = .poll → s.acqState = .idle → s.flags = 0            -- R242(a)
  jobInd : s.jobInd = (s.acqState ≠ .idle || s.flag .emitStart)          -- R251
  txs : 4 * s.cfg.nCap ∣ s.txs.length                                    -- R250

/-! ### Runs and fairness (R13, R318) -/

/-- An infinite run: at each place one step that R50 enables is taken. The order of the steps is any (R13), so it is the run's own and not read
from a script. -/
structure Run where
  state : Nat → State
  op : Nat → Instr
  enabled : ∀ n, (state n).enabled (op n) = true
  next : ∀ n, exec (op n) (state n) = .next (state (n + 1))

/-- The handlers of the bridge (R264 to R268). -/
def isHandler : Instr → Bool
  | .hEmitDone => true
  | .hGuardOvf => true
  | .hCap0Done => true
  | .hCap1Done => true
  | .hAltTrig => true
  | _ => false

/-- A beat of channel `c`, whatever it draws. -/
def isBeat (c : Chan) : Instr → Bool
  | .teBeat d _ => d = c
  | _ => false

/-- `FAIR_LOOP`: the main loop takes infinitely many iterations. -/
def Run.FairLoop (r : Run) : Prop :=
  ∀ n, (∃ m, n ≤ m ∧ r.op m = .hlPoll) ∧ ∃ m, n ≤ m ∧ r.op m = .asEval

/-- `FAIR_HANDLER`: a handler that is enabled is taken after finitely many steps. -/
def Run.FairHandler (r : Run) : Prop :=
  ∀ n i, isHandler i = true → (r.state n).enabled i = true → ∃ m, n ≤ m ∧ r.op m = i

/-- `FAIR_TRIG(c)`: while channel `c` is ACTIVE with no trigger pending, its trigger occurs after finitely many steps (or that ends). -/
def Run.FairTrig (r : Run) (c : Chan) : Prop :=
  ∀ n, ∃ m, n ≤ m ∧
    (r.op m = .envTrigger c ∨ ¬(((r.state m).chan c).state = .active ∧ ((r.state m).chan c).trig = false))

/-- `FAIR_BEAT`: an enabled beat is taken after finitely many steps. -/
def Run.FairBeat (r : Run) : Prop :=
  ∀ n c, (r.state n).grant = some c → ∃ m, n ≤ m ∧ isBeat c (r.op m) = true

/-- `FAIR_GT`: while the guard timer runs it ticks after finitely many steps (or it stops). -/
def Run.FairGuard (r : Run) : Prop :=
  ∀ n, ∃ m, n ≤ m ∧ (r.op m = .gtTick ∨ (r.state m).gt.run = false)

/-- All five assumptions of R318. -/
structure Run.Fair (r : Run) : Prop where
  loop : r.FairLoop
  handler : r.FairHandler
  trig : ∀ c, r.FairTrig c
  beat : r.FairBeat
  guard : r.FairGuard

/-- A start-job is accepted at place `n`: the poll takes byte 0x10 while Idle (R242). -/
def Run.Accepts (r : Run) (n : Nat) : Prop :=
  r.op n = .hlPoll ∧ (r.state n).acqState = .idle ∧ (r.state n).rxq.head? = some 0x10

/-- How many of the steps at the places from `m` up to, but not including, `n` are of a kind. -/
def Run.count (r : Run) (kind : Instr → Bool) (m n : Nat) : Nat := (List.range' m (n - m)).countP fun k => kind (r.op k)

/-- The steps of a kind between places `n` and `e` are `total` in number, and all of them lie between `m` and `k`. -/
def Run.AllWithin (r : Run) (kind : Instr → Bool) (total n m k e : Nat) : Prop :=
  r.count kind n e = total ∧ r.count kind m k = total

/-- The job that starts at place `n` ends (R318, R319): `a`, `b`, `c`, `d` are the places of its four transitions; between the first two lie all its
beats of channel 0, `N_CHIRP` of them, between the next two all its guard ticks, `GUARD_PERIOD` of them, between the last two all its capture beats,
`N_CAP` of each channel; and only the last sends, `4*N_CAP` bytes. -/
def Run.CompletesJob (r : Run) (n : Nat) : Prop :=
  ∃ a b c d, n < a ∧ a < b ∧ b < c ∧ c < d ∧
    (∀ k, n ≤ k → k ≤ a → (r.state k).acqState = .idle) ∧ (∀ k, a < k → k ≤ b → (r.state k).acqState = .emit) ∧
    (∀ k, b < k → k ≤ c → (r.state k).acqState = .wait) ∧ (∀ k, c < k → k ≤ d → (r.state k).acqState = .listen) ∧
    (r.state (d + 1)).acqState = .idle ∧
    r.AllWithin (isBeat .emit) (r.state n).cfg.nChirp n a b (d + 1) ∧
    r.AllWithin (fun i => i = .gtTick) (r.state n).cfg.guardPeriod n b c (d + 1) ∧
    r.AllWithin (isBeat .cap0) (r.state n).cfg.nCap n c d (d + 1) ∧
    r.AllWithin (isBeat .cap1) (r.state n).cfg.nCap n c d (d + 1) ∧
    (∀ k, n ≤ k → k ≤ d → (r.state k).txs = (r.state n).txs) ∧
    ∃ sent, (r.state (d + 1)).txs = (r.state n).txs ++ sent ∧ sent.length = 4 * (r.state n).cfg.nCap

/-- The progress that R318 claims of a run under its assumptions. -/
def Run.Progress (r : Run) : Prop := ∀ n, r.Accepts n → r.CompletesJob n

end Sys2Proof.Machine
end

