-- ==== Sys2Proof/Certificates/Slice0/Obligations.lean ====
section
/-! DEFINITION. The statements for the provers. Each docstring names the rule of spec/ it formalises; where it rests on a choice of the
model it says so and names the log entry. Flags and event lines are read as bits, numbered as R22 and R37 number them. -/

open Sys2Proof Sys2Proof.Machine

/-! ### Encoding -/

/-- 30_encoding.md R90 to R103: every operation whose operands its row can carry is read back from its own code, every operand at every value.
(The layout of operands beside a code, and the numbers of the steps of R103, are the model's: log 6, 8, 9.) -/
def Obligations.DecodeOfEncode : Prop :=
  ∀ i : Instr, i.encodable = true → decode (encode i) = .ok i

/-- R90: outside format T, whose rows have "don't care" bits (R101), a code that decodes is the code of its operation, so no two codes mean the
same operation and no bit of a code is dropped. Part of what a code holds is the model's: the byte of format D that numbers the record (log 6), the
operand bytes of format K (log 8) and the whole of format N (log 9); of those the statement says it of the model's own layout. -/
def Obligations.EncodeOfDecode : Prop :=
  ∀ (x : Code) (i : Instr), x.format ≠ .t → decode x = .ok i → encode i = x

/-- R92, R93: the host opcode map, byte by byte; no host byte is illegal. -/
def Obligations.HostOpcodeMap : Prop :=
  ∀ b : Byte, decode ⟨.h, [b]⟩ = .ok (decodeByte b) ∧
    (decodeByte b = .startJob ↔ b.toNat = 0x10) ∧ (decodeByte b = .ampEnable ↔ b.toNat = 0xFE) ∧
    (decodeByte b = .ampDisable ↔ b.toNat = 0xFF) ∧
    (decodeByte b = .rsvdLow (b.extractLsb' 0 4) ↔ b.toNat ≤ 0x0F) ∧
    (decodeByte b = .ignored b ↔ 0x11 ≤ b.toNat ∧ b.toNat ≤ 0xFD)

/-- A few words written out from the spec's encodings decode to their operations: R92, R101, R102, R100, R94, and the bytes of DESC[0]
that R98 lists. -/
def Obligations.WrittenWordsDecode : Prop :=
  decode ⟨.h, [0x10]⟩ = .ok .startJob ∧
  decode ⟨.t, [0b0001001]⟩ = .ok .tEmitWait ∧
  decode ⟨.e, [0b00100]⟩ = .ok .hCap0Done ∧
  decode ⟨.k, [0b010010, 0, 0, 0, 0, 0, 0, 0, 0]⟩ = .ok (.teEnable .cap1) ∧
  decode ⟨.s, [0xBC, 0x0A]⟩ = .ok (.sample 0x0ABC) ∧
  decode ⟨.d, [0x2F, 0x00, 0x00, 0x10, 0x00, 0x00, 0x00, 0x20, 0x00, 0x00, 0x00, 0x40, 0x00, 0xB0, 0x01, 0x20, 0x00]⟩ =
    .ok (.descriptor .emit
      { valid := true, blockAct := 3, elemSize := 1, srcInc := true, dstInc := false, reserved := 0, count := 4096
        src := 0x20000000, dst := 0x40000000, next := 0x2001B000 })

/-- R13, R104: a step takes the first line of the script off it and runs the operation it decodes to; a line that is no operation is declined;
with no line left the sequencer's own step is due, BOOT or the halves of the main loop in turn (R50, R51; the script is the model's,
log 2). -/
def Obligations.StepRunsDecoded : Prop :=
  (∀ (s : State) (x : Code) (rest : List Code) (i : Instr), s.script = x :: rest → decode x = .ok i →
    step s = exec i { s with script := rest }) ∧
  (∀ (s : State) (x : Code) (rest : List Code) (e : DecodeError), s.script = x :: rest → decode x = .error e →
    step s = .refused (.undecodable e)) ∧
  (∀ s : State, s.script = [] → s.phase = .boot → step s = exec .boot s) ∧
  (∀ s : State, s.script = [] → s.phase = .poll → step s = exec .hlPoll s) ∧
  (∀ s : State, s.script = [] → s.phase = .eval → step s = exec .asEval s)

/-! ### Host link (45_host_link.md) -/

/-- R242: START_JOB, host byte 0x10, sets EMIT_START and inverts JOB_IND in Idle and does nothing otherwise. -/
def Obligations.StartJob : Prop :=
  (∀ b : Byte, decode ⟨.h, [b]⟩ = .ok .startJob ↔ b = 0x10) ∧
  ∀ s : State, exec .startJob s =
    .next (if s.acqState = .idle then { s with flags := s.flags ||| 0b00001#5, jobInd := !s.jobInd } else s)

/-- R243, R244: the amplifier commands, host bytes 0xFE and 0xFF, write AMP_EN in any state and nothing else. -/
def Obligations.AmplifierCommands : Prop :=
  (∀ b : Byte, (decode ⟨.h, [b]⟩ = .ok .ampEnable ↔ b = 0xFE) ∧ (decode ⟨.h, [b]⟩ = .ok .ampDisable ↔ b = 0xFF)) ∧
  ∀ s : State, exec .ampEnable s = .next { s with ampEn := true } ∧ exec .ampDisable s = .next { s with ampEn := false }

/-- R245, R246: the outcome of a reserved or an ignored byte changes nothing (its removal from RXQ is the poll's, R241). -/
def Obligations.IgnoredOutcomes : Prop :=
  ∀ (s : State) (low : BitVec 4) (b : Byte), exec (.rsvdLow low) s = .next s ∧ exec (.ignored b) s = .next s

/-- R241: the poll takes the oldest byte, if there is one, and does what R242 to R246 say for it. That it is due only when the main loop is at its
first half, is declined otherwise, and leaves AS_EVAL due, is read from R50 and R51 into the model's field `phase` (log 14, 35). -/
def Obligations.HostPoll : Prop :=
  (∀ s : State, s.phase = .poll → s.rxq = [] → exec .hlPoll s = .next { s with phase := .eval }) ∧
  (∀ (s u : State) (b : Byte) (rest : List Byte), s.phase = .poll → s.rxq = b :: rest →
    u = { s with phase := .eval, rxq := rest } →
    exec .hlPoll s =
      .next (if b.toNat = 0x10 then
          if s.acqState = .idle then { u with flags := s.flags ||| 0b00001#5, jobInd := !s.jobInd } else u
        else if b.toNat = 0xFE then { u with ampEn := true }
        else if b.toNat = 0xFF then { u with ampEn := false }
        else u)) ∧
  (∀ s : State, s.phase ≠ .poll → exec .hlPoll s = .refused (.notEnabled "HL_POLL"))

/-- R52: the host's byte goes to the end of RXQ; an edge on the alternate input sets EVT_PENDING bit 4 where ALT_TRIGGER_ENABLE is true (a set
bit stays set, R262) and does nothing where it is false. -/
def Obligations.EnvironmentInputs : Prop :=
  ∀ (s : State) (b : Byte), exec (.envHostSend b) s = .next { s with rxq := s.rxq ++ [b] } ∧
    exec .envAltEdge s =
      .next (if s.cfg.altEnable then { s with evtPending := s.evtPending ||| 0b10000#5 } else s)

/-- R94: a sample goes out low byte, then high byte, and the host's `first + 256 * second` is the sample. (That SAMPLE, taken by itself, appends
to TXS is the model's choice, log 7.) -/
def Obligations.SampleSent : Prop :=
  ∀ (s : State) (v : Half), ∃ first second : Byte,
    exec (.sample v) s = .next { s with txs := s.txs ++ [first, second] } ∧
    first = v.extractLsb' 0 8 ∧ second = v.extractLsb' 8 8 ∧ v.toNat = first.toNat + 256 * second.toNat

/-- R247: "the bytes sent are the bytes of `CAP0` then the bytes of `CAP1` in address order", 4*N_CAP of them, and nothing else
changes. -/
def Obligations.DrainPayload : Prop :=
  ∀ s : State, s.cfg.Legal → ∃ sent : List Byte,
    exec .hlDrain s = .next { s with txs := s.txs ++ sent } ∧ sent.length = 4 * s.cfg.nCap ∧
    sent = (List.range (2 * s.cfg.nCap)).map (fun k => Memory.read s.mem (s.cfg.cap0Base + k)) ++
      (List.range (2 * s.cfg.nCap)).map (fun k => Memory.read s.mem (s.cfg.cap1Base + k))

/-! ### The acquisition state machine (44_acq_fsm.md) -/

/-- R217: T_IDLE_EMIT, mask 0x07 match 0x04 of format T, clears EMIT_START, resumes channel 0 if it is SUSPENDED, and enters Emit. -/
def Obligations.IdleToEmit : Prop :=
  (∀ v : BitVec 7, decode ⟨.t, [v.setWidth 8]⟩ = .ok .tIdleEmit ↔ v &&& 0x07#7 = 0x04#7) ∧
  ∀ s : State, s.acqState = .idle → s.flags.getLsbD 0 = true →
    exec .tIdleEmit s =
      .next { s with
        flags := s.flags &&& 0b11110#5
        ch0 := { s.ch0 with state := if s.ch0.state = .suspended then .active else s.ch0.state }
        acqState := .emit }

/-- R218: T_EMIT_WAIT, mask 0x0B match 0x09, clears EMIT_STOP, retriggers the guard timer (R202) and enters Wait; before the timer is
configured the retrigger is declined. -/
def Obligations.EmitToWait : Prop :=
  (∀ v : BitVec 7, decode ⟨.t, [v.setWidth 8]⟩ = .ok .tEmitWait ↔ v &&& 0x0B#7 = 0x09#7) ∧
  ∀ s : State, s.acqState = .emit → s.flags.getLsbD 1 = true →
    (s.gt.per ≠ 0 → exec .tEmitWait s =
      .next { s with
        flags := s.flags &&& 0b11101#5
        gt := { s.gt with cnt := s.gt.per, run := true, aux := false }
        acqState := .wait }) ∧
    (s.gt.per = 0 → exec .tEmitWait s = .refused (.notConfigured "GT_RETRIGGER"))

/-- R219: T_WAIT_LISTEN, mask 0x13 match 0x12, clears WAIT_STOP, resumes channels 1 and 2, each if it is SUSPENDED, and enters Listen. -/
def Obligations.WaitToListen : Prop :=
  (∀ v : BitVec 7, decode ⟨.t, [v.setWidth 8]⟩ = .ok .tWaitListen ↔ v &&& 0x13#7 = 0x12#7) ∧
  ∀ s : State, s.acqState = .wait → s.flags.getLsbD 2 = true →
    exec .tWaitListen s =
      .next { s with
        flags := s.flags &&& 0b11011#5
        ch1 := { s.ch1 with state := if s.ch1.state = .suspended then .active else s.ch1.state }
        ch2 := { s.ch2 with state := if s.ch2.state = .suspended then .active else s.ch2.state }
        acqState := .listen }

/-- R220: T_LISTEN_IDLE, mask 0x63 match 0x63, needs both capture flags; it clears them, sends the bytes of both buffers in order (R247),
inverts JOB_IND and enters Idle. -/
def Obligations.ListenToIdle : Prop :=
  (∀ v : BitVec 7, decode ⟨.t, [v.setWidth 8]⟩ = .ok .tListenIdle ↔ v &&& 0x63#7 = 0x63#7) ∧
  ∀ s : State, s.cfg.Legal → s.acqState = .listen → s.flags.getLsbD 3 = true → s.flags.getLsbD 4 = true →
    exec .tListenIdle s =
      .next { s with
        flags := s.flags &&& 0b00111#5
        txs := s.txs ++ ((List.range (2 * s.cfg.nCap)).map (fun k => Memory.read s.mem (s.cfg.cap0Base + k)) ++
          (List.range (2 * s.cfg.nCap)).map (fun k => Memory.read s.mem (s.cfg.cap1Base + k)))
        jobInd := !s.jobInd
        acqState := .idle }

/-- R221: T_NONE is the default row of format T, and where none of the four guards holds nothing changes; a flag foreign to the state
stays. -/
def Obligations.NoTransition : Prop :=
  (∀ v : BitVec 7, decode ⟨.t, [v.setWidth 8]⟩ = .ok (.tNone v) ↔
    ¬(v &&& 0x07#7 = 0x04#7 ∨ v &&& 0x0B#7 = 0x09#7 ∨ v &&& 0x13#7 = 0x12#7 ∨ v &&& 0x63#7 = 0x63#7)) ∧
  ∀ (s : State) (v : BitVec 7),
    ¬((s.acqState = .idle ∧ s.flags.getLsbD 0 = true) ∨ (s.acqState = .emit ∧ s.flags.getLsbD 1 = true) ∨
      (s.acqState = .wait ∧ s.flags.getLsbD 2 = true) ∨
      (s.acqState = .listen ∧ s.flags.getLsbD 3 = true ∧ s.flags.getLsbD 4 = true)) →
    exec (.tNone v) s = .next s

/-- The guards of R217 to R221 are the only states in which a transition, taken by itself, is taken: elsewhere it is declined, which is the
model's choice (log 28). -/
def Obligations.GuardsDecline : Prop :=
  ∀ s : State,
    (¬(s.acqState = .idle ∧ s.flags.getLsbD 0 = true) → exec .tIdleEmit s = .refused (.notEnabled "T_IDLE_EMIT")) ∧
    (¬(s.acqState = .emit ∧ s.flags.getLsbD 1 = true) → exec .tEmitWait s = .refused (.notEnabled "T_EMIT_WAIT")) ∧
    (¬(s.acqState = .wait ∧ s.flags.getLsbD 2 = true) → exec .tWaitListen s = .refused (.notEnabled "T_WAIT_LISTEN")) ∧
    (¬(s.acqState = .listen ∧ s.flags.getLsbD 3 = true ∧ s.flags.getLsbD 4 = true) →
      exec .tListenIdle s = .refused (.notEnabled "T_LISTEN_IDLE")) ∧
    (∀ v : BitVec 7, (s.acqState = .idle ∧ s.flags.getLsbD 0 = true) ∨ (s.acqState = .emit ∧ s.flags.getLsbD 1 = true) ∨
      (s.acqState = .wait ∧ s.flags.getLsbD 2 = true) ∨
      (s.acqState = .listen ∧ s.flags.getLsbD 3 = true ∧ s.flags.getLsbD 4 = true) →
      exec (.tNone v) s = .refused (.notEnabled "T_NONE"))

/-- R216: AS_EVAL selects by the masks of R101 on V = {FLAGS, ACQ_STATE} and runs that transition alone; with legal parameters and a
configured guard timer it completes. That HL_POLL is due next, and that AS_EVAL is declined when it is not due, is read from R50 and R51 into the
model's field `phase` (log 14, 35). -/
def Obligations.EvaluationSelects : Prop :=
  (∀ (s u : State) (v : BitVec 7), s.phase = .eval → u = { s with phase := .poll } →
    v = s.flags ++ (match s.acqState with | .idle => 0#2 | .emit => 1#2 | .wait => 2#2 | .listen => 3#2) →
    exec .asEval s =
      if v &&& 0x07#7 = 0x04#7 then exec .tIdleEmit u
      else if v &&& 0x0B#7 = 0x09#7 then exec .tEmitWait u
      else if v &&& 0x13#7 = 0x12#7 then exec .tWaitListen u
      else if v &&& 0x63#7 = 0x63#7 then exec .tListenIdle u
      else exec (.tNone v) u) ∧
  (∀ s : State, s.phase = .eval → s.cfg.Legal → s.gt.per ≠ 0 → ∃ t, exec .asEval s = .next t ∧ t.phase = .poll) ∧
  (∀ s : State, s.phase ≠ .eval → exec .asEval s = .refused (.notEnabled "AS_EVAL"))

/-- R225: whatever is taken, ACQ_STATE stays or moves one place along Idle, Emit, Wait, Listen, Idle; and only the state machine moves it
(R21: "Mutated exclusively by the main-loop state machine"). -/
def Obligations.StateSequence : Prop :=
  ∀ (i : Instr) (s t : State), exec i s = .next t → t.acqState ≠ s.acqState →
    ((s.acqState = .idle ∧ t.acqState = .emit) ∨ (s.acqState = .emit ∧ t.acqState = .wait) ∨
      (s.acqState = .wait ∧ t.acqState = .listen) ∨ (s.acqState = .listen ∧ t.acqState = .idle)) ∧
    (i = .asEval ∨ i = .tIdleEmit ∨ i = .tEmitWait ∨ i = .tWaitListen ∨ i = .tListenIdle)

/-- R23, R276: each flag is set by its one source (EMIT_START by the host decoder or H_ALT_TRIG) and cleared only by the state machine, in
the one transition that consumes it. -/
def Obligations.FlagOwnership : Prop :=
  ∀ (i : Instr) (s t : State), exec i s = .next t →
    (∀ k : Nat, s.flags.getLsbD k = false → t.flags.getLsbD k = true →
      (k = 0 ∧ (i = .startJob ∨ i = .hlPoll ∨ i = .hAltTrig)) ∨ (k = 1 ∧ i = .hEmitDone) ∨ (k = 2 ∧ i = .hGuardOvf) ∨
        (k = 3 ∧ i = .hCap0Done) ∨ (k = 4 ∧ i = .hCap1Done)) ∧
    (∀ k : Nat, s.flags.getLsbD k = true → t.flags.getLsbD k = false →
      (k = 0 ∧ s.acqState = .idle ∧ (i = .asEval ∨ i = .tIdleEmit)) ∨
        (k = 1 ∧ s.acqState = .emit ∧ (i = .asEval ∨ i = .tEmitWait)) ∨
        (k = 2 ∧ s.acqState = .wait ∧ (i = .asEval ∨ i = .tWaitListen)) ∨
        ((k = 3 ∨ k = 4) ∧ s.acqState = .listen ∧ (i = .asEval ∨ i = .tListenIdle)))

/-! ### The bridge (60_exceptions.md) -/

/-- R264 to R267: each handler has its bit of format E; one whose line is pending clears the line's latch and sets the line's flag, and
changes nothing else; it is declined while its line is not pending and before BOOT, which R50 puts before any other step (log 34, 35). -/
def Obligations.Handlers : Prop :=
  (decode ⟨.e, [0x01]⟩ = .ok .hEmitDone ∧ decode ⟨.e, [0x02]⟩ = .ok .hGuardOvf ∧ decode ⟨.e, [0x04]⟩ = .ok .hCap0Done ∧
    decode ⟨.e, [0x08]⟩ = .ok .hCap1Done) ∧
  ∀ s : State,
    (exec .hEmitDone s = if s.phase ≠ .boot ∧ s.evtPending.getLsbD 0 = true then
        .next { s with evtPending := s.evtPending &&& 0b11110#5, flags := s.flags ||| 0b00010#5 }
      else .refused (.notEnabled "H_EMIT_DONE")) ∧
    (exec .hGuardOvf s = if s.phase ≠ .boot ∧ s.evtPending.getLsbD 1 = true then
        .next { s with evtPending := s.evtPending &&& 0b11101#5, flags := s.flags ||| 0b00100#5 }
      else .refused (.notEnabled "H_GUARD_OVF")) ∧
    (exec .hCap0Done s = if s.phase ≠ .boot ∧ s.evtPending.getLsbD 2 = true then
        .next { s with evtPending := s.evtPending &&& 0b11011#5, flags := s.flags ||| 0b01000#5 }
      else .refused (.notEnabled "H_CAP0_DONE")) ∧
    (exec .hCap1Done s = if s.phase ≠ .boot ∧ s.evtPending.getLsbD 3 = true then
        .next { s with evtPending := s.evtPending &&& 0b10111#5, flags := s.flags ||| 0b10000#5 }
      else .refused (.notEnabled "H_CAP1_DONE"))

/-- R269: any two of the five handlers that are both enabled may be taken in either order, with the same state afterwards. -/
def Obligations.HandlersCommute : Prop :=
  ∀ (i j : Instr) (s : State),
    isHandler i = true → isHandler j = true → i ≠ j → s.enabled i = true → s.enabled j = true →
    ∃ t, runAll [i, j] s = .next t ∧ runAll [j, i] s = .next t

/-- R268: the optional fifth path: acknowledge, count the occurrence, and on occurrence ALT_TRIGGER_ARM_COUNT set EMIT_START and start the
count again; it neither reads ACQ_STATE nor inverts JOB_IND, and exists only where ALT_TRIGGER_ENABLE is true. Before BOOT, which R50 puts before any other step, it is
declined and the line stays pending (log 34, 35). `n` is the count; at 255, which no run reaches, it is a free value (log 17). -/
def Obligations.AlternateTrigger : Prop :=
  ∀ (s u : State) (n : Byte), u = { s with evtPending := s.evtPending &&& 0b01111#5 } →
    n = (if s.altCount = 0xFF then Config.freeAltCount else s.altCount + 1) →
    (s.cfg.altEnable = true → s.phase ≠ .boot → s.evtPending.getLsbD 4 = true → s.cfg.altArmCount = n.toNat →
      exec .hAltTrig s = .next { u with flags := s.flags ||| 0b00001#5, altCount := 0 }) ∧
    (s.cfg.altEnable = true → s.phase ≠ .boot → s.evtPending.getLsbD 4 = true → s.cfg.altArmCount ≠ n.toNat →
      exec .hAltTrig s = .next { u with altCount := n }) ∧
    (s.cfg.altEnable = false ∨ s.phase = .boot ∨ s.evtPending.getLsbD 4 = false → exec .hAltTrig s = .refused (.notEnabled "H_ALT_TRIG"))

/-! ### The synthesizer (40_chirp_synth.md) -/

/-- R128: during boot, with legal parameters, CS_GENERATE completes; it writes the bytes of CHIRP and its own registers and nothing else,
GEN_IDX ends at N_CHIRP and GEN_DONE is 1. -/
def Obligations.GenerateFrame : Prop :=
  ∀ s : State, s.cfg.Legal → s.phase = .boot → ∃ t,
    exec .csGenerate s = .next t ∧ t = { s with cs := t.cs, mem := t.mem } ∧ t.cs.genIdx.toNat = s.cfg.nChirp ∧
    t.cs.genDone = true ∧
    ∀ a, a < s.cfg.chirpBase ∨ s.cfg.chirpBase + 2 * s.cfg.nChirp ≤ a → Memory.read t.mem a = Memory.read s.mem a

/-- R134, R122: for every legal parameter set, phase form and implementation, CHIRP[0] is LEVELS/2 rounded half up and the last element
is 0. -/
def Obligations.FixedSamples : Prop :=
  ∀ s : State, s.cfg.Legal → s.phase = .boot → ∃ t,
    exec .csGenerate s = .next t ∧ (t.element s.cfg.chirpBase 0).toNat = (s.cfg.levels + 1) / 2 ∧
    t.element s.cfg.chirpBase (s.cfg.nChirp - 1) = 0

/-- R121, R130(c), R314: under either implementation, the fixed-point datapath and the document's expression, every element lies in
0 .. LEVELS. -/
def Obligations.SampleRange : Prop :=
  ∀ s : State, s.cfg.Legal → s.phase = .boot → ∃ t,
    exec .csGenerate s = .next t ∧ ∀ k < s.cfg.nChirp, (t.element s.cfg.chirpBase k).toNat ≤ s.cfg.levels

/-- R124, R128, R129: with the fixed-point datapath element `k`, except the last, is the sample of R129 at the carrier phase
`PH0 + k*FTW0 + CRW*k*(k-1)/2` and the window phase `k*WTW`, all modulo 2^48. -/
def Obligations.ChirpClosedForm : Prop :=
  ∀ s : State, s.cfg.Legal → s.phase = .boot → s.cfg.chirpImpl = .nco → ∃ t,
    exec .csGenerate s = .next t ∧ ∀ k < s.cfg.nChirp - 1,
      ((t.element s.cfg.chirpBase k).toNat : Int) =
        ((s.cfg.levels : Int) *
            (2 ^ 61 + cosq s.cfg (ph0 s.cfg + BitVec.ofNat 48 k * ftw0 s.cfg + BitVec.ofNat 48 (k * (k - 1) / 2) * crw s.cfg) *
              (2 ^ 30 - cosq s.cfg (BitVec.ofNat 48 k * wtw s.cfg))) + 2 ^ 61) / 2 ^ 62

/-- R123: generation is deterministic: whatever the registers, the memory and every other parameter hold, the same count, f0, f1, duration and
levels give the same buffer, under the same reading of the phase (R125) and the same implementation (R130). -/
def Obligations.GenerateDeterministic : Prop :=
  ∀ s u : State, s.cfg.Legal → u.cfg.Legal → s.phase = .boot → u.phase = .boot →
    u.cfg.nChirp = s.cfg.nChirp → u.cfg.chirpF0 = s.cfg.chirpF0 → u.cfg.chirpF1 = s.cfg.chirpF1 →
    u.cfg.chirpDuration = s.cfg.chirpDuration → u.cfg.levels = s.cfg.levels → u.cfg.phaseForm = s.cfg.phaseForm →
    u.cfg.chirpImpl = s.cfg.chirpImpl → ∃ t v,
      exec .csGenerate s = .next t ∧ exec .csGenerate u = .next v ∧ t.cs = v.cs ∧
      ∀ k < s.cfg.nChirp, t.element s.cfg.chirpBase k = v.element u.cfg.chirpBase k

/-- R127: with the widths of R10 the cosine lies in -2^30 .. 2^30 for every phase, and takes the five values the rule lists. -/
def Obligations.CosineRange : Prop :=
  ∀ p : Params, p.LegalWidths →
    (∀ ph : Phase, -(2 ^ 30) ≤ cosq p ph ∧ cosq p ph ≤ 2 ^ 30) ∧
    cosq p 0 = 1073741824 ∧ cosq p 0x400000000000 = -3 ∧ cosq p 0x800000000000 = -1073741824 ∧ cosq p 0xC00000000000 = 3 ∧
    cosq p 0x200000000000 = 759250129

/-! ### The transfer engine (41_transfer_engine.md) -/

/-- R152: TE_CONFIGURE writes the three configuration fields of an IDLE channel with burst policy 0; it is declined on a channel that is not
IDLE and with any other burst policy. -/
def Obligations.ChannelConfigure : Prop :=
  ∀ (s : State) (c : Chan) (prio trigsrc burst : BitVec 2), HasOp (.teConfigure c prio trigsrc burst) 2 c.code ∧
    ((s.chan c).state = .idle → burst = 0 → exec (.teConfigure c prio trigsrc burst) s =
      .next (s.setChan c { s.chan c with prio := prio, trigSrc := trigsrc, burst := burst })) ∧
    ((s.chan c).state ≠ .idle → exec (.teConfigure c prio trigsrc burst) s = .refused (.channelNotIdle c)) ∧
    ((s.chan c).state = .idle → burst ≠ 0 → exec (.teConfigure c prio trigsrc burst) s = .refused .reservedBurst)

/-- R153: TE_ARM writes CH_DESC_PTR of an IDLE channel; the address is a multiple of 16 and not 0; otherwise it is declined. -/
def Obligations.ChannelArm : Prop :=
  ∀ (s : State) (c : Chan) (a : Word), HasOp (.teArm c a) 3 c.code ∧
    ((s.chan c).state = .idle → a ≠ 0 → a.toNat % 16 = 0 →
      exec (.teArm c a) s = .next (s.setChan c { s.chan c with descPtr := a })) ∧
    ((s.chan c).state ≠ .idle → a ≠ 0 → a.toNat % 16 = 0 → exec (.teArm c a) s = .refused (.channelNotIdle c)) ∧
    (a = 0 ∨ a.toNat % 16 ≠ 0 → exec (.teArm c a) s = .refused (.badOperand "TE_ARM"))

/-- R154, R158: TE_ENABLE does nothing on a channel that is not IDLE, with no descriptor armed, or with one whose VALID is 0; otherwise, for a
record of DESC without a reserved value (R97), it loads the four words and the channel is ACTIVE with no trigger pending. A usable record with any
of the reserved values of R97, a misaligned address among them (R72), is declined (log 16), and so is an armed address that is not a multiple of
16 (log 16) or that is no record of DESC (R61, R69). `w k` is word `k` of the record as memory holds it. -/
def Obligations.ChannelEnable : Prop :=
  ∀ (s : State) (c : Chan) (j : Nat) (w : Nat → Word), s.cfg.LegalMap →
    ((s.chan c).state ≠ .idle ∨ (s.chan c).descPtr = 0 → exec (.teEnable c) s = .next s) ∧
    ((s.chan c).state = .idle → j < 3 → (s.chan c).descPtr.toNat = s.cfg.descBase + 16 * j →
      (∀ k < 4, w k = s.mem.readLE (s.cfg.descBase + 16 * j + 4 * k) .b4) →
      ((w 0).getLsbD 0 = false → exec (.teEnable c) s = .next s) ∧
      ((w 0).getLsbD 0 = true → (w 0).extractLsb' 3 2 ≠ 3 → (w 0).extractLsb' 7 9 = 0 → (w 0).extractLsb' 16 16 ≠ 0 →
        (w 3).toNat % 16 = 0 → (w 1).toNat % 2 ^ ((w 0).extractLsb' 3 2).toNat = 0 →
        (w 2).toNat % 2 ^ ((w 0).extractLsb' 3 2).toNat = 0 →
        exec (.teEnable c) s =
          .next (s.setChan c { s.chan c with
            wCtrl := w 0, wSrc := w 1, wDst := w 2, wNext := w 3, wCnt := (w 0).extractLsb' 16 16
            state := .active, trig := false })) ∧
      ((w 0).getLsbD 0 = true →
        ((w 0).extractLsb' 3 2 = 3 ∨ (w 0).extractLsb' 7 9 ≠ 0 ∨ (w 0).extractLsb' 16 16 = 0 ∨ (w 3).toNat % 16 ≠ 0 ∨
          (w 1).toNat % 2 ^ ((w 0).extractLsb' 3 2).toNat ≠ 0 ∨ (w 2).toNat % 2 ^ ((w 0).extractLsb' 3 2).toNat ≠ 0) →
        exec (.teEnable c) s = .refused .reservedDescriptor)) ∧
    ((s.chan c).state = .idle → (s.chan c).descPtr.toNat % 16 ≠ 0 →
      exec (.teEnable c) s = .refused (.misaligned (s.chan c).descPtr)) ∧
    ((s.chan c).state = .idle → (s.chan c).descPtr ≠ 0 → (s.chan c).descPtr.toNat % 16 = 0 →
      (∀ k < 3, (s.chan c).descPtr.toNat ≠ s.cfg.descBase + 16 * k) →
      exec (.teEnable c) s = .refused (.noAccess (s.chan c).descPtr))

/-- R155, R156, R157: suspend stops an ACTIVE channel and drops its trigger, resume starts a SUSPENDED one, disable ends any; the working
registers keep their values and in the other states of a channel suspend and resume do nothing. -/
def Obligations.ChannelControl : Prop :=
  ∀ (s : State) (c : Chan), HasOp (.teSuspend c) 5 c.code ∧ HasOp (.teResume c) 6 c.code ∧ HasOp (.teDisable c) 7 c.code ∧
    exec (.teSuspend c) s =
      .next (if (s.chan c).state = .active then s.setChan c { s.chan c with state := .suspended, trig := false } else s) ∧
    exec (.teResume c) s =
      .next (if (s.chan c).state = .suspended then s.setChan c { s.chan c with state := .active } else s) ∧
    exec (.teDisable c) s = .next (s.setChan c { s.chan c with state := .idle, trig := false })

/-- R96, R39, R71: a descriptor stands in DESC as four little-endian words at DESC_BASE + 16*c, the fields of CTRL at the bits of R96, and no
other byte changes; R97: a usable one with a reserved value is declined. (That format D, taken by itself, places the record during boot is the
model's choice, log 6.) -/
def Obligations.DescriptorPlaced : Prop :=
  ∀ (s : State) (c : Chan) (d : Descriptor) (a : Nat), s.cfg.Legal → s.phase = .boot →
    a = s.cfg.descBase + 16 * c.code.toNat →
    (d.valid = false ∨ d.reservedValue = false → ∃ t,
      exec (.descriptor c d) s = .next t ∧ t = { s with mem := t.mem } ∧
      t.mem.readLE a .b4 = d.count ++ d.reserved ++ BitVec.ofBool d.dstInc ++ BitVec.ofBool d.srcInc ++ d.elemSize ++
        d.blockAct ++ BitVec.ofBool d.valid ∧
      t.mem.readLE (a + 4) .b4 = d.src ∧ t.mem.readLE (a + 8) .b4 = d.dst ∧ t.mem.readLE (a + 12) .b4 = d.next ∧
      ∀ b, b < a ∨ a + 16 ≤ b → Memory.read t.mem b = Memory.read s.mem b) ∧
    (d.valid = true → d.reservedValue = true → exec (.descriptor c d) s = .refused .reservedDescriptor)

/-- R159: a trigger is latched only for a channel with a source, ACTIVE, and with none pending; it is lost otherwise. -/
def Obligations.TriggerLatch : Prop :=
  ∀ (s : State) (c : Chan), exec (.envTrigger c) s =
    .next (if (s.chan c).trigSrc ≠ 0 ∧ (s.chan c).state = .active ∧ (s.chan c).trig = false then
        s.setChan c { s.chan c with trig := true }
      else s)

/-- R161: the grant goes to the candidate with the largest CH_PRIO, the smallest number among equals; without a candidate there is none. R161 would
let a model leave the grant open; this one follows it, and a beat of a channel that is not granted is declined, read from "Enabled when" of
R160 (log 21, 35). -/
def Obligations.ArbiterGrant : Prop :=
  ∀ s : State,
    (∀ c : Chan, s.grant = some c ↔
      ((s.chan c).state = .active ∧ (s.chan c).trig = true ∧
        ∀ d : Chan, d ≠ c → (s.chan d).state = .active → (s.chan d).trig = true →
          (s.chan d).prio.toNat < (s.chan c).prio.toNat ∨
            ((s.chan d).prio = (s.chan c).prio ∧ c.code.toNat < d.code.toNat))) ∧
    (s.grant = none ↔ ∀ c : Chan, (s.chan c).state ≠ .active ∨ (s.chan c).trig = false) ∧
    ∀ (c : Chan) (v : Half), s.grant ≠ some c → exec (.teBeat c v) s = .refused (.notEnabled "TE_BEAT")

/-- R160, R66: a beat of channel 0 that is not the last of its block moves the 16-bit element at W_SRC to DAC_DATA, an observable output;
each working address is fixed or advances by 2 as CTRL says; the trigger is served; memory and every other register stand. With elements of any
other size a beat to DAC_DATA is declined, since the port takes 16-bit writes only (R66, R70; ELEMSIZE 3: log 30). -/
def Obligations.EmissionBeat : Prop :=
  (∀ (s : State) (draw v : Half) (r : ChanRegs), s.cfg.Legal → r = s.ch0 → s.grant = some .emit →
    r.wCtrl.extractLsb' 3 2 = 1 → r.wSrc.toNat % 2 = 0 → s.cfg.chirpBase ≤ r.wSrc.toNat →
    r.wSrc.toNat + 2 ≤ s.cfg.chirpBase + 2 * s.cfg.nChirp → r.wDst.toNat = s.cfg.dacData → 2 ≤ r.wCnt.toNat →
    v = Memory.read s.mem (r.wSrc.toNat + 1) ++ Memory.read s.mem r.wSrc.toNat →
    exec (.teBeat .emit draw) s =
      .next { s with
        dacOut := v
        dacTrace := s.dacTrace ++ [v]
        ch0 := { r with
          wSrc := if r.wCtrl.getLsbD 5 then r.wSrc + 2 else r.wSrc
          wDst := if r.wCtrl.getLsbD 6 then r.wDst + 2 else r.wDst
          wCnt := r.wCnt - 1
          trig := false } }) ∧
  ∀ (s : State) (draw : Half), s.cfg.Legal → s.grant = some .emit → s.ch0.wCtrl.extractLsb' 3 2 ≠ 1 →
    s.ch0.wDst.toNat = s.cfg.dacData → ∃ reason, exec (.teBeat .emit draw) s = .refused reason

/-- R160, R67: a beat of capture channel `c` that is not the last of its block stores the value drawn from its converter's port at W_DST, low
byte first, inside its own buffer; no other byte and no other register changes. With elements of any other size a beat from the port is declined,
since it takes 16-bit reads only (R67, R69; ELEMSIZE 3: log 30). -/
def Obligations.CaptureBeat : Prop :=
  (∀ (s : State) (c : Chan) (draw : Half) (r : ChanRegs) (port base : Nat), s.cfg.Legal → r = s.chan c →
    ((c = .cap0 ∧ port = s.cfg.adc0Result ∧ base = s.cfg.cap0Base) ∨
      (c = .cap1 ∧ port = s.cfg.adc1Result ∧ base = s.cfg.cap1Base)) →
    s.grant = some c → r.wCtrl.extractLsb' 3 2 = 1 → r.wSrc.toNat = port → r.wDst.toNat % 2 = 0 → base ≤ r.wDst.toNat →
    r.wDst.toNat + 2 ≤ base + 2 * s.cfg.nCap → 2 ≤ r.wCnt.toNat →
    ∃ t, exec (.teBeat c draw) s = .next t ∧
      t = ({ s with mem := t.mem }).setChan c { r with
        wSrc := if r.wCtrl.getLsbD 5 then r.wSrc + 2 else r.wSrc
        wDst := if r.wCtrl.getLsbD 6 then r.wDst + 2 else r.wDst
        wCnt := r.wCnt - 1
        trig := false } ∧
      Memory.read t.mem r.wDst.toNat = draw.extractLsb' 0 8 ∧
      Memory.read t.mem (r.wDst.toNat + 1) = draw.extractLsb' 8 8 ∧
      ∀ a, a < r.wDst.toNat ∨ r.wDst.toNat + 2 ≤ a → Memory.read t.mem a = Memory.read s.mem a) ∧
  ∀ (s : State) (c : Chan) (draw : Half), s.cfg.Legal → s.grant = some c → (s.chan c).wCtrl.extractLsb' 3 2 ≠ 1 →
    ((c = .cap0 ∧ (s.chan c).wSrc.toNat = s.cfg.adc0Result) ∨ (c = .cap1 ∧ (s.chan c).wSrc.toNat = s.cfg.adc1Result)) →
    ∃ reason, exec (.teBeat c draw) s = .refused reason

/-- R162: the beat that moves a block's last element (`u` is the state its element move leaves, R160 lines 1 to 7) signals the channel's
event exactly for NOTIFY and NOTIFY_SUSPEND; without a successor, or with one whose VALID is 0, the channel is IDLE; with a valid successor in
DESC it is loaded, and the channel is SUSPENDED exactly for SUSPEND and NOTIFY_SUSPEND. A usable successor with any of the reserved values of R97
is declined (R158 line 3; the misaligned addresses: log 16), and so is a NEXT that is not a multiple of 16 (V-TE-4, log 16) or that is no record of
DESC (R61, R69). `w k` is word `k` of the successor. -/
def Obligations.BlockCompletion : Prop :=
  ∀ (s u v : State) (c : Chan) (draw : Half) (r : ChanRegs) (j : Nat) (w : Nat → Word), s.cfg.LegalMap → s.grant = some c →
    s.moveElement c draw = .ok u → r = u.chan c → r.wCnt = 0 →
    v = (if r.wCtrl.extractLsb' 1 2 = 1 ∨ r.wCtrl.extractLsb' 1 2 = 3 then
        { u with evtPending := u.evtPending ||| (match c with | .emit => 0b00001#5 | .cap0 => 0b00100#5 | .cap1 => 0b01000#5) }
      else u) →
    (r.wNext = 0 → exec (.teBeat c draw) s = .next (v.setChan c { r with state := .idle })) ∧
    (j < 3 → r.wNext.toNat = s.cfg.descBase + 16 * j →
      (∀ k < 4, w k = u.mem.readLE (s.cfg.descBase + 16 * j + 4 * k) .b4) →
      ((w 0).getLsbD 0 = false → exec (.teBeat c draw) s = .next (v.setChan c { r with state := .idle })) ∧
      ((w 0).getLsbD 0 = true → (w 0).extractLsb' 3 2 ≠ 3 → (w 0).extractLsb' 7 9 = 0 → (w 0).extractLsb' 16 16 ≠ 0 →
        (w 3).toNat % 16 = 0 → (w 1).toNat % 2 ^ ((w 0).extractLsb' 3 2).toNat = 0 →
        (w 2).toNat % 2 ^ ((w 0).extractLsb' 3 2).toNat = 0 →
        exec (.teBeat c draw) s =
          .next (v.setChan c { r with
            wCtrl := w 0, wSrc := w 1, wDst := w 2, wNext := w 3, wCnt := (w 0).extractLsb' 16 16
            state := if r.wCtrl.extractLsb' 1 2 = 2 ∨ r.wCtrl.extractLsb' 1 2 = 3 then .suspended else .active })) ∧
      ((w 0).getLsbD 0 = true →
        ((w 0).extractLsb' 3 2 = 3 ∨ (w 0).extractLsb' 7 9 ≠ 0 ∨ (w 0).extractLsb' 16 16 = 0 ∨ (w 3).toNat % 16 ≠ 0 ∨
          (w 1).toNat % 2 ^ ((w 0).extractLsb' 3 2).toNat ≠ 0 ∨ (w 2).toNat % 2 ^ ((w 0).extractLsb' 3 2).toNat ≠ 0) →
        exec (.teBeat c draw) s = .refused .reservedDescriptor)) ∧
    (r.wNext.toNat % 16 ≠ 0 → exec (.teBeat c draw) s = .refused (.misaligned r.wNext)) ∧
    (r.wNext ≠ 0 → r.wNext.toNat % 16 = 0 → (∀ k < 3, r.wNext.toNat ≠ s.cfg.descBase + 16 * k) →
      exec (.teBeat c draw) s = .refused (.noAccess r.wNext))

/-- R164, R319, R311: from a proper state in Emit with channel 0 ACTIVE and no trigger pending, feeding the rest of the block (R105)
writes the remaining elements of CHIRP to DAC_DATA in index order, signals EV_EMIT_DONE once, and leaves channel 0 SUSPENDED at the start of the
same block; nothing else changes. -/
def Obligations.EmissionBlock : Prop :=
  ∀ s : State, s.Proper → s.acqState = .emit → s.ch0.state = .active → s.ch0.trig = false →
    runAll (List.replicate s.ch0.wCnt.toNat (feed .emit 0)).flatten s =
      .next { s with
        ch0 := bootedChan s.cfg .emit
        evtPending := 0b00001#5
        dacOut := s.element s.cfg.chirpBase (s.cfg.nChirp - 1)
        dacTrace := s.dacTrace ++
          (List.range' (s.cfg.nChirp - s.ch0.wCnt.toNat) s.ch0.wCnt.toNat).map (s.element s.cfg.chirpBase) }

/-- R160, R162, R164: from a proper state in Listen with capture channel `c` ACTIVE, fed the values `vs` for the rest of its block while no
trigger is pending on any channel, the buffer holds `vs` in order, the channel's event is pending, the channel is SUSPENDED at the start of
the same block, and no byte outside the fed elements changes. -/
def Obligations.CaptureBlock : Prop :=
  ∀ (s : State) (c : Chan) (vs : List Half) (base : Nat), s.Proper → s.acqState = .listen →
    ((c = .cap0 ∧ base = s.cfg.cap0Base) ∨ (c = .cap1 ∧ base = s.cfg.cap1Base)) →
    (s.chan c).state = .active → s.ch1.trig = false → s.ch2.trig = false → vs.length = (s.chan c).wCnt.toNat →
    ∃ t, runAll (vs.map (feed c)).flatten s = .next t ∧
      t = ({ s with
        mem := t.mem
        evtPending := s.evtPending ||| (if c = Chan.cap0 then 0b00100#5 else 0b01000#5) }).setChan c (bootedChan s.cfg c) ∧
      (∀ k < vs.length, t.element base (s.cfg.nCap - vs.length + k) = vs.getD k 0) ∧
      (∀ a, a < base + 2 * (s.cfg.nCap - vs.length) ∨ base + 2 * s.cfg.nCap ≤ a →
        Memory.read t.mem a = Memory.read s.mem a)

/-! ### The timers (42_carrier_timer.md, 43_guard_timer.md) -/

/-- R191, R192: CT_CONFIGURE writes period and both compare values and clears the counter; operands outside 2 <= period, 0 < duty < period,
0 < ind_duty < period are declined, and so is a running generator; CT_ENABLE sets CT_EN once configured and is declined before. -/
def Obligations.CarrierSetup : Prop :=
  ∀ (s : State) (per duty ind : Half) (ok : Prop),
    (ok ↔ 2 ≤ per.toNat ∧ 0 < duty.toNat ∧ duty.toNat < per.toNat ∧ 0 < ind.toNat ∧ ind.toNat < per.toNat) →
    HasOp (.ctConfigure per duty ind) 8 0 ∧ HasOp .ctEnable 9 0 ∧
    (ok → s.ct.en = false → exec (.ctConfigure per duty ind) s =
      .next { s with ct := { en := false, cnt := 0, per := per, duty := duty, indDuty := ind } }) ∧
    (ok → s.ct.en = true → exec (.ctConfigure per duty ind) s = .refused (.timerRunning "CT_CONFIGURE")) ∧
    (¬ok → exec (.ctConfigure per duty ind) s = .refused (.badOperand "CT_CONFIGURE")) ∧
    (s.ct.per ≠ 0 → exec .ctEnable s = .next { s with ct := { s.ct with en := true } }) ∧
    (s.ct.per = 0 → exec .ctEnable s = .refused (.notConfigured "CT_ENABLE"))

/-- R193: while enabled CARR_P and CARR_N are complementary, CARR_P is 1 below CT_DUTY and CARR_IND below CT_IND_DUTY; while disabled all
three are 0. -/
def Obligations.CarrierOutputs : Prop :=
  ∀ s : State,
    (s.ct.en = true → s.carrP = decide (s.ct.cnt.toNat < s.ct.duty.toNat) ∧ s.carrN = !s.carrP ∧
      s.carrInd = decide (s.ct.cnt.toNat < s.ct.indDuty.toNat)) ∧
    (s.ct.en = false → s.carrP = false ∧ s.carrN = false ∧ s.carrInd = false)

/-- R194: from a counter inside the period, where R32 says it always is, one tick counts up and wraps at CT_PER, `k` ticks leave it at
`(CT_CNT + k) mod CT_PER`, and nothing else changes. R194 enables a tick where CT_EN is 1 and says no more: that one taken while CT_EN is 0 is
declined is the model's choice (log 35). -/
def Obligations.CarrierTicks : Prop :=
  (∀ (s : State) (k : Nat), s.ct.en = true → s.ct.cnt.toNat < s.ct.per.toNat →
    runAll (List.replicate k .ctTick) s =
      .next { s with ct := { s.ct with cnt := BitVec.ofNat 16 ((s.ct.cnt.toNat + k) % s.ct.per.toNat) } }) ∧
  (∀ s : State, s.ct.en = true → s.ct.cnt.toNat < s.ct.per.toNat → exec .ctTick s =
    .next { s with ct := { s.ct with cnt := if s.ct.cnt.toNat + 1 = s.ct.per.toNat then 0 else s.ct.cnt + 1 } }) ∧
  (∀ s : State, s.ct.en = false → exec .ctTick s = .refused (.notEnabled "CT_TICK"))

/-- R195: no operation but BOOT, CT_CONFIGURE, CT_ENABLE and CT_TICK changes a CT register or reads one (with the CT registers replaced before, every
other operation answers alike, the state after it the same but for them, which stand), and CT_TICK changes nothing but CT_CNT. -/
def Obligations.CarrierIndependence : Prop :=
  (∀ (i : Instr) (s t : State), exec i s = .next t →
    (t.ct ≠ s.ct → i = .boot ∨ i = .ctEnable ∨ i = .ctTick ∨ ∃ per duty ind, i = .ctConfigure per duty ind) ∧
    (i = .ctTick → t = { s with ct := { s.ct with cnt := t.ct.cnt } })) ∧
  ∀ (i : Instr) (s : State) (regs : CarrierRegs), i ≠ .boot → i ≠ .ctEnable → i ≠ .ctTick →
    (∀ per duty ind, i ≠ .ctConfigure per duty ind) →
    match exec i s, exec i { s with ct := regs } with
      | .next t, .next u => t.ct = s.ct ∧ u = { t with ct := regs }
      | .refused r, .refused q => r = q
      | _, _ => False

/-- R201, R202: GT_CONFIGURE writes period and compare point and does not start the timer; operands outside its constraints and a running
timer are declined; GT_RETRIGGER starts the countdown from GT_PER, running or not, and is declined before configuration. -/
def Obligations.GuardSetup : Prop :=
  ∀ (s : State) (per cmp : Word) (ok : Prop), (ok ↔ 1 ≤ per.toNat ∧ (cmp.toNat < per.toNat ∨ cmp = 0)) →
    HasOp (.gtConfigure per cmp) 10 0 ∧ HasOp .gtRetrigger 11 0 ∧
    (ok → s.gt.run = false → exec (.gtConfigure per cmp) s =
      .next { s with gt := { run := false, cnt := 0, per := per, cmp := cmp, aux := false } }) ∧
    (ok → s.gt.run = true → exec (.gtConfigure per cmp) s = .refused (.timerRunning "GT_CONFIGURE")) ∧
    (¬ok → exec (.gtConfigure per cmp) s = .refused (.badOperand "GT_CONFIGURE")) ∧
    (s.gt.per ≠ 0 → exec .gtRetrigger s = .next { s with gt := { s.gt with cnt := s.gt.per, run := true, aux := false } }) ∧
    (s.gt.per = 0 → exec .gtRetrigger s = .refused (.notConfigured "GT_RETRIGGER"))

/-- R203: one count of the guard time base: the overflow event at 0, the compare event GT_CMP ticks after the retrigger. R203 enables it where
GT_RUN is 1 and says no more: that one taken while GT_RUN is 0 is declined is the model's choice (log 35). `n` is the count. (GT_CNT is not 0 while GT_RUN is 1, a clause of `State.Proper`.) -/
def Obligations.GuardTick : Prop :=
  ∀ (s : State) (n : Word), n = s.gt.cnt - 1 →
    (s.gt.run = true → s.gt.cnt ≠ 0 → n = 0 → exec .gtTick s =
      .next { s with gt := { s.gt with cnt := 0, run := false, aux := false }, evtPending := s.evtPending ||| 0b00010#5 }) ∧
    (s.gt.run = true → s.gt.cnt ≠ 0 → n ≠ 0 → s.gt.cmp ≠ 0 → (s.gt.per.toNat : Int) - n.toNat = s.gt.cmp.toNat →
      exec .gtTick s = .next { s with gt := { s.gt with cnt := n, aux := true } }) ∧
    (s.gt.run = true → s.gt.cnt ≠ 0 → n ≠ 0 → (s.gt.cmp = 0 ∨ (s.gt.per.toNat : Int) - n.toNat ≠ s.gt.cmp.toNat) →
      exec .gtTick s = .next { s with gt := { s.gt with cnt := n } }) ∧
    (s.gt.run = false → exec .gtTick s = .refused (.notEnabled "GT_TICK"))

/-- R203, R204, R205: after a retrigger, while fewer than GT_PER ticks have been taken the countdown runs, no event is raised and GT_AUX is 1
exactly from tick GT_CMP on; tick GT_PER raises the overflow event and stops the timer, and no further tick is enabled (one taken is declined, the model's choice, log 35). -/
def Obligations.GuardInterval : Prop :=
  ∀ (s u : State), exec .gtRetrigger s = .next u →
    (∀ k < s.gt.per.toNat, runAll (List.replicate k .gtTick) u =
      .next { u with gt := { u.gt with
        cnt := BitVec.ofNat 32 (s.gt.per.toNat - k)
        aux := decide (s.gt.cmp ≠ 0 ∧ s.gt.cmp.toNat ≤ k) } }) ∧
    runAll (List.replicate s.gt.per.toNat .gtTick) u =
      .next { u with
        gt := { u.gt with cnt := 0, run := false, aux := false }
        evtPending := u.evtPending ||| 0b00010#5 } ∧
    runAll (List.replicate (s.gt.per.toNat + 1) .gtTick) u = .refused (.notEnabled "GT_TICK")

/-! ### Reset and boot (70_reset_and_hazards.md) -/

/-- R300: the state after reset, whatever the parameters. That State.reset has the DEFAULT ones is the model's choice, which R300 does not state
(log 1). (DAC_OUT and the memories, which the rule leaves unspecified, are not stated.) -/
def Obligations.ResetState : Prop :=
  State.reset = State.resetWith Params.default ∧
  ∀ (p : Params) (s : State), s = State.resetWith p →
    s.acqState = .idle ∧ s.flags = 0 ∧ s.evtPending = 0 ∧ s.altCount = 0 ∧ s.ampEn = false ∧ s.jobInd = false ∧ s.rxq = [] ∧
    s.txs = [] ∧ s.cs = ⟨0, 0, 0, 0, false⟩ ∧ (∀ c, s.chan c = ⟨0, 0, 0, .idle, 0, 0, 0, 0, 0, 0, false⟩) ∧
    s.ct = ⟨false, 0, 0, 0, 0⟩ ∧ s.carrP = false ∧ s.carrN = false ∧ s.carrInd = false ∧ s.gt = ⟨false, 0, 0, 0, false⟩

/-- R304, R305: from reset with legal parameters BOOT leaves exactly the state of R305: CHIRP generated, the three records in DESC, the three
channels SUSPENDED at the start of their blocks, the carrier running, the guard timer configured. What the environment did before
(RXQ, EVT_PENDING, R52; log 34) and the script still to come stay. It is declined with a parameter outside its constraints (line 0), and after
boot, where R50 does not enable it again (log 35). -/
def Obligations.BootState : Prop :=
  (∀ (p : Params) (q : List Byte) (e : BitVec 5) (l : List Code), p.Legal →
    exec .boot { State.resetWith p with rxq := q, evtPending := e, script := l } =
      .next { State.afterBoot p with rxq := q, evtPending := e, script := l }) ∧
  (∀ s : State, s.phase = .boot → ¬s.cfg.Legal → exec .boot s = .refused .badParameters) ∧
  (∀ s : State, s.phase ≠ .boot → exec .boot s = .refused (.notEnabled "BOOT"))

/-! ### The whole machine -/

/-- R224, R165, R250, R251: with legal parameters and the alternate trigger off, the state after BOOT is proper, whatever the host has sent and
whatever the script still holds. -/
def Obligations.ProperAfterBoot : Prop :=
  ∀ (p : Params) (q : List Byte) (l : List Code), p.Legal → p.altEnable = false →
    ∃ t, exec .boot { State.resetWith p with rxq := q, script := l } = .next t ∧ t.Proper

/-- R224, R270: from a proper state every step that R50 enables is taken, none is declined, and the state after it is proper. (Which step is
next is the first line of the script, the model's choice, log 2; BOOT is never enabled here.) -/
def Obligations.ProperKept : Prop :=
  ∀ s : State, s.Proper → s.StepEnabled → ∃ t, step s = .next t ∧ t.Proper

/-- The memory's canonical form (log 11), kept by every step from every state. -/
def Obligations.CanonicalMemoryKept : Prop :=
  ∀ s t : State, Memory.Wf s.mem → step s = .next t → Memory.Wf t.mem

/-- The memory at reset is in canonical form (log 11). -/
def Obligations.CanonicalMemoryAtReset : Prop :=
  Memory.Wf State.reset.mem ∧ ∀ p : Params, Memory.Wf (State.resetWith p).mem

/-- R61, R68, R79, R76(c), R310: after boot, whatever is taken, no byte outside the two capture buffers changes, and a
byte of a capture buffer changes only in a beat of its own channel. -/
def Obligations.MemoryOwnership : Prop :=
  ∀ (i : Instr) (s t : State), s.phase ≠ .boot → exec i s = .next t →
    ∀ a, Memory.read t.mem a ≠ Memory.read s.mem a →
      (s.cfg.cap0Base ≤ a ∧ a < s.cfg.cap0Base + 2 * s.cfg.nCap ∧ ∃ v, i = .teBeat .cap0 v) ∨
      (s.cfg.cap1Base ≤ a ∧ a < s.cfg.cap1Base + 2 * s.cfg.nCap ∧ ∃ v, i = .teBeat .cap1 v)

/-- R248: AMP_EN is changed only by the amplifier commands (by themselves or in a poll), and influences nothing: with AMP_EN replaced before,
every operation answers alike, the state after it the same but for AMP_EN. -/
def Obligations.AmplifierIndependence : Prop :=
  ∀ (i : Instr) (s : State) (b : Bool),
    (∀ t, exec i s = .next t → t.ampEn ≠ s.ampEn → i = .ampEnable ∨ i = .ampDisable ∨ i = .hlPoll) ∧
    (match exec i s, exec i { s with ampEn := b } with
      | .next t, .next u => u = { t with ampEn := u.ampEn }
      | .refused r, .refused q => r = q
      | _, _ => False)

/-- R35: whatever is taken, TXS only grows, by the drain's and the samples' bytes alone; and no step writes a parameter (R43). -/
def Obligations.StreamGrows : Prop :=
  ∀ (i : Instr) (s t : State), exec i s = .next t →
    s.txs <+: t.txs ∧ t.cfg = s.cfg ∧
    (t.txs ≠ s.txs → i = .asEval ∨ i = .tListenIdle ∨ i = .hlDrain ∨ ∃ v, i = .sample v)

/-- R320: in a quiescent proper state an enabled step other than a host byte or a carrier tick changes nothing but which half of the main
loop is due. -/
def Obligations.Quiescence : Prop :=
  ∀ (i : Instr) (s : State), s.Proper → s.Quiescent → s.enabled i = true → i ≠ .ctTick → (∀ b, i ≠ .envHostSend b) →
    ∃ ph, exec i s = .next { s with phase := ph }

/-- R318, R319: in every run from a proper state (R224) whose order of steps meets the five fairness assumptions, every accepted start-job is
followed after finitely many steps by the return to Idle, with exactly N_CHIRP beats of channel 0, then GUARD_PERIOD guard ticks, then N_CAP beats of
each capture channel, then 4*N_CAP bytes on TXS, in that order. -/
def Obligations.JobProgress : Prop :=
  ∀ r : Run, (r.state 0).Proper → r.Fair → r.Progress
end

