-- ==== Sys2Proof/Laws/State.lean ====
section
/-! SUPPORT. What each named update of the state leaves in each field: one small lemma per field per update, so that no proof
unfolds a record update. -/

namespace Sys2Proof.Machine

open Sys2Proof

/-! ### signal -/

@[simp] theorem State.signal_cfg (s : State) (e : Event) : (s.signal e).cfg = s.cfg := rfl
@[simp] theorem State.signal_phase (s : State) (e : Event) : (s.signal e).phase = s.phase := rfl
@[simp] theorem State.signal_script (s : State) (e : Event) : (s.signal e).script = s.script := rfl
@[simp] theorem State.signal_acqState (s : State) (e : Event) : (s.signal e).acqState = s.acqState := rfl
@[simp] theorem State.signal_flags (s : State) (e : Event) : (s.signal e).flags = s.flags := rfl
@[simp] theorem State.signal_altCount (s : State) (e : Event) : (s.signal e).altCount = s.altCount := rfl
@[simp] theorem State.signal_ampEn (s : State) (e : Event) : (s.signal e).ampEn = s.ampEn := rfl
@[simp] theorem State.signal_jobInd (s : State) (e : Event) : (s.signal e).jobInd = s.jobInd := rfl
@[simp] theorem State.signal_rxq (s : State) (e : Event) : (s.signal e).rxq = s.rxq := rfl
@[simp] theorem State.signal_txs (s : State) (e : Event) : (s.signal e).txs = s.txs := rfl
@[simp] theorem State.signal_cs (s : State) (e : Event) : (s.signal e).cs = s.cs := rfl
@[simp] theorem State.signal_ch0 (s : State) (e : Event) : (s.signal e).ch0 = s.ch0 := rfl
@[simp] theorem State.signal_ch1 (s : State) (e : Event) : (s.signal e).ch1 = s.ch1 := rfl
@[simp] theorem State.signal_ch2 (s : State) (e : Event) : (s.signal e).ch2 = s.ch2 := rfl
@[simp] theorem State.signal_ct (s : State) (e : Event) : (s.signal e).ct = s.ct := rfl
@[simp] theorem State.signal_gt (s : State) (e : Event) : (s.signal e).gt = s.gt := rfl
@[simp] theorem State.signal_dacOut (s : State) (e : Event) : (s.signal e).dacOut = s.dacOut := rfl
@[simp] theorem State.signal_dacTrace (s : State) (e : Event) : (s.signal e).dacTrace = s.dacTrace := rfl
@[simp] theorem State.signal_mem (s : State) (e : Event) : (s.signal e).mem = s.mem := rfl
@[simp] theorem State.signal_evtPending (s : State) (e : Event) : (s.signal e).evtPending = s.evtPending ||| e.mask := rfl

/-! ### ack -/

@[simp] theorem State.ack_cfg (s : State) (e : Event) : (s.ack e).cfg = s.cfg := rfl
@[simp] theorem State.ack_phase (s : State) (e : Event) : (s.ack e).phase = s.phase := rfl
@[simp] theorem State.ack_script (s : State) (e : Event) : (s.ack e).script = s.script := rfl
@[simp] theorem State.ack_acqState (s : State) (e : Event) : (s.ack e).acqState = s.acqState := rfl
@[simp] theorem State.ack_flags (s : State) (e : Event) : (s.ack e).flags = s.flags := rfl
@[simp] theorem State.ack_altCount (s : State) (e : Event) : (s.ack e).altCount = s.altCount := rfl
@[simp] theorem State.ack_ampEn (s : State) (e : Event) : (s.ack e).ampEn = s.ampEn := rfl
@[simp] theorem State.ack_jobInd (s : State) (e : Event) : (s.ack e).jobInd = s.jobInd := rfl
@[simp] theorem State.ack_rxq (s : State) (e : Event) : (s.ack e).rxq = s.rxq := rfl
@[simp] theorem State.ack_txs (s : State) (e : Event) : (s.ack e).txs = s.txs := rfl
@[simp] theorem State.ack_cs (s : State) (e : Event) : (s.ack e).cs = s.cs := rfl
@[simp] theorem State.ack_ch0 (s : State) (e : Event) : (s.ack e).ch0 = s.ch0 := rfl
@[simp] theorem State.ack_ch1 (s : State) (e : Event) : (s.ack e).ch1 = s.ch1 := rfl
@[simp] theorem State.ack_ch2 (s : State) (e : Event) : (s.ack e).ch2 = s.ch2 := rfl
@[simp] theorem State.ack_ct (s : State) (e : Event) : (s.ack e).ct = s.ct := rfl
@[simp] theorem State.ack_gt (s : State) (e : Event) : (s.ack e).gt = s.gt := rfl
@[simp] theorem State.ack_dacOut (s : State) (e : Event) : (s.ack e).dacOut = s.dacOut := rfl
@[simp] theorem State.ack_dacTrace (s : State) (e : Event) : (s.ack e).dacTrace = s.dacTrace := rfl
@[simp] theorem State.ack_mem (s : State) (e : Event) : (s.ack e).mem = s.mem := rfl
@[simp] theorem State.ack_evtPending (s : State) (e : Event) : (s.ack e).evtPending = s.evtPending &&& ~~~e.mask := rfl

/-! ### setFlag -/

@[simp] theorem State.setFlag_cfg (s : State) (f : Flag) : (s.setFlag f).cfg = s.cfg := rfl
@[simp] theorem State.setFlag_phase (s : State) (f : Flag) : (s.setFlag f).phase = s.phase := rfl
@[simp] theorem State.setFlag_script (s : State) (f : Flag) : (s.setFlag f).script = s.script := rfl
@[simp] theorem State.setFlag_acqState (s : State) (f : Flag) : (s.setFlag f).acqState = s.acqState := rfl
@[simp] theorem State.setFlag_evtPending (s : State) (f : Flag) : (s.setFlag f).evtPending = s.evtPending := rfl
@[simp] theorem State.setFlag_altCount (s : State) (f : Flag) : (s.setFlag f).altCount = s.altCount := rfl
@[simp] theorem State.setFlag_ampEn (s : State) (f : Flag) : (s.setFlag f).ampEn = s.ampEn := rfl
@[simp] theorem State.setFlag_jobInd (s : State) (f : Flag) : (s.setFlag f).jobInd = s.jobInd := rfl
@[simp] theorem State.setFlag_rxq (s : State) (f : Flag) : (s.setFlag f).rxq = s.rxq := rfl
@[simp] theorem State.setFlag_txs (s : State) (f : Flag) : (s.setFlag f).txs = s.txs := rfl
@[simp] theorem State.setFlag_cs (s : State) (f : Flag) : (s.setFlag f).cs = s.cs := rfl
@[simp] theorem State.setFlag_ch0 (s : State) (f : Flag) : (s.setFlag f).ch0 = s.ch0 := rfl
@[simp] theorem State.setFlag_ch1 (s : State) (f : Flag) : (s.setFlag f).ch1 = s.ch1 := rfl
@[simp] theorem State.setFlag_ch2 (s : State) (f : Flag) : (s.setFlag f).ch2 = s.ch2 := rfl
@[simp] theorem State.setFlag_ct (s : State) (f : Flag) : (s.setFlag f).ct = s.ct := rfl
@[simp] theorem State.setFlag_gt (s : State) (f : Flag) : (s.setFlag f).gt = s.gt := rfl
@[simp] theorem State.setFlag_dacOut (s : State) (f : Flag) : (s.setFlag f).dacOut = s.dacOut := rfl
@[simp] theorem State.setFlag_dacTrace (s : State) (f : Flag) : (s.setFlag f).dacTrace = s.dacTrace := rfl
@[simp] theorem State.setFlag_mem (s : State) (f : Flag) : (s.setFlag f).mem = s.mem := rfl
@[simp] theorem State.setFlag_flags (s : State) (f : Flag) : (s.setFlag f).flags = s.flags ||| f.mask := rfl

/-! ### clearFlag -/

@[simp] theorem State.clearFlag_cfg (s : State) (f : Flag) : (s.clearFlag f).cfg = s.cfg := rfl
@[simp] theorem State.clearFlag_phase (s : State) (f : Flag) : (s.clearFlag f).phase = s.phase := rfl
@[simp] theorem State.clearFlag_script (s : State) (f : Flag) : (s.clearFlag f).script = s.script := rfl
@[simp] theorem State.clearFlag_acqState (s : State) (f : Flag) : (s.clearFlag f).acqState = s.acqState := rfl
@[simp] theorem State.clearFlag_evtPending (s : State) (f : Flag) : (s.clearFlag f).evtPending = s.evtPending := rfl
@[simp] theorem State.clearFlag_altCount (s : State) (f : Flag) : (s.clearFlag f).altCount = s.altCount := rfl
@[simp] theorem State.clearFlag_ampEn (s : State) (f : Flag) : (s.clearFlag f).ampEn = s.ampEn := rfl
@[simp] theorem State.clearFlag_jobInd (s : State) (f : Flag) : (s.clearFlag f).jobInd = s.jobInd := rfl
@[simp] theorem State.clearFlag_rxq (s : State) (f : Flag) : (s.clearFlag f).rxq = s.rxq := rfl
@[simp] theorem State.clearFlag_txs (s : State) (f : Flag) : (s.clearFlag f).txs = s.txs := rfl
@[simp] theorem State.clearFlag_cs (s : State) (f : Flag) : (s.clearFlag f).cs = s.cs := rfl
@[simp] theorem State.clearFlag_ch0 (s : State) (f : Flag) : (s.clearFlag f).ch0 = s.ch0 := rfl
@[simp] theorem State.clearFlag_ch1 (s : State) (f : Flag) : (s.clearFlag f).ch1 = s.ch1 := rfl
@[simp] theorem State.clearFlag_ch2 (s : State) (f : Flag) : (s.clearFlag f).ch2 = s.ch2 := rfl
@[simp] theorem State.clearFlag_ct (s : State) (f : Flag) : (s.clearFlag f).ct = s.ct := rfl
@[simp] theorem State.clearFlag_gt (s : State) (f : Flag) : (s.clearFlag f).gt = s.gt := rfl
@[simp] theorem State.clearFlag_dacOut (s : State) (f : Flag) : (s.clearFlag f).dacOut = s.dacOut := rfl
@[simp] theorem State.clearFlag_dacTrace (s : State) (f : Flag) : (s.clearFlag f).dacTrace = s.dacTrace := rfl
@[simp] theorem State.clearFlag_mem (s : State) (f : Flag) : (s.clearFlag f).mem = s.mem := rfl
@[simp] theorem State.clearFlag_flags (s : State) (f : Flag) : (s.clearFlag f).flags = s.flags &&& ~~~f.mask := rfl

/-! ### setChan -/

@[simp] theorem State.setChan_cfg (s : State) (c : Chan) (r : ChanRegs) : (s.setChan c r).cfg = s.cfg := by cases c <;> rfl
@[simp] theorem State.setChan_phase (s : State) (c : Chan) (r : ChanRegs) : (s.setChan c r).phase = s.phase := by cases c <;> rfl
@[simp] theorem State.setChan_script (s : State) (c : Chan) (r : ChanRegs) : (s.setChan c r).script = s.script := by cases c <;> rfl
@[simp] theorem State.setChan_acqState (s : State) (c : Chan) (r : ChanRegs) : (s.setChan c r).acqState = s.acqState := by cases c <;> rfl
@[simp] theorem State.setChan_flags (s : State) (c : Chan) (r : ChanRegs) : (s.setChan c r).flags = s.flags := by cases c <;> rfl
@[simp] theorem State.setChan_evtPending (s : State) (c : Chan) (r : ChanRegs) : (s.setChan c r).evtPending = s.evtPending := by cases c <;> rfl
@[simp] theorem State.setChan_altCount (s : State) (c : Chan) (r : ChanRegs) : (s.setChan c r).altCount = s.altCount := by cases c <;> rfl
@[simp] theorem State.setChan_ampEn (s : State) (c : Chan) (r : ChanRegs) : (s.setChan c r).ampEn = s.ampEn := by cases c <;> rfl
@[simp] theorem State.setChan_jobInd (s : State) (c : Chan) (r : ChanRegs) : (s.setChan c r).jobInd = s.jobInd := by cases c <;> rfl
@[simp] theorem State.setChan_rxq (s : State) (c : Chan) (r : ChanRegs) : (s.setChan c r).rxq = s.rxq := by cases c <;> rfl
@[simp] theorem State.setChan_txs (s : State) (c : Chan) (r : ChanRegs) : (s.setChan c r).txs = s.txs := by cases c <;> rfl
@[simp] theorem State.setChan_cs (s : State) (c : Chan) (r : ChanRegs) : (s.setChan c r).cs = s.cs := by cases c <;> rfl
@[simp] theorem State.setChan_ct (s : State) (c : Chan) (r : ChanRegs) : (s.setChan c r).ct = s.ct := by cases c <;> rfl
@[simp] theorem State.setChan_gt (s : State) (c : Chan) (r : ChanRegs) : (s.setChan c r).gt = s.gt := by cases c <;> rfl
@[simp] theorem State.setChan_dacOut (s : State) (c : Chan) (r : ChanRegs) : (s.setChan c r).dacOut = s.dacOut := by cases c <;> rfl
@[simp] theorem State.setChan_dacTrace (s : State) (c : Chan) (r : ChanRegs) : (s.setChan c r).dacTrace = s.dacTrace := by cases c <;> rfl
@[simp] theorem State.setChan_mem (s : State) (c : Chan) (r : ChanRegs) : (s.setChan c r).mem = s.mem := by cases c <;> rfl

/-! ### Reading a channel after an update -/

@[simp] theorem State.chan_setChan_same (s : State) (c : Chan) (r : ChanRegs) : (s.setChan c r).chan c = r := by
  cases c <;> rfl

theorem State.chan_setChan_other (s : State) {c d : Chan} (h : d ≠ c) (r : ChanRegs) :
    (s.setChan c r).chan d = s.chan d := by
  cases c <;> cases d <;> first | rfl | exact absurd rfl h

@[simp] theorem State.setChan_setChan (s : State) (c : Chan) (r q : ChanRegs) :
    (s.setChan c r).setChan c q = s.setChan c q := by
  cases c <;> rfl

@[simp] theorem State.setChan_chan (s : State) (c : Chan) : s.setChan c (s.chan c) = s := by
  cases c <;> rfl

@[simp] theorem State.chan_signal (s : State) (e : Event) (c : Chan) : (s.signal e).chan c = s.chan c := by
  cases c <;> rfl

@[simp] theorem State.chan_ack (s : State) (e : Event) (c : Chan) : (s.ack e).chan c = s.chan c := by
  cases c <;> rfl

@[simp] theorem State.chan_setFlag (s : State) (f : Flag) (c : Chan) : (s.setFlag f).chan c = s.chan c := by
  cases c <;> rfl

@[simp] theorem State.chan_clearFlag (s : State) (f : Flag) (c : Chan) : (s.clearFlag f).chan c = s.chan c := by
  cases c <;> rfl

/-! ### teResume -/

@[simp] theorem State.teResume_cfg (s : State) (c : Chan) : (s.teResume c).cfg = s.cfg := by unfold State.teResume; split <;> simp
@[simp] theorem State.teResume_phase (s : State) (c : Chan) : (s.teResume c).phase = s.phase := by unfold State.teResume; split <;> simp
@[simp] theorem State.teResume_script (s : State) (c : Chan) : (s.teResume c).script = s.script := by unfold State.teResume; split <;> simp
@[simp] theorem State.teResume_acqState (s : State) (c : Chan) : (s.teResume c).acqState = s.acqState := by unfold State.teResume; split <;> simp
@[simp] theorem State.teResume_flags (s : State) (c : Chan) : (s.teResume c).flags = s.flags := by unfold State.teResume; split <;> simp
@[simp] theorem State.teResume_evtPending (s : State) (c : Chan) : (s.teResume c).evtPending = s.evtPending := by unfold State.teResume; split <;> simp
@[simp] theorem State.teResume_altCount (s : State) (c : Chan) : (s.teResume c).altCount = s.altCount := by unfold State.teResume; split <;> simp
@[simp] theorem State.teResume_ampEn (s : State) (c : Chan) : (s.teResume c).ampEn = s.ampEn := by unfold State.teResume; split <;> simp
@[simp] theorem State.teResume_jobInd (s : State) (c : Chan) : (s.teResume c).jobInd = s.jobInd := by unfold State.teResume; split <;> simp
@[simp] theorem State.teResume_rxq (s : State) (c : Chan) : (s.teResume c).rxq = s.rxq := by unfold State.teResume; split <;> simp
@[simp] theorem State.teResume_txs (s : State) (c : Chan) : (s.teResume c).txs = s.txs := by unfold State.teResume; split <;> simp
@[simp] theorem State.teResume_cs (s : State) (c : Chan) : (s.teResume c).cs = s.cs := by unfold State.teResume; split <;> simp
@[simp] theorem State.teResume_ct (s : State) (c : Chan) : (s.teResume c).ct = s.ct := by unfold State.teResume; split <;> simp
@[simp] theorem State.teResume_gt (s : State) (c : Chan) : (s.teResume c).gt = s.gt := by unfold State.teResume; split <;> simp
@[simp] theorem State.teResume_dacOut (s : State) (c : Chan) : (s.teResume c).dacOut = s.dacOut := by unfold State.teResume; split <;> simp
@[simp] theorem State.teResume_dacTrace (s : State) (c : Chan) : (s.teResume c).dacTrace = s.dacTrace := by unfold State.teResume; split <;> simp
@[simp] theorem State.teResume_mem (s : State) (c : Chan) : (s.teResume c).mem = s.mem := by unfold State.teResume; split <;> simp

theorem State.chan_teResume_other (s : State) {c d : Chan} (h : d ≠ c) : (s.teResume c).chan d = s.chan d := by
  unfold State.teResume; split <;> simp [State.chan_setChan_other, h]

/-! ### teSuspend -/

@[simp] theorem State.teSuspend_cfg (s : State) (c : Chan) : (s.teSuspend c).cfg = s.cfg := by unfold State.teSuspend; split <;> simp
@[simp] theorem State.teSuspend_phase (s : State) (c : Chan) : (s.teSuspend c).phase = s.phase := by unfold State.teSuspend; split <;> simp
@[simp] theorem State.teSuspend_script (s : State) (c : Chan) : (s.teSuspend c).script = s.script := by unfold State.teSuspend; split <;> simp
@[simp] theorem State.teSuspend_acqState (s : State) (c : Chan) : (s.teSuspend c).acqState = s.acqState := by unfold State.teSuspend; split <;> simp
@[simp] theorem State.teSuspend_flags (s : State) (c : Chan) : (s.teSuspend c).flags = s.flags := by unfold State.teSuspend; split <;> simp
@[simp] theorem State.teSuspend_evtPending (s : State) (c : Chan) : (s.teSuspend c).evtPending = s.evtPending := by unfold State.teSuspend; split <;> simp
@[simp] theorem State.teSuspend_altCount (s : State) (c : Chan) : (s.teSuspend c).altCount = s.altCount := by unfold State.teSuspend; split <;> simp
@[simp] theorem State.teSuspend_ampEn (s : State) (c : Chan) : (s.teSuspend c).ampEn = s.ampEn := by unfold State.teSuspend; split <;> simp
@[simp] theorem State.teSuspend_jobInd (s : State) (c : Chan) : (s.teSuspend c).jobInd = s.jobInd := by unfold State.teSuspend; split <;> simp
@[simp] theorem State.teSuspend_rxq (s : State) (c : Chan) : (s.teSuspend c).rxq = s.rxq := by unfold State.teSuspend; split <;> simp
@[simp] theorem State.teSuspend_txs (s : State) (c : Chan) : (s.teSuspend c).txs = s.txs := by unfold State.teSuspend; split <;> simp
@[simp] theorem State.teSuspend_cs (s : State) (c : Chan) : (s.teSuspend c).cs = s.cs := by unfold State.teSuspend; split <;> simp
@[simp] theorem State.teSuspend_ct (s : State) (c : Chan) : (s.teSuspend c).ct = s.ct := by unfold State.teSuspend; split <;> simp
@[simp] theorem State.teSuspend_gt (s : State) (c : Chan) : (s.teSuspend c).gt = s.gt := by unfold State.teSuspend; split <;> simp
@[simp] theorem State.teSuspend_dacOut (s : State) (c : Chan) : (s.teSuspend c).dacOut = s.dacOut := by unfold State.teSuspend; split <;> simp
@[simp] theorem State.teSuspend_dacTrace (s : State) (c : Chan) : (s.teSuspend c).dacTrace = s.dacTrace := by unfold State.teSuspend; split <;> simp
@[simp] theorem State.teSuspend_mem (s : State) (c : Chan) : (s.teSuspend c).mem = s.mem := by unfold State.teSuspend; split <;> simp

theorem State.chan_teSuspend_other (s : State) {c d : Chan} (h : d ≠ c) : (s.teSuspend c).chan d = s.chan d := by
  unfold State.teSuspend; split <;> simp [State.chan_setChan_other, h]

/-! ### teDisable -/

@[simp] theorem State.teDisable_cfg (s : State) (c : Chan) : (s.teDisable c).cfg = s.cfg := by unfold State.teDisable; simp
@[simp] theorem State.teDisable_phase (s : State) (c : Chan) : (s.teDisable c).phase = s.phase := by unfold State.teDisable; simp
@[simp] theorem State.teDisable_script (s : State) (c : Chan) : (s.teDisable c).script = s.script := by unfold State.teDisable; simp
@[simp] theorem State.teDisable_acqState (s : State) (c : Chan) : (s.teDisable c).acqState = s.acqState := by unfold State.teDisable; simp
@[simp] theorem State.teDisable_flags (s : State) (c : Chan) : (s.teDisable c).flags = s.flags := by unfold State.teDisable; simp
@[simp] theorem State.teDisable_evtPending (s : State) (c : Chan) : (s.teDisable c).evtPending = s.evtPending := by unfold State.teDisable; simp
@[simp] theorem State.teDisable_altCount (s : State) (c : Chan) : (s.teDisable c).altCount = s.altCount := by unfold State.teDisable; simp
@[simp] theorem State.teDisable_ampEn (s : State) (c : Chan) : (s.teDisable c).ampEn = s.ampEn := by unfold State.teDisable; simp
@[simp] theorem State.teDisable_jobInd (s : State) (c : Chan) : (s.teDisable c).jobInd = s.jobInd := by unfold State.teDisable; simp
@[simp] theorem State.teDisable_rxq (s : State) (c : Chan) : (s.teDisable c).rxq = s.rxq := by unfold State.teDisable; simp
@[simp] theorem State.teDisable_txs (s : State) (c : Chan) : (s.teDisable c).txs = s.txs := by unfold State.teDisable; simp
@[simp] theorem State.teDisable_cs (s : State) (c : Chan) : (s.teDisable c).cs = s.cs := by unfold State.teDisable; simp
@[simp] theorem State.teDisable_ct (s : State) (c : Chan) : (s.teDisable c).ct = s.ct := by unfold State.teDisable; simp
@[simp] theorem State.teDisable_gt (s : State) (c : Chan) : (s.teDisable c).gt = s.gt := by unfold State.teDisable; simp
@[simp] theorem State.teDisable_dacOut (s : State) (c : Chan) : (s.teDisable c).dacOut = s.dacOut := by unfold State.teDisable; simp
@[simp] theorem State.teDisable_dacTrace (s : State) (c : Chan) : (s.teDisable c).dacTrace = s.dacTrace := by unfold State.teDisable; simp
@[simp] theorem State.teDisable_mem (s : State) (c : Chan) : (s.teDisable c).mem = s.mem := by unfold State.teDisable; simp

theorem State.chan_teDisable_other (s : State) {c d : Chan} (h : d ≠ c) : (s.teDisable c).chan d = s.chan d := by
  unfold State.teDisable; simp [State.chan_setChan_other, h]

theorem State.chan_teResume_of_suspended (s : State) (c : Chan) (h : (s.chan c).state = .suspended) :
    (s.teResume c).chan c = { s.chan c with state := .active } := by
  simp [State.teResume, h]

theorem State.teResume_of_not_suspended (s : State) (c : Chan) (h : (s.chan c).state ≠ .suspended) :
    s.teResume c = s := by
  simp [State.teResume, h]

theorem State.chan_teSuspend_of_active (s : State) (c : Chan) (h : (s.chan c).state = .active) :
    (s.teSuspend c).chan c = { s.chan c with state := .suspended, trig := false } := by
  simp [State.teSuspend, h]

/-! ### Answers of operations -/

@[simp] theorem answer_ok (s : State) : answer (.ok s) = .next s := rfl

@[simp] theorem answer_error (r : Refusal) : answer (.error r) = .refused r := rfl

theorem answer_eq_next {x : Except Refusal State} {t : State} : answer x = .next t ↔ x = .ok t := by
  cases x <;> simp [answer]

/-! ### Reset -/

@[simp] theorem State.resetWith_cfg (p : Params) : (State.resetWith p).cfg = p := rfl
@[simp] theorem State.resetWith_phase (p : Params) : (State.resetWith p).phase = .boot := rfl
@[simp] theorem State.resetWith_mem (p : Params) : (State.resetWith p).mem = [] := rfl
@[simp] theorem State.resetWith_script (p : Params) : (State.resetWith p).script = [] := rfl
@[simp] theorem State.resetWith_chan (p : Params) (c : Chan) : (State.resetWith p).chan c = ChanRegs.reset := by
  cases c <;> rfl

/-! ### The counters inside their registers -/

theorem guardDown_of_ne {n : Word} (h : n ≠ 0) : guardDown n = n - 1 := if_neg h

theorem blockDown_of_ne {n : Half} (h : n ≠ 0) : blockDown n = n - 1 := if_neg h

theorem carrierUp_of_ne {n : Half} (h : n ≠ 0xFFFF) : carrierUp n = n + 1 := if_neg h

theorem altUp_of_ne {n : Byte} (h : n ≠ 0xFF) : altUp n = n + 1 := if_neg h

/-- A count of at least one goes down by one. -/
theorem blockDown_toNat {n : Half} (h : 1 ≤ n.toNat) : (blockDown n).toNat = n.toNat - 1 := by
  have hn : n ≠ 0 := by rintro rfl; simp at h
  have := n.isLt
  rw [blockDown_of_ne hn, BitVec.toNat_sub]; simp; omega

end Sys2Proof.Machine
end

