-- ==== Sys2Proof/Laws/Memory.lean ====
section
/-! SUPPORT. The laws of memory: a byte written is read back, every other byte stands, and every operation keeps the canonical
form. -/

namespace Sys2Proof.Machine

open Sys2Proof

/-! ### One byte -/

theorem Memory.find_write_same (m : Memory) (a : Nat) (b : Byte) : (Memory.write m a b).find a = some b := by
  induction m with
  | nil => simp [Memory.write, Memory.find]
  | cons x rest ih =>
    obtain ⟨x, y⟩ := x
    unfold Memory.write
    split
    · simp [Memory.find]
    · split
      · simp [Memory.find]
      · rename_i h1 h2
        have : x ≠ a := fun h => h2 h.symm
        simp [Memory.find, this, ih]

theorem Memory.find_write_other (m : Memory) {a c : Nat} (h : c ≠ a) (b : Byte) :
    (Memory.write m a b).find c = Memory.find m c := by
  induction m with
  | nil => simp [Memory.write, Memory.find, h.symm]
  | cons x rest ih =>
    obtain ⟨x, y⟩ := x
    unfold Memory.write
    split
    · simp [Memory.find, h.symm]
    · split
      · rename_i h1 h2
        subst h2
        simp [Memory.find, h.symm]
      · simp [Memory.find, ih]

@[simp] theorem Memory.read_write_same (m : Memory) (a : Nat) (b : Byte) : (Memory.write m a b).read a = b := by
  simp [Memory.read, Memory.find_write_same]

theorem Memory.read_write_other (m : Memory) {a c : Nat} (h : c ≠ a) (b : Byte) :
    (Memory.write m a b).read c = Memory.read m c := by
  simp [Memory.read, Memory.find_write_other m h]

/-- What a byte reads as after a write, whichever byte it is. -/
theorem Memory.read_write (m : Memory) (a c : Nat) (b : Byte) :
    (Memory.write m a b).read c = if c = a then b else Memory.read m c := by
  split
  · rename_i h; subst h; simp
  · rename_i h; exact Memory.read_write_other m h b

/-! ### The canonical form -/

theorem Memory.mem_write {m : Memory} {a : Nat} {b : Byte} {x : Host.Cell} (h : x ∈ Memory.write m a b) :
    x = (a, b) ∨ x ∈ m := by
  induction m with
  | nil => simpa [Memory.write] using h
  | cons y rest ih =>
    obtain ⟨k, v⟩ := y
    unfold Memory.write at h
    split at h
    · simpa using h
    · split at h
      · rcases List.mem_cons.mp h with h | h
        · exact .inl h
        · exact .inr (List.mem_cons_of_mem _ h)
      · rcases List.mem_cons.mp h with h | h
        · exact .inr (h ▸ List.mem_cons_self)
        · exact (ih h).imp id (List.mem_cons_of_mem _)

theorem Memory.write_sorted {m : Memory} (a : Nat) (b : Byte) (h : m.Pairwise (fun x y => x.1 < y.1)) :
    (Memory.write m a b).Pairwise (fun x y => x.1 < y.1) := by
  induction m with
  | nil => simp [Memory.write]
  | cons y rest ih =>
    obtain ⟨k, v⟩ := y
    obtain ⟨h1, h2⟩ := List.pairwise_cons.mp h
    unfold Memory.write
    split
    · rename_i hlt
      refine List.pairwise_cons.mpr ⟨fun x hx => ?_, h⟩
      rcases List.mem_cons.mp hx with rfl | hx
      · exact hlt
      · exact Nat.lt_trans hlt (h1 x hx)
    · split
      · rename_i heq
        subst heq
        exact List.pairwise_cons.mpr ⟨fun x hx => h1 x hx, h2⟩
      · rename_i hle hne
        refine List.pairwise_cons.mpr ⟨fun x hx => ?_, ih h2⟩
        rcases Memory.mem_write hx with rfl | hx
        · simp only; omega
        · exact h1 x hx

/-- A write inside the address space keeps the canonical form. -/
theorem Memory.write_wf {m : Memory} {a : Nat} (b : Byte) (ha : a < 2 ^ 32) (h : Memory.Wf m) :
    Memory.Wf (Memory.write m a b) := by
  refine ⟨Memory.write_sorted a b h.1, fun x hx => ?_⟩
  rcases Memory.mem_write hx with rfl | hx
  · exact ha
  · exact h.2 x hx

theorem Memory.wf_iff (m : Memory) : Memory.wf m = true ↔ Memory.Wf m := by simp [Memory.wf]

@[simp] theorem Memory.wf_nil : Memory.Wf ([] : Memory) := by simp [Memory.Wf]

/-- Equal memories are equal data: in canonical form the listed bytes determine the list. -/
theorem Memory.ext_find {m k : Memory} (hm : Memory.Wf m) (hk : Memory.Wf k)
    (h : ∀ a, Memory.find m a = Memory.find k a) : m = k := by
  have key : ∀ (x : Host.Cell) (rest : Memory), (∀ y ∈ rest, x.1 < y.1) → ∀ a, a ≤ x.1 → Memory.find rest a = none := by
    intro x rest hx a ha
    induction rest with
    | nil => rfl
    | cons y ys ih =>
      have hy := hx y List.mem_cons_self
      have hne : y.1 ≠ a := by omega
      obtain ⟨k, v⟩ := y
      simp only [Memory.find]
      rw [if_neg hne]
      exact ih fun z hz => hx z (List.mem_cons_of_mem _ hz)
  induction m generalizing k with
  | nil =>
    cases k with
    | nil => rfl
    | cons y ys => obtain ⟨a, b⟩ := y; have := h a; simp [Memory.find] at this
  | cons x xs ih =>
    obtain ⟨a, b⟩ := x
    cases k with
    | nil => have := h a; simp [Memory.find] at this
    | cons y ys =>
      obtain ⟨c, d⟩ := y
      have hx := List.pairwise_cons.mp hm.1
      have hy := List.pairwise_cons.mp hk.1
      have hac : a = c := by
        rcases Nat.lt_trichotomy a c with hlt | heq | hgt
        · have h1 := h a
          have h2 : Memory.find ys a = none := key (c, d) ys hy.1 a (Nat.le_of_lt hlt)
          have hne : c ≠ a := by omega
          simp [Memory.find, hne, h2] at h1
        · exact heq
        · have h1 := h c
          have h2 : Memory.find xs c = none := key (a, b) xs hx.1 c (Nat.le_of_lt hgt)
          have hne : a ≠ c := by omega
          simp [Memory.find, hne, h2] at h1
      subst hac
      have hbd : b = d := by have := h a; simpa [Memory.find] using this
      subst hbd
      refine congrArg _ (ih ⟨hx.2, fun z hz => hm.2 z (List.mem_cons_of_mem _ hz)⟩
        ⟨hy.2, fun z hz => hk.2 z (List.mem_cons_of_mem _ hz)⟩ fun e => ?_)
      by_cases he : a = e
      · subst he
        rw [key (a, b) xs hx.1 a (Nat.le_refl _), key (a, b) ys hy.1 a (Nat.le_refl _)]
      · have := h e
        simpa [Memory.find, he] using this

/-! ### Wider values -/

/-- A store keeps every byte outside the stored ones. -/
theorem Memory.read_writeLE_outside (m : Memory) (a c : Nat) (n : Size) (v : Word) (h : c < a ∨ a + n.bytes ≤ c) :
    (Memory.writeLE m a n v).read c = Memory.read m c := by
  cases n <;> simp only [Size.bytes] at h <;> simp only [Memory.writeLE, Memory.read_write] <;>
    (repeat rw [if_neg (by omega)])

/-- A store inside the address space keeps the canonical form. -/
theorem Memory.writeLE_wf {m : Memory} {a : Nat} (n : Size) (v : Word) (ha : a + n.bytes ≤ 2 ^ 32) (h : Memory.Wf m) :
    Memory.Wf (Memory.writeLE m a n v) := by
  cases n <;> simp only [Size.bytes] at ha <;> simp only [Memory.writeLE] <;>
    (repeat' first | exact h | (refine Memory.write_wf _ (by omega) ?_))

/-- The bytes of a 16-bit store. -/
theorem Memory.read_writeLE_b2 (m : Memory) (a c : Nat) (v : Word) :
    (Memory.writeLE m a .b2 v).read c =
      if c = a + 1 then byteOf v 1 else if c = a then byteOf v 0 else Memory.read m c := by
  simp only [Memory.writeLE, Memory.read_write]

/-- The bytes of a 32-bit store. -/
theorem Memory.read_writeLE_b4 (m : Memory) (a c : Nat) (v : Word) :
    (Memory.writeLE m a .b4 v).read c =
      if c = a + 3 then byteOf v 3 else if c = a + 2 then byteOf v 2 else if c = a + 1 then byteOf v 1
      else if c = a then byteOf v 0 else Memory.read m c := by
  simp only [Memory.writeLE, Memory.read_write]

/-- Two bytes of a 16-bit value put together again. -/
theorem le16_bytes (v : Half) : le16 (byteOf v 0) (byteOf v 1) = v := by
  apply BitVec.eq_of_getLsbD_eq
  intro i hi
  simp only [le16, byteOf, BitVec.getLsbD_setWidth, BitVec.getLsbD_append, BitVec.getLsbD_extractLsb']
  interval_cases i <;> simp

/-- The low two bytes of a wider value put together. -/
theorem le16_bytes_word (v : Word) : le16 (byteOf v 0) (byteOf v 1) = v.setWidth 16 := by
  apply BitVec.eq_of_getLsbD_eq
  intro i hi
  simp only [le16, byteOf, BitVec.getLsbD_setWidth, BitVec.getLsbD_append, BitVec.getLsbD_extractLsb']
  interval_cases i <;> simp

/-- Four bytes of a 32-bit value put together again. -/
theorem le32_bytes (v : Word) : le32 (byteOf v 0) (byteOf v 1) (byteOf v 2) (byteOf v 3) = v := by
  apply BitVec.eq_of_getLsbD_eq
  intro i hi
  simp only [le32, byteOf, BitVec.getLsbD_setWidth, BitVec.getLsbD_append, BitVec.getLsbD_extractLsb']
  interval_cases i <;> simp

/-- A 32-bit value stored is read back. -/
theorem Memory.readLE_writeLE_b4 (m : Memory) (a : Nat) (v : Word) : (Memory.writeLE m a .b4 v).readLE a .b4 = v := by
  simp [Memory.readLE, Memory.read_writeLE_b4, le32_bytes]

/-- A 16-bit value stored is read back. -/
theorem Memory.readLE_writeLE_b2 (m : Memory) (a : Nat) (v : Half) :
    (Memory.writeLE m a .b2 (v.setWidth 32)).readLE a .b2 = v.setWidth 32 := by
  have h : ((v.setWidth 32 : Word).setWidth 16 : Half) = v := by
    apply BitVec.eq_of_toNat_eq
    have := v.isLt
    simp only [BitVec.toNat_setWidth]
    omega
  simp [Memory.readLE, Memory.read_writeLE_b2, le16_bytes_word]

/-- A read of bytes that agree gives the same value. -/
theorem Memory.readLE_congr {m k : Memory} {a : Nat} {n : Size}
    (h : ∀ c, a ≤ c → c < a + n.bytes → Memory.read m c = Memory.read k c) : Memory.readLE m a n = Memory.readLE k a n := by
  cases n <;> simp only [Size.bytes] at h <;> simp only [Memory.readLE]
  · rw [h a (by omega) (by omega)]
  · rw [h a (by omega) (by omega), h (a + 1) (by omega) (by omega)]
  · rw [h a (by omega) (by omega), h (a + 1) (by omega) (by omega), h (a + 2) (by omega) (by omega),
      h (a + 3) (by omega) (by omega)]

end Sys2Proof.Machine
end

