-- ==== Sys2Proof/Laws/Map.lean ====
section
/-! SUPPORT. The address map: under a legal parameter set the regions share no address, so that a range inside a region is found in that
region and in no other (20_memory.md R63). -/

namespace Sys2Proof.Machine

open Sys2Proof

theorem Region.mem_all (r : Region) : r ∈ Region.all := by cases r <;> decide

theorem Region.apart_comm {p : Params} {r q : Region} (h : r.Apart p q) : q.Apart p r := h.symm

/-- Two different regions of a legal map share no address. -/
theorem Region.apart {p : Params} (h : p.LegalMap) {r q : Region} (hne : r ≠ q) : r.Apart p q := by
  have hp := h.1
  simp only [Region.all, List.pairwise_cons, List.mem_cons, List.not_mem_nil, or_false, forall_eq_or_imp, forall_eq] at hp
  obtain ⟨⟨a1, a2, a3, a4, a5, a6⟩, ⟨b1, b2, b3, b4, b5⟩, ⟨c1, c2, c3, c4⟩, ⟨d1, d2, d3⟩, ⟨e1, e2⟩, f1, -⟩ := hp
  cases r <;> cases q <;> first | exact absurd rfl hne | assumption | exact Region.apart_comm ‹_›

/-- A range of at least one byte lies in one region at most. -/
theorem Region.holds_unique {p : Params} (h : p.LegalMap) {r q : Region} {a n : Nat} (hn : 0 < n)
    (hr : r.Holds p a n) (hq : q.Holds p a n) : r = q := by
  by_contra hne
  rcases Region.apart h hne with h1 | h1 <;> (have := hr.1; have := hr.2; have := hq.1; have := hq.2; omega)

/-- The region found holds the range. -/
theorem regionOf_some {p : Params} {a n : Nat} {r : Region} (h : regionOf p a n = some r) : r.Holds p a n := by
  have := List.find?_some h
  simpa using this

/-- A range inside a region of a legal map is found there. -/
theorem regionOf_eq {p : Params} (h : p.LegalMap) {r : Region} {a n : Nat} (hn : 0 < n) (hr : r.Holds p a n) :
    regionOf p a n = some r := by
  cases hx : regionOf p a n with
  | none =>
    have := List.find?_eq_none.mp hx r (Region.mem_all r)
    simp [hr.1, hr.2] at this
  | some q => rw [Region.holds_unique h hn (regionOf_some hx) hr]

/-- Where a region of a legal map ends. -/
theorem Region.in_space {p : Params} (h : p.LegalMap) (r : Region) : r.base p + r.size p ≤ 2 ^ 32 :=
  (h.2.1 r (Region.mem_all r)).2

theorem Region.base_even {p : Params} (h : p.LegalMap) (r : Region) : r.base p % 2 = 0 :=
  (h.2.1 r (Region.mem_all r)).1

/-- A base is a 32-bit address. -/
theorem Region.toNat_base {p : Params} (h : p.LegalMap) (r : Region) (hs : 0 < r.size p) :
    (BitVec.ofNat 32 (r.base p)).toNat = r.base p := by
  have := Region.in_space h r
  simp only [BitVec.toNat_ofNat]
  omega

/-- An address inside a region is a 32-bit address. -/
theorem Region.toNat_offset {p : Params} (h : p.LegalMap) (r : Region) {k : Nat} (hk : k < r.size p) :
    (BitVec.ofNat 32 (r.base p + k)).toNat = r.base p + k := by
  have := Region.in_space h r
  simp only [BitVec.toNat_ofNat]
  omega

/-- The address of a record of DESC. -/
theorem toNat_descAddr {p : Params} (h : p.LegalMap) (c : Chan) : (descAddr p c).toNat = p.descBase + 16 * c.code.toNat := by
  have := Region.in_space h .desc
  simp only [Region.base, Region.size] at this
  have hc : c.code.toNat ≤ 2 := by cases c <;> decide
  simp only [descAddr, BitVec.toNat_ofNat]
  omega

theorem toNat_descAddr_add {p : Params} (h : p.LegalMap) (c : Chan) (k : Nat) (hk : k < 16) :
    (descAddr p c + BitVec.ofNat 32 k).toNat = p.descBase + 16 * c.code.toNat + k := by
  have := Region.in_space h .desc
  simp only [Region.base, Region.size] at this
  have hc : c.code.toNat ≤ 2 := by cases c <;> decide
  rw [BitVec.toNat_add, toNat_descAddr h]
  simp only [BitVec.toNat_ofNat]
  omega

theorem descAddr_aligned {p : Params} (h : p.LegalMap) (c : Chan) : (descAddr p c).toNat % 16 = 0 := by
  rw [toNat_descAddr h]; have := h.2.2.1; omega

theorem descAddr_ne_zero {p : Params} (h : p.LegalMap) (c : Chan) : descAddr p c ≠ 0 := by
  intro hz
  have h1 := toNat_descAddr h c
  rw [hz] at h1
  have := h.2.2.2
  simp at h1
  omega

/-- Four bytes of a record of DESC lie in DESC. -/
theorem descAddr_holds {p : Params} (c : Chan) {k : Nat} (hk : k ≤ 12) :
    Region.Holds p .desc (p.descBase + 16 * c.code.toNat + k) 4 := by
  have hc : c.code.toNat ≤ 2 := by cases c <;> decide
  simp only [Region.Holds, Region.base, Region.size]
  omega

end Sys2Proof.Machine
end

