-- ==== Sys2Proof/Laws/Access.lean ====
section
/-! SUPPORT. One spec lemma for each of the primitives `memRead` and `memWrite`: everything an answer can be, and where each region
answers (20_memory.md R61, R69, R70). -/

namespace Sys2Proof.Machine

open Sys2Proof

/-- The two capture ports. -/
def Region.isPort : Region → Bool
  | .adc0 => true
  | .adc1 => true
  | _ => false

/-- Everything a read that succeeds can be. -/
theorem memRead_ok {who : Master} {draw : Half} {a : Word} {n : Size} {s : State} {v : Word}
    (h : memRead who draw a n s = .ok v) :
    a.toNat % n.bytes = 0 ∧ ∃ r, regionOf s.cfg a.toNat n.bytes = some r ∧ r.mayRead who = true ∧
      ((r.isPort = true ∧ n = .b2 ∧ v = draw.setWidth 32) ∨ (r.isPort = false ∧ v = s.mem.readLE a.toNat n)) := by
  unfold memRead at h
  split at h
  · cases h
  · rename_i hal
    refine ⟨by simpa using hal, ?_⟩
    split at h
    · cases h
    · rename_i r hr
      refine ⟨r, hr, ?_⟩
      split at h
      · rename_i hm
        refine ⟨hm, ?_⟩
        cases r <;> simp only [Region.isPort] at h ⊢
        case adc0 => split at h <;> simp_all
        case adc1 => split at h <;> simp_all
        all_goals (injection h with h; simp [h])
      · cases h

/-- A read of memory the master may read. -/
theorem memRead_memory {who : Master} {draw : Half} {a : Word} {n : Size} {s : State} {r : Region} (hl : s.cfg.LegalMap)
    (hal : a.toNat % n.bytes = 0) (hr : r.Holds s.cfg a.toNat n.bytes) (hm : r.mayRead who = true) (hp : r.isPort = false) :
    memRead who draw a n s = .ok (s.mem.readLE a.toNat n) := by
  have hn : 0 < n.bytes := by cases n <;> decide
  unfold memRead
  rw [if_neg (by simpa using hal), regionOf_eq hl hn hr]
  simp only [hm, if_true]
  cases r <;> simp_all [Region.isPort]

/-- A 16-bit read of a capture port. -/
theorem memRead_port {who : Master} {draw : Half} {a : Word} {s : State} {r : Region} (hl : s.cfg.LegalMap)
    (hr : r.Holds s.cfg a.toNat 2) (hal : a.toNat % 2 = 0) (hm : r.mayRead who = true) (hp : r.isPort = true) :
    memRead who draw a .b2 s = .ok (draw.setWidth 32) := by
  unfold memRead
  rw [if_neg (by simpa [Size.bytes] using hal), show Size.bytes .b2 = 2 from rfl, regionOf_eq hl (by decide) hr]
  simp only [hm, if_true]
  cases r <;> simp_all [Region.isPort]

/-- Everything a write that succeeds can be. -/
theorem memWrite_ok {who : Master} {a : Word} {n : Size} {v : Word} {s t : State} (h : memWrite who a n v s = .ok t) :
    a.toNat % n.bytes = 0 ∧ ∃ r, regionOf s.cfg a.toNat n.bytes = some r ∧ r.mayWrite who = true ∧
      (r.immutable = true → s.phase = .boot) ∧
      ((r = .dacData ∧ n = .b2 ∧ t = { s with dacOut := v.setWidth 16, dacTrace := s.dacTrace ++ [v.setWidth 16] }) ∨
        (r ≠ .dacData ∧ t = { s with mem := s.mem.writeLE a.toNat n v })) := by
  unfold memWrite at h
  split at h
  · cases h
  · rename_i hal
    refine ⟨by simpa using hal, ?_⟩
    split at h
    · cases h
    · rename_i r hr
      refine ⟨r, hr, ?_⟩
      split at h
      · rename_i hm
        refine ⟨hm, ?_⟩
        split at h
        · cases h
        · rename_i him
          refine ⟨fun hi => ?_, ?_⟩
          · simpa [hi] using him
          · cases r
            case dacData => simp only at h; split at h <;> simp_all
            all_goals (injection h with h; simp [h])
      · cases h

/-- A write of memory the master may write. -/
theorem memWrite_memory {who : Master} {a : Word} {n : Size} {v : Word} {s : State} {r : Region} (hl : s.cfg.LegalMap)
    (hal : a.toNat % n.bytes = 0) (hr : r.Holds s.cfg a.toNat n.bytes) (hm : r.mayWrite who = true) (hd : r ≠ .dacData)
    (hi : r.immutable = true → s.phase = .boot) :
    memWrite who a n v s = .ok { s with mem := s.mem.writeLE a.toNat n v } := by
  have hn : 0 < n.bytes := by cases n <;> decide
  unfold memWrite
  rw [if_neg (by simpa using hal), regionOf_eq hl hn hr]
  simp only [hm, if_true]
  cases r <;> simp_all [Region.immutable]

/-- A 16-bit write of the output converter's port. -/
theorem memWrite_dac {a : Word} {v : Word} {s : State} (hl : s.cfg.LegalMap) (ha : a.toNat = s.cfg.dacData) :
    memWrite (.beat .emit) a .b2 v s =
      .ok { s with dacOut := v.setWidth 16, dacTrace := s.dacTrace ++ [v.setWidth 16] } := by
  have he : s.cfg.dacData % 2 = 0 := Region.base_even hl .dacData
  have hr : Region.Holds s.cfg .dacData a.toNat 2 := by simp [Region.Holds, Region.base, Region.size, ha]
  unfold memWrite
  rw [if_neg (by simpa [Size.bytes, ha] using he), show Size.bytes .b2 = 2 from rfl, regionOf_eq hl (by decide) hr]
  simp [Region.mayWrite, Region.immutable]

/-- What every write leaves: only the memory or the converter's port can change. -/
theorem memWrite_frame {who : Master} {a : Word} {n : Size} {v : Word} {s t : State} (h : memWrite who a n v s = .ok t) :
    t = { s with mem := t.mem, dacOut := t.dacOut, dacTrace := t.dacTrace } := by
  obtain ⟨-, r, -, -, -, h | h⟩ := memWrite_ok h <;> simp [h]

/-- A write keeps the canonical form of memory. -/
theorem memWrite_wf {who : Master} {a : Word} {n : Size} {v : Word} {s t : State}
    (h : memWrite who a n v s = .ok t) (hw : Memory.Wf s.mem) : Memory.Wf t.mem := by
  obtain ⟨hal, r, -, -, -, h | h⟩ := memWrite_ok h
  · simpa [h.2.2] using hw
  · have := a.isLt
    rw [h.2]
    refine Memory.writeLE_wf n v ?_ hw
    cases n <;> simp only [Size.bytes] at hal ⊢ <;> omega

/-- A write keeps every byte outside the range it stores. -/
theorem memWrite_read_outside {who : Master} {a : Word} {n : Size} {v : Word} {s t : State} {c : Nat}
    (h : memWrite who a n v s = .ok t) (hc : c < a.toNat ∨ a.toNat + n.bytes ≤ c) :
    Memory.read t.mem c = Memory.read s.mem c := by
  obtain ⟨-, r, hr, -, -, h | h⟩ := memWrite_ok h
  · simp [h.2.2]
  · rw [h.2]; exact Memory.read_writeLE_outside _ _ _ _ _ hc

end Sys2Proof.Machine
end

