-- ==== Sys2Proof/Laws/Transfer.lean ====
section
/-! SUPPORT. One spec lemma for each shared operation of the transfer engine: the descriptor's layout, the fetch, the record placed, the arbiter,
the element move and block completion (41_transfer_engine.md R158 to R162). -/

namespace Sys2Proof.Machine

open Sys2Proof

/-! ### The layout of a descriptor -/

/-- Reading back the fields of a descriptor's own words (R96). -/
theorem Descriptor.ofWords_ctrl (d : Descriptor) : Descriptor.ofWords d.ctrl d.src d.dst d.next = d := by
  obtain ⟨v, ba, es, si, di, rs, cn, s, t, n⟩ := d
  have hx : ∀ i, (Descriptor.ctrl ⟨v, ba, es, si, di, rs, cn, s, t, n⟩).getLsbD i =
      (cn ++ rs ++ BitVec.ofBool di ++ BitVec.ofBool si ++ es ++ ba ++ BitVec.ofBool v).getLsbD i := by
    intro i
    simp only [Descriptor.ctrl, BitVec.getLsbD_setWidth]
    by_cases hi : i < 32
    · simp [hi]
    · rw [BitVec.getLsbD_of_ge _ i (by omega)]; simp
  simp only [Descriptor.ofWords, Descriptor.mk.injEq, and_true]
  refine ⟨?_, ?_, ?_, ?_, ?_, ?_, ?_⟩
  · rw [hx]; simp only [BitVec.getLsbD_append]; simp
  · apply BitVec.eq_of_getLsbD_eq; intro i hi; rw [BitVec.getLsbD_extractLsb', hx]; simp only [BitVec.getLsbD_append]
    interval_cases i <;> simp
  · apply BitVec.eq_of_getLsbD_eq; intro i hi; rw [BitVec.getLsbD_extractLsb', hx]; simp only [BitVec.getLsbD_append]
    interval_cases i <;> simp
  · rw [hx]; simp only [BitVec.getLsbD_append]; simp
  · rw [hx]; simp only [BitVec.getLsbD_append]; simp
  · apply BitVec.eq_of_getLsbD_eq; intro i hi; rw [BitVec.getLsbD_extractLsb', hx]; simp only [BitVec.getLsbD_append]
    interval_cases i <;> simp
  · apply BitVec.eq_of_getLsbD_eq; intro i hi; rw [BitVec.getLsbD_extractLsb', hx]; simp only [BitVec.getLsbD_append]
    interval_cases i <;> simp

/-- Every CTRL word is the word of its own fields. -/
theorem Descriptor.ctrl_ofWords (a b c e : Word) : (Descriptor.ofWords a b c e).ctrl = a := by
  apply BitVec.eq_of_getLsbD_eq
  intro i hi
  simp only [Descriptor.ctrl, Descriptor.ofWords, BitVec.getLsbD_setWidth, BitVec.getLsbD_append, BitVec.getLsbD_extractLsb']
  interval_cases i <;> simp

theorem Descriptor.ctrl_valid (d : Descriptor) : d.ctrl.getLsbD 0 = d.valid :=
  congrArg Descriptor.valid (Descriptor.ofWords_ctrl d)

theorem Descriptor.ctrl_blockAct (d : Descriptor) : d.ctrl.extractLsb' 1 2 = d.blockAct :=
  congrArg Descriptor.blockAct (Descriptor.ofWords_ctrl d)

theorem Descriptor.ctrl_elemSize (d : Descriptor) : d.ctrl.extractLsb' 3 2 = d.elemSize :=
  congrArg Descriptor.elemSize (Descriptor.ofWords_ctrl d)

theorem Descriptor.ctrl_srcInc (d : Descriptor) : d.ctrl.getLsbD 5 = d.srcInc :=
  congrArg Descriptor.srcInc (Descriptor.ofWords_ctrl d)

theorem Descriptor.ctrl_dstInc (d : Descriptor) : d.ctrl.getLsbD 6 = d.dstInc :=
  congrArg Descriptor.dstInc (Descriptor.ofWords_ctrl d)

/-! ### What boot's descriptors say -/

theorem bootDescriptor_valid (p : Params) (c : Chan) : (bootDescriptor p c).valid = true := by cases c <;> rfl
theorem bootDescriptor_blockAct (p : Params) (c : Chan) : (bootDescriptor p c).blockAct = 3 := by cases c <;> rfl
theorem bootDescriptor_elemSize (p : Params) (c : Chan) : (bootDescriptor p c).elemSize = 1 := by cases c <;> rfl
theorem bootDescriptor_next (p : Params) (c : Chan) : (bootDescriptor p c).next = descAddr p c := by cases c <;> rfl

theorem elemSize_boot (p : Params) (c : Chan) : elemSize (bootDescriptor p c).ctrl = some .b2 := by
  simp [elemSize, Descriptor.ctrl_elemSize, bootDescriptor_elemSize]

theorem notifies_boot (p : Params) (c : Chan) : notifies (bootDescriptor p c).ctrl = true := by
  simp [notifies, Descriptor.ctrl_blockAct, bootDescriptor_blockAct]

theorem suspends_boot (p : Params) (c : Chan) : suspends (bootDescriptor p c).ctrl = true := by
  simp [suspends, Descriptor.ctrl_blockAct, bootDescriptor_blockAct]

theorem bootDescriptor_count {p : Params} (h : p.LegalWave) (c : Chan) : (bootDescriptor p c).count.toNat = blockCount p c := by
  obtain ⟨_, _, _, _, _, _, _, _, _⟩ := h
  cases c <;> simp only [bootDescriptor, blockCount, BitVec.toNat_ofNat] <;> omega

theorem blockCount_pos {p : Params} (h : p.LegalWave) (c : Chan) : 1 ≤ blockCount p c ∧ blockCount p c ≤ 65535 := by
  obtain ⟨_, _, _, _, _, _, _, _, _⟩ := h
  cases c <;> simp only [blockCount] <;> omega

/-- Where a channel reads and writes: the regions of R98's three records. -/
def srcRegion : Chan → Region
  | .emit => .chirp
  | .cap0 => .adc0
  | .cap1 => .adc1

/-- The region a channel writes. -/
def dstRegion : Chan → Region
  | .emit => .dacData
  | .cap0 => .cap0
  | .cap1 => .cap1

theorem Region.size_pos {p : Params} (h : p.LegalWave) (r : Region) : 0 < r.size p := by
  obtain ⟨_, _, _, _, _, _, _, _, _⟩ := h
  cases r <;> simp only [Region.size] <;> omega

theorem bootDescriptor_src {p : Params} (h : p.Legal) (c : Chan) :
    (bootDescriptor p c).src.toNat = (srcRegion c).base p := by
  have := Region.toNat_base h.2.2 (srcRegion c) (Region.size_pos h.1 _)
  cases c <;> exact this

theorem bootDescriptor_dst {p : Params} (h : p.Legal) (c : Chan) :
    (bootDescriptor p c).dst.toNat = (dstRegion c).base p := by
  have := Region.toNat_base h.2.2 (dstRegion c) (Region.size_pos h.1 _)
  cases c <;> exact this

/-- Boot's descriptors hold no reserved value (R97). -/
theorem bootDescriptor_reserved {p : Params} (h : p.Legal) (c : Chan) : (bootDescriptor p c).reservedValue = false := by
  have h1 := bootDescriptor_count h.1 c
  have h2 := (blockCount_pos h.1 c).1
  have h3 : (bootDescriptor p c).count ≠ 0 := by intro hz; rw [hz] at h1; simp at h1; omega
  have h4 := descAddr_aligned h.2.2 c
  have h5 : (bootDescriptor p c).src.toNat % 2 = 0 := by rw [bootDescriptor_src h]; exact Region.base_even h.2.2 _
  have h6 : (bootDescriptor p c).dst.toNat % 2 = 0 := by rw [bootDescriptor_dst h]; exact Region.base_even h.2.2 _
  have h7 : (bootDescriptor p c).reserved = 0 := by cases c <;> rfl
  simp [Descriptor.reservedValue, bootDescriptor_elemSize, h7, bootDescriptor_next, h4, h5, h6]
  exact h3

/-! ### The descriptor fetch -/

/-- Everything a fetch that succeeds can be. -/
theorem State.loadDesc_ok {s : State} {r : ChanRegs} {a : Word} {o : Option ChanRegs} (h : s.loadDesc r a = .ok o) :
    a.toNat % 16 = 0 ∧
      ((o = none ∧ (s.mem.readLE a.toNat .b4).getLsbD 0 = false) ∨
       ∃ d, o = some (r.load d (s.mem.readLE a.toNat .b4)) ∧ d.valid = true ∧ d.reservedValue = false ∧
        d = Descriptor.ofWords (s.mem.readLE a.toNat .b4) (s.mem.readLE (a + 4).toNat .b4) (s.mem.readLE (a + 8).toNat .b4)
          (s.mem.readLE (a + 12).toNat .b4)) := by
  have key : ∀ {b : Word} {v : Word}, memRead .fetch 0 b .b4 s = .ok v → v = s.mem.readLE b.toNat .b4 := by
    intro b v hb
    obtain ⟨-, r, -, hm, hv⟩ := memRead_ok hb
    cases r <;> simp [Region.mayRead, Region.isPort] at hm hv
    exact hv
  unfold State.loadDesc at h
  split at h
  · cases h
  · rename_i hal
    refine ⟨by simpa using hal, ?_⟩
    cases h1 : memRead .fetch 0 a .b4 s with
    | error e => simp only [h1, bind, Except.bind] at h; cases h
    | ok ctrl =>
      have e1 := key h1
      simp only [h1, bind, Except.bind] at h
      split at h
      · rename_i hv
        refine .inl ⟨?_, by rw [← e1]; exact hv⟩
        injection h with h; exact h.symm
      · rename_i hv
        cases h2 : memRead .fetch 0 (a + 4) .b4 s with
        | error e => simp only [readDescriptor, h2, bind, Except.bind] at h; cases h
        | ok x2 =>
          cases h3 : memRead .fetch 0 (a + 8) .b4 s with
          | error e => simp only [readDescriptor, h2, h3, bind, Except.bind] at h; cases h
          | ok x3 =>
            cases h4 : memRead .fetch 0 (a + 12) .b4 s with
            | error e => simp only [readDescriptor, h2, h3, h4, bind, Except.bind] at h; cases h
            | ok x4 =>
              simp only [readDescriptor, h2, h3, h4, bind, Except.bind, pure, Except.pure] at h
              split at h
              · cases h
              · rename_i hres
                refine .inr ⟨Descriptor.ofWords ctrl x2 x3 x4, ?_, ?_, ?_, ?_⟩
                · injection h with h; rw [← h, e1]
                · simpa [Descriptor.ofWords] using hv
                · simpa using hres
                · rw [e1, key h2, key h3, key h4]

/-- The fetch of a record that boot wrote. -/
theorem State.loadDesc_boot {s : State} {c : Chan} (r : ChanRegs) (hl : s.cfg.Legal) (hd : s.HoldsDescriptor c) :
    s.loadDesc r (descAddr s.cfg c) = .ok (some (r.load (bootDescriptor s.cfg c) (bootDescriptor s.cfg c).ctrl)) := by
  have ha := toNat_descAddr hl.2.2 c
  have hb := hl.2.2.2.2.1
  have rd : ∀ k, k ≤ 12 → k % 4 = 0 → memRead .fetch 0 (descAddr s.cfg c + BitVec.ofNat 32 k) .b4 s =
      .ok (s.mem.readLE (s.cfg.descBase + 16 * c.code.toNat + k) .b4) := by
    intro k hk h4
    have hk' := toNat_descAddr_add hl.2.2 c k (by omega)
    rw [memRead_memory (r := .desc) hl.2.2 (by rw [hk']; simp only [Size.bytes]; omega)
      (by rw [hk']; exact descAddr_holds c hk) rfl rfl, hk']
  have r0 := rd 0 (by omega) rfl
  have r4 := rd 4 (by omega) rfl
  have r8 := rd 8 (by omega) rfl
  have r12 := rd 12 (by omega) rfl
  obtain ⟨h0, h4, h8, h12⟩ := hd
  rw [ha] at h0 h4 h8 h12
  rw [h4] at r4; rw [h8] at r8; rw [h12] at r12
  have r0' : memRead .fetch 0 (descAddr s.cfg c) .b4 s = .ok (bootDescriptor s.cfg c).ctrl := by
    rw [← h0]; simpa using r0
  unfold State.loadDesc
  rw [if_neg (by simpa using descAddr_aligned hl.2.2 c)]
  have hv : (bootDescriptor s.cfg c).ctrl.getLsbD 0 = true := by rw [Descriptor.ctrl_valid, bootDescriptor_valid]
  simp only [r0', bind, Except.bind, hv, readDescriptor]
  simp only [show (4 : Word) = BitVec.ofNat 32 4 from rfl, show (8 : Word) = BitVec.ofNat 32 8 from rfl,
    show (12 : Word) = BitVec.ofNat 32 12 from rfl, r4, r8, r12, pure, Except.pure]
  simp [Descriptor.ofWords_ctrl, bootDescriptor_reserved hl c]

/-! ### The arbiter -/

/-- The granted channel is a candidate, no candidate has a larger priority, and among equals none comes before it (R161). -/
theorem State.grant_spec {s : State} {c : Chan} (h : s.grant = some c) :
    s.candidate c = true ∧ ∀ d, s.candidate d = true →
      (s.chan d).prio.toNat < (s.chan c).prio.toNat ∨
        (s.chan d).prio.toNat = (s.chan c).prio.toNat ∧ c.code.toNat ≤ d.code.toNat := by
  revert h
  simp only [State.grant, State.better]
  have e0 : (Chan.emit).code.toNat = 0 := rfl
  have e1 : (Chan.cap0).code.toNat = 1 := rfl
  have e2 : (Chan.cap1).code.toNat = 2 := rfl
  by_cases a : (s.chan .emit).prio.toNat < (s.chan .cap0).prio.toNat <;>
  by_cases b : (s.chan .emit).prio.toNat < (s.chan .cap1).prio.toNat <;>
  by_cases e : (s.chan .cap0).prio.toNat < (s.chan .cap1).prio.toNat <;>
  cases h0 : s.candidate .emit <;> cases h1 : s.candidate .cap0 <;> cases h2 : s.candidate .cap1 <;>
    simp only [Bool.false_eq_true, if_false, if_true, a, b, e, reduceCtorEq, false_implies, Option.some.injEq] <;>
    (intro h; subst h; refine ⟨by assumption, fun d hd => ?_⟩; cases d <;> first | omega | (simp only [h0, h1, h2, Bool.false_eq_true] at hd))

/-- No grant means no candidate (R161). -/
theorem State.grant_none {s : State} (h : s.grant = none) (c : Chan) : s.candidate c = false := by
  revert h
  simp only [State.grant, State.better]
  cases h0 : s.candidate .emit <;> cases h1 : s.candidate .cap0 <;> cases h2 : s.candidate .cap1 <;>
    simp only [Bool.false_eq_true, if_false, if_true] <;>
    (repeat' split) <;> intro h <;> first | (cases h; done) | (cases c <;> assumption)

/-- A granted channel is ACTIVE with its trigger pending. -/
theorem State.grant_active {s : State} {c : Chan} (h : s.grant = some c) :
    (s.chan c).state = .active ∧ (s.chan c).trig = true := by
  have := (State.grant_spec h).1
  simpa [State.candidate, State.chState] using this

/-! ### Beats -/

/-- Everything an element move that succeeds can be. -/
theorem State.moveElement_ok {s t : State} {c : Chan} {draw : Half} (h : s.moveElement c draw = .ok t) :
    ∃ n v u, elemSize (s.chan c).wCtrl = some n ∧ memRead (.beat c) draw (s.chan c).wSrc n s = .ok v ∧
      memWrite (.beat c) (s.chan c).wDst n v s = .ok u ∧ t = u.setChan c ((s.chan c).beat n) := by
  unfold State.moveElement at h
  split at h
  · cases h
  · rename_i n hn
    cases h1 : memRead (.beat c) draw (s.chan c).wSrc n s with
    | error e => simp [h1, bind, Except.bind] at h
    | ok v =>
      cases h2 : memWrite (.beat c) (s.chan c).wDst n v s with
      | error e => simp [h1, h2, bind, Except.bind] at h
      | ok u =>
        simp only [h1, h2, bind, Except.bind, pure, Except.pure] at h
        injection h with h
        exact ⟨n, v, u, hn, h1, h2, h.symm⟩

/-- An element move from its parts. -/
theorem State.moveElement_of {s u : State} {c : Chan} {draw : Half} {n : Size} {v : Word}
    (hn : elemSize (s.chan c).wCtrl = some n) (h1 : memRead (.beat c) draw (s.chan c).wSrc n s = .ok v)
    (h2 : memWrite (.beat c) (s.chan c).wDst n v s = .ok u) :
    s.moveElement c draw = .ok (u.setChan c ((s.chan c).beat n)) := by
  simp [State.moveElement, hn, h1, h2, bind, Except.bind, pure, Except.pure]

/-- What block completion touches: the event latch and the channel's own registers (R162). -/
theorem State.blockComplete_ok {s t : State} {c : Chan} (h : s.blockComplete c = .ok t) :
    ∃ e r, t = { s with evtPending := e }.setChan c r ∧
      e = (if notifies (s.chan c).wCtrl then s.evtPending ||| (completionEvent c).mask else s.evtPending) ∧
      r.prio = (s.chan c).prio ∧ r.trigSrc = (s.chan c).trigSrc ∧ r.burst = (s.chan c).burst ∧
      r.descPtr = (s.chan c).descPtr ∧ r.trig = (s.chan c).trig := by
  unfold State.blockComplete at h
  simp only at h
  have hs : (if notifies (s.chan c).wCtrl then s.signal (completionEvent c) else s) =
      { s with evtPending := if notifies (s.chan c).wCtrl then s.evtPending ||| (completionEvent c).mask else s.evtPending } := by
    split <;> rfl
  rw [hs] at h
  generalize (if notifies (s.chan c).wCtrl then s.evtPending ||| (completionEvent c).mask else s.evtPending) = e at h ⊢
  have hc : ({ s with evtPending := e } : State).chan c = s.chan c := by cases c <;> rfl
  rw [hc] at h
  split at h
  · cases h
  · injection h with h
    exact ⟨_, _, h.symm, rfl, rfl, rfl, rfl, rfl, rfl⟩
  · rename_i q hq
    injection h with h
    refine ⟨_, _, h.symm, rfl, ?_⟩
    by_cases hn : (s.chan c).wNext = 0
    · rw [if_pos hn] at hq; cases hq
    · rw [if_neg hn] at hq
      obtain ⟨-, hq | ⟨d, hq, -⟩⟩ := State.loadDesc_ok hq
      · cases hq.1
      · injection hq with hq
        subst hq
        split <;> simp [ChanRegs.load]

/-- Block completion with a record that boot wrote: the event is signalled, the block starts again, the channel is SUSPENDED (R162, R164). -/
theorem State.blockComplete_boot {s : State} {c : Chan} (hl : s.cfg.Legal) (hd : s.HoldsDescriptor c)
    (hctrl : (s.chan c).wCtrl = (bootDescriptor s.cfg c).ctrl) (hnext : (s.chan c).wNext = descAddr s.cfg c)
    (hact : (s.chan c).state = .active) :
    s.blockComplete c = .ok ((s.signal (completionEvent c)).setChan c
      { (s.chan c).load (bootDescriptor s.cfg c) (bootDescriptor s.cfg c).ctrl with state := .suspended }) := by
  have hd' : (s.signal (completionEvent c)).HoldsDescriptor c := hd
  unfold State.blockComplete
  simp only [hctrl, notifies_boot, suspends_boot, if_true, State.chan_signal, hnext, descAddr_ne_zero hl.2.2 c, if_false]
  have := State.loadDesc_boot (s := s.signal (completionEvent c)) (s.chan c) hl hd'
  simp only [State.signal_cfg] at this
  rw [this]
  simp [ChanRegs.load, hact]

end Sys2Proof.Machine
end

