-- ==== Sys2Proof/Laws/Beat.lean ====
section
/-! SUPPORT. A channel that boot configured, part way through its block: where its beat reads and writes, what a beat and a reload
leave (41_transfer_engine.md R160, R162, R163, R165). -/

namespace Sys2Proof.Machine

open Sys2Proof

/-- Where a channel's beat reads, inside its region. -/
theorem ChanRegs.Booted.src_holds {p : Params} {c : Chan} {r : ChanRegs} (h : r.Booted p c) (hl : p.Legal) :
    (srcRegion c).Holds p r.wSrc.toNat 2 ∧ r.wSrc.toNat % 2 = 0 ∧
      r.wSrc.toNat = (srcRegion c).base p + (if (bootDescriptor p c).srcInc then 2 * (blockCount p c - r.wCnt.toNat) else 0) := by
  have h1 := h.src
  have he := Region.base_even hl.2.2 (srcRegion c)
  have hs := Region.in_space hl.2.2 (srcRegion c)
  have hc := h.count
  rw [bootDescriptor_src hl] at h1
  have key : r.wSrc.toNat = (srcRegion c).base p +
      (if (bootDescriptor p c).srcInc then 2 * (blockCount p c - r.wCnt.toNat) else 0) := by
    rw [h1]
    unfold workAddr
    cases c <;>
      simp only [bootDescriptor, if_true, Bool.false_eq_true, if_false, srcRegion, BitVec.toNat_ofNat, Region.base,
        Region.size, blockCount] at * <;> omega
  refine ⟨?_, ?_, key⟩
  · rw [key]
    cases c <;>
      simp only [Region.Holds, bootDescriptor, if_true, Bool.false_eq_true, if_false, srcRegion, Region.base, Region.size,
        blockCount] at * <;> omega
  · rw [key]; split <;> omega

/-- Where a channel's beat writes, inside its region. -/
theorem ChanRegs.Booted.dst_holds {p : Params} {c : Chan} {r : ChanRegs} (h : r.Booted p c) (hl : p.Legal) :
    (dstRegion c).Holds p r.wDst.toNat 2 ∧ r.wDst.toNat % 2 = 0 ∧
      r.wDst.toNat = (dstRegion c).base p + (if (bootDescriptor p c).dstInc then 2 * (blockCount p c - r.wCnt.toNat) else 0) := by
  have h1 := h.dst
  have he := Region.base_even hl.2.2 (dstRegion c)
  have hs := Region.in_space hl.2.2 (dstRegion c)
  have hc := h.count
  rw [bootDescriptor_dst hl] at h1
  have key : r.wDst.toNat = (dstRegion c).base p +
      (if (bootDescriptor p c).dstInc then 2 * (blockCount p c - r.wCnt.toNat) else 0) := by
    rw [h1]
    unfold workAddr
    cases c <;>
      simp only [bootDescriptor, if_true, Bool.false_eq_true, if_false, dstRegion, BitVec.toNat_ofNat, Region.base,
        Region.size, blockCount] at * <;> omega
  refine ⟨?_, ?_, key⟩
  · rw [key]
    cases c <;>
      simp only [Region.Holds, bootDescriptor, if_true, Bool.false_eq_true, if_false, dstRegion, Region.base, Region.size,
        blockCount] at * <;> omega
  · rw [key]; split <;> omega

/-- The element move of a booted channel: channel 0 writes the converter's port with the element it reads, a capture channel writes its buffer
with the value drawn. -/
theorem State.moveElement_boot {s : State} {c : Chan} (hl : s.cfg.Legal) (h : ChanRegs.Booted s.cfg c (s.chan c))
    (draw : Half) :
    ∃ u, s.moveElement c draw = .ok (u.setChan c ((s.chan c).beat .b2)) ∧
      ((c = .emit ∧ ∃ v, v = (s.mem.readLE (s.chan .emit).wSrc.toNat .b2).setWidth 16 ∧
          u = { s with dacOut := v, dacTrace := s.dacTrace ++ [v] }) ∨
        (c ≠ .emit ∧ u = { s with mem := s.mem.writeLE (s.chan c).wDst.toNat .b2 (draw.setWidth 32) })) := by
  obtain ⟨a1, a2, a3⟩ := h.src_holds hl
  obtain ⟨b1, b2, b3⟩ := h.dst_holds hl
  have he : elemSize (s.chan c).wCtrl = some .b2 := by rw [h.ctrl]; exact elemSize_boot _ _
  cases c
  · have hr := memRead_memory (who := .beat .emit) (draw := draw) (n := .b2) hl.2.2 a2 a1 rfl rfl
    have hw := memWrite_dac (a := (s.chan .emit).wDst) (v := s.mem.readLE (s.chan .emit).wSrc.toNat .b2) hl.2.2
      (by rw [b3]; simp [bootDescriptor, dstRegion, Region.base])
    exact ⟨_, State.moveElement_of he hr hw, .inl ⟨rfl, _, rfl, rfl⟩⟩
  · have hr := memRead_port (who := .beat .cap0) (draw := draw) hl.2.2 a1 a2 rfl rfl
    have hw := memWrite_memory (who := .beat .cap0) (n := .b2) (v := draw.setWidth 32) hl.2.2 b2 b1 rfl (by decide)
      (by simp [dstRegion, Region.immutable])
    exact ⟨_, State.moveElement_of he hr hw, .inr ⟨by decide, rfl⟩⟩
  · have hr := memRead_port (who := .beat .cap1) (draw := draw) hl.2.2 a1 a2 rfl rfl
    have hw := memWrite_memory (who := .beat .cap1) (n := .b2) (v := draw.setWidth 32) hl.2.2 b2 b1 rfl (by decide)
      (by simp [dstRegion, Region.immutable])
    exact ⟨_, State.moveElement_of he hr hw, .inr ⟨by decide, rfl⟩⟩

/-- A beat that is not the block's last leaves the channel part way through its block. -/
theorem ChanRegs.Booted.beat {p : Params} {c : Chan} {r : ChanRegs} (h : r.Booted p c) (ha : r.state = .active)
    (hn : r.wCnt.toNat ≠ 1) : (r.beat .b2).Booted p c := by
  have hc := h.count
  have hlt := r.wCnt.isLt
  have hcnt : (blockDown r.wCnt).toNat = r.wCnt.toNat - 1 := blockDown_toNat hc.1
  have k : blockCount p c - (r.wCnt.toNat - 1) = blockCount p c - r.wCnt.toNat + 1 := by omega
  have step : ∀ inc b n, advance inc .b2 (workAddr inc b n) = workAddr inc b (n + 1) := by
    intro inc b n
    unfold advance workAddr
    cases inc <;> simp only [if_true, Bool.false_eq_true, if_false]
    apply BitVec.eq_of_toNat_eq
    simp only [BitVec.toNat_add, BitVec.toNat_ofNat, Size.bytes]
    omega
  refine ⟨h.1, h.2, h.3, h.4, h.5, h.6, ?_, ?_, ?_, by simp [ChanRegs.beat], by simp [ChanRegs.beat, ha]⟩
  · simp only [ChanRegs.beat, hcnt]; omega
  · simp only [ChanRegs.beat, hcnt, k, h.ctrl, Descriptor.ctrl_srcInc]; rw [h.src, step]
  · simp only [ChanRegs.beat, hcnt, k, h.ctrl, Descriptor.ctrl_dstInc]; rw [h.dst, step]

/-- A channel that loads its own descriptor is at the start of its block. -/
theorem ChanRegs.booted_load {p : Params} (hl : p.Legal) {c : Chan} {r : ChanRegs} (h1 : r.prio = bootPrio p c)
    (h2 : r.trigSrc = bootTrigSrc c) (h3 : r.burst = 0) (h4 : r.descPtr = descAddr p c) (x : ChState) (b : Bool)
    (hb : b = true → x = .active) :
    ChanRegs.Booted p c { r.load (bootDescriptor p c) (bootDescriptor p c).ctrl with state := x, trig := b } := by
  have hc := bootDescriptor_count hl.1 c
  have hp := blockCount_pos hl.1 c
  refine ⟨h1, h2, h3, h4, rfl, ?_, ?_, ?_, ?_, ?_, ?_⟩
  · simp [ChanRegs.load, bootDescriptor_next]
  · simp only [ChanRegs.load, hc]; omega
  · simp only [ChanRegs.load, hc, workAddr, Nat.sub_self]; simp
  · simp only [ChanRegs.load, hc, workAddr, Nat.sub_self]; simp
  · exact hb
  · simp only [ChanRegs.load, hc]; simp

/-- The record stands while the bytes of DESC do. -/
theorem State.HoldsDescriptor.of_mem {s t : State} {c : Chan} (h : s.HoldsDescriptor c) (hc : t.cfg = s.cfg)
    (hm : ∀ a, s.cfg.descBase ≤ a → a < s.cfg.descBase + 48 → Memory.read t.mem a = Memory.read s.mem a)
    (hl : s.cfg.Legal) : t.HoldsDescriptor c := by
  have hcode : c.code.toNat ≤ 2 := by cases c <;> decide
  have ha := toNat_descAddr hl.2.2 c
  have key : ∀ k, k ≤ 12 → t.mem.readLE (s.cfg.descBase + 16 * c.code.toNat + k) .b4 =
      s.mem.readLE (s.cfg.descBase + 16 * c.code.toNat + k) .b4 := by
    intro k hk
    apply Memory.readLE_congr
    intro a h1 h2
    simp only [Size.bytes] at h2
    exact hm a (by omega) (by omega)
  simp only [State.HoldsDescriptor, hc, ha] at h ⊢
  exact ⟨(key 0 (by omega)).trans h.1, (key 4 (by omega)).trans h.2.1, (key 8 (by omega)).trans h.2.2.1,
    (key 12 (by omega)).trans h.2.2.2⟩

end Sys2Proof.Machine
end

