-- ==== Sys2Proof/Laws/Chirp.lean ====
section
/-! SUPPORT. What CS_GENERATE does to the datapath registers and to memory, said once (40_chirp_synth.md R124, R128). -/

namespace Sys2Proof.Machine

open Sys2Proof

/-! ### The registers after `n` turns -/

theorem synthNext_iterate_genIdx (p : Params) (n : Nat) (r : SynthRegs) :
    ((synthNext p)^[n] r).genIdx = r.genIdx + BitVec.ofNat 16 n := by
  induction n generalizing r with
  | zero => simp
  | succ n ih =>
    rw [Function.iterate_succ_apply, ih]
    apply BitVec.eq_of_toNat_eq
    have h1 : (1 : BitVec 16).toNat = 1 := rfl
    simp only [synthNext, BitVec.toNat_add, BitVec.toNat_ofNat, h1]
    omega

theorem synthNext_iterate_genDone (p : Params) (n : Nat) (r : SynthRegs) : ((synthNext p)^[n] r).genDone = r.genDone := by
  induction n generalizing r with
  | zero => rfl
  | succ n ih => rw [Function.iterate_succ_apply, ih]; rfl

/-- The window's phase after `n` turns. -/
theorem synthNext_iterate_winPh (p : Params) (n : Nat) (r : SynthRegs) :
    ((synthNext p)^[n] r).winPh = r.winPh + BitVec.ofNat 48 n * wtw p := by
  induction n generalizing r with
  | zero => simp
  | succ n ih =>
    rw [Function.iterate_succ_apply, ih]
    simp only [synthNext]
    rw [BitVec.ofNat_add, BitVec.add_mul]
    simp only [BitVec.one_mul]
    rw [BitVec.add_assoc, BitVec.add_comm (wtw p)]

/-- The phase step after `n` turns. -/
theorem synthNext_iterate_ncoFr (p : Params) (n : Nat) (r : SynthRegs) :
    ((synthNext p)^[n] r).ncoFr = r.ncoFr + BitVec.ofNat 48 n * crw p := by
  induction n generalizing r with
  | zero => simp
  | succ n ih =>
    rw [Function.iterate_succ_apply, ih]
    simp only [synthNext]
    rw [BitVec.ofNat_add, BitVec.add_mul]
    simp only [BitVec.one_mul]
    rw [BitVec.add_assoc, BitVec.add_comm (crw p)]

/-! ### The loop -/

/-- Everything the loop does: the registers are the start's stepped `n` times, element `k` is the sample of the registers after `k` steps,
every other byte stands, and the canonical form is kept. -/
theorem genLoop_spec (p : Params) (n : Nat) (r : SynthRegs) (m : Memory) (h : r.genIdx.toNat + n ≤ 65535) :
    (genLoop p n r m).1 = (synthNext p)^[n] r ∧
      (∀ k < n, (genLoop p n r m).2.readLE (p.chirpBase + 2 * (r.genIdx.toNat + k)) .b2 =
        (sampleAt p ((synthNext p)^[k] r)).setWidth 32) ∧
      (∀ a, a < p.chirpBase + 2 * r.genIdx.toNat ∨ p.chirpBase + 2 * (r.genIdx.toNat + n) ≤ a →
        Memory.read (genLoop p n r m).2 a = Memory.read m a) ∧
      (p.chirpBase + 2 * (r.genIdx.toNat + n) ≤ 2 ^ 32 → Memory.Wf m → Memory.Wf (genLoop p n r m).2) := by
  induction n generalizing r m with
  | zero => simp [genLoop]
  | succ n ih =>
    have hi : (synthNext p r).genIdx.toNat = r.genIdx.toNat + 1 := by
      simp only [synthNext, BitVec.toNat_add]
      have : (1 : BitVec 16).toNat = 1 := rfl
      omega
    obtain ⟨h1, h2, h3, h4⟩ := ih (synthNext p r)
      (m.writeLE (p.chirpBase + 2 * r.genIdx.toNat) .b2 ((sampleAt p r).setWidth 32)) (by omega)
    simp only [genLoop, Function.iterate_succ_apply]
    rw [hi] at h2 h3 h4
    refine ⟨h1, fun k hk => ?_, fun a ha => ?_, fun hs hw => ?_⟩
    · cases k with
      | zero =>
        rw [Nat.add_zero, Function.iterate_zero_apply]
        refine Eq.trans (Memory.readLE_congr ?_)
          (Memory.readLE_writeLE_b2 m (p.chirpBase + 2 * r.genIdx.toNat) (sampleAt p r))
        intro c hc1 hc2
        simp only [Size.bytes] at hc2
        exact h3 c (by omega)
      | succ k =>
        rw [Function.iterate_succ_apply, ← h2 k (by omega)]
        congr 1
        omega
    · rw [h3 a (by omega)]
      exact Memory.read_writeLE_outside _ _ _ _ _ (by simp only [Size.bytes]; omega)
    · exact h4 (by omega) (Memory.writeLE_wf _ _ (by simp only [Size.bytes]; omega) hw)

/-! ### The whole operation -/

/-- Everything CS_GENERATE does to registers and memory. -/
theorem generate_spec (p : Params) (m : Memory) (h0 : 2 ≤ p.nChirp) (h1 : p.nChirp ≤ 65535) :
    (generate p m).1 = { (synthNext p)^[p.nChirp] (synthStart p) with genDone := true } ∧
      (∀ k < p.nChirp - 1, (generate p m).2.readLE (p.chirpBase + 2 * k) .b2 =
        (sampleAt p ((synthNext p)^[k] (synthStart p))).setWidth 32) ∧
      (generate p m).2.readLE (p.chirpBase + 2 * (p.nChirp - 1)) .b2 = 0 ∧
      (∀ a, a < p.chirpBase ∨ p.chirpBase + 2 * p.nChirp ≤ a → Memory.read (generate p m).2 a = Memory.read m a) ∧
      (p.chirpBase + 2 * p.nChirp ≤ 2 ^ 32 → Memory.Wf m → Memory.Wf (generate p m).2) := by
  have hz : (synthStart p).genIdx.toNat = 0 := rfl
  obtain ⟨g1, g2, g3, g4⟩ := genLoop_spec p p.nChirp (synthStart p) m (by omega)
  rw [hz] at g2 g3 g4
  simp only [Nat.zero_add, Nat.mul_zero, Nat.add_zero] at g2 g3 g4
  refine ⟨by simp only [generate, g1], fun k hk => ?_, ?_, fun a ha => ?_, fun hs hw => ?_⟩
  · simp only [generate]
    rw [← g2 k (by omega)]
    apply Memory.readLE_congr
    intro c hc1 hc2
    simp only [Size.bytes] at hc2
    exact Memory.read_writeLE_outside _ _ _ _ _ (by simp only [Size.bytes]; omega)
  · exact Memory.readLE_writeLE_b2 _ _ 0
  · simp only [generate]
    rw [Memory.read_writeLE_outside _ _ _ _ _ (by simp only [Size.bytes]; omega)]
    exact g3 a ha
  · exact Memory.writeLE_wf .b2 _ (by simp only [Size.bytes]; omega) (g4 hs hw)

/-- During boot with legal parameters CS_GENERATE completes. -/
theorem State.generateChirp_legal {s : State} (hl : s.cfg.Legal) (hp : s.phase = .boot) :
    s.generateChirp = .ok { s with cs := (generate s.cfg s.mem).1, mem := (generate s.cfg s.mem).2 } := by
  unfold State.generateChirp
  split
  · contradiction
  · simp [hp]

/-- Every write of CS_GENERATE is one that `MemWrite` allows the generator (R61, R70). -/
theorem memWrite_chirp {s : State} (hl : s.cfg.Legal) (hp : s.phase = .boot) {k : Nat} (hk : k < s.cfg.nChirp) (v : Word) :
    memWrite .generator (BitVec.ofNat 32 (s.cfg.chirpBase + 2 * k)) .b2 v s =
      .ok { s with mem := s.mem.writeLE (s.cfg.chirpBase + 2 * k) .b2 v } := by
  have ha := Region.toNat_offset hl.2.2 .chirp (k := 2 * k) (by simp only [Region.size]; omega)
  have he := Region.base_even hl.2.2 .chirp
  simp only [Region.base] at ha he
  rw [memWrite_memory (r := .chirp) hl.2.2 (by rw [ha]; simp only [Size.bytes]; omega)
    (by rw [ha]; simp only [Region.Holds, Region.base, Region.size, Size.bytes]; omega) rfl (by decide) (fun _ => hp), ha]

end Sys2Proof.Machine
end

