-- ==== Sys2Proof/Laws/Boot.lean ====
section
/-! SUPPORT. One spec lemma for each part of BOOT (70_reset_and_hazards.md R304): a record placed, a channel brought to
SUSPENDED. -/

namespace Sys2Proof.Machine

open Sys2Proof

/-! ### Records -/

/-- The CTRL word boot writes is the one R304 gives. -/
theorem bootDescriptor_ctrl {p : Params} (h : p.LegalWave) (c : Chan) : (bootDescriptor p c).ctrl = bootCtrl p c := by
  have key : ∀ (cn : BitVec 16) (lo : BitVec 16), ((cn ++ lo : BitVec 32)) = BitVec.ofNat 32 (cn.toNat * 2 ^ 16 + lo.toNat) := by
    intro cn lo
    apply BitVec.eq_of_toNat_eq
    have h1 := cn.isLt
    have h2 := lo.isLt
    rw [BitVec.toNat_append, ← Nat.shiftLeft_add_eq_or_of_lt h2, Nat.shiftLeft_eq]
    simp only [BitVec.toNat_ofNat]
    omega
  have hsplit : ∀ d : Descriptor, d.ctrl =
      d.count ++ ((d.reserved ++ BitVec.ofBool d.dstInc ++ BitVec.ofBool d.srcInc ++ d.elemSize ++ d.blockAct ++
        BitVec.ofBool d.valid : BitVec 16)) := by
    intro d
    apply BitVec.eq_of_getLsbD_eq
    intro i hi
    simp only [Descriptor.ctrl, BitVec.getLsbD_setWidth, BitVec.getLsbD_append]
    interval_cases i <;> simp
  have hc := bootDescriptor_count h c
  rw [hsplit, key, hc]
  cases c <;> simp only [bootDescriptor, bootCtrl, blockCount] <;> rfl

theorem Memory.storeRecord_outside (m : Memory) (a b : Nat) (w0 w1 w2 w3 : Word) (h : b < a ∨ a + 16 ≤ b) :
    Memory.read (Memory.storeRecord m a w0 w1 w2 w3) b = Memory.read m b := by
  unfold Memory.storeRecord
  rw [Memory.read_writeLE_outside _ _ _ _ _ (by simp only [Size.bytes]; omega),
    Memory.read_writeLE_outside _ _ _ _ _ (by simp only [Size.bytes]; omega),
    Memory.read_writeLE_outside _ _ _ _ _ (by simp only [Size.bytes]; omega),
    Memory.read_writeLE_outside _ _ _ _ _ (by simp only [Size.bytes]; omega)]

theorem Memory.storeRecord_wf {m : Memory} {a : Nat} (w0 w1 w2 w3 : Word) (ha : a + 16 ≤ 2 ^ 32) (h : Memory.Wf m) :
    Memory.Wf (Memory.storeRecord m a w0 w1 w2 w3) := by
  unfold Memory.storeRecord
  repeat (refine Memory.writeLE_wf .b4 _ (by simp only [Size.bytes]; omega) ?_)
  exact h

/-- The words of a record are read back. -/
theorem Memory.storeRecord_words (m : Memory) (a : Nat) (w0 w1 w2 w3 : Word) :
    (Memory.storeRecord m a w0 w1 w2 w3).readLE a .b4 = w0 ∧ (Memory.storeRecord m a w0 w1 w2 w3).readLE (a + 4) .b4 = w1 ∧
      (Memory.storeRecord m a w0 w1 w2 w3).readLE (a + 8) .b4 = w2 ∧
      (Memory.storeRecord m a w0 w1 w2 w3).readLE (a + 12) .b4 = w3 := by
  have skip : ∀ (k : Memory) (x y : Nat) (v : Word), y + 4 ≤ x ∨ x + 4 ≤ y →
      (Memory.writeLE k x .b4 v).readLE y .b4 = Memory.readLE k y .b4 := by
    intro k x y v hxy
    apply Memory.readLE_congr
    intro c h1 h2
    simp only [Size.bytes] at h2
    exact Memory.read_writeLE_outside _ _ _ _ _ (by simp only [Size.bytes]; omega)
  unfold Memory.storeRecord
  refine ⟨?_, ?_, ?_, ?_⟩
  · rw [skip _ _ _ _ (by omega), skip _ _ _ _ (by omega), skip _ _ _ _ (by omega), Memory.readLE_writeLE_b4]
  · rw [skip _ _ _ _ (by omega), skip _ _ _ _ (by omega), Memory.readLE_writeLE_b4]
  · rw [skip _ _ _ _ (by omega), Memory.readLE_writeLE_b4]
  · rw [Memory.readLE_writeLE_b4]

/-- During boot a record is placed whole and nothing else changes. -/
theorem State.placeDescriptor_boot {s : State} (hl : s.cfg.Legal) (hp : s.phase = .boot) (c : Chan) (d : Descriptor) :
    s.placeDescriptor c d =
      .ok { s with mem := Memory.storeRecord s.mem (s.cfg.descBase + 16 * c.code.toNat) d.ctrl d.src d.dst d.next } := by
  have hb := hl.2.2.2.2.1
  have wr : ∀ (m : Memory) (k : Nat) (v : Word), k ≤ 12 → k % 4 = 0 →
      memWrite .bootCode (descAddr s.cfg c + BitVec.ofNat 32 k) .b4 v { s with mem := m } =
        .ok { s with mem := m.writeLE (s.cfg.descBase + 16 * c.code.toNat + k) .b4 v } := by
    intro m k v hk h4
    have hk' := toNat_descAddr_add hl.2.2 c k (by omega)
    rw [memWrite_memory (s := { s with mem := m }) (r := .desc) hl.2.2 (by rw [hk']; simp only [Size.bytes]; omega)
      (by rw [hk']; exact descAddr_holds c hk) rfl (by decide) (fun _ => hp), hk']
  have w0 : memWrite .bootCode (descAddr s.cfg c) .b4 d.ctrl s =
      .ok { s with mem := s.mem.writeLE (s.cfg.descBase + 16 * c.code.toNat) .b4 d.ctrl } := by
    have := wr s.mem 0 d.ctrl (by omega) rfl
    simpa using this
  unfold State.placeDescriptor
  simp only [bind, Except.bind, show (4 : Word) = BitVec.ofNat 32 4 from rfl, show (8 : Word) = BitVec.ofNat 32 8 from rfl,
    show (12 : Word) = BitVec.ofNat 32 12 from rfl]
  simp only [w0, wr _ 4 _ (by omega) rfl, wr _ 8 _ (by omega) rfl, wr _ 12 _ (by omega) rfl]
  rfl

/-! ### The three records -/

/-- Boot's record of a channel holds the channel's descriptor. -/
theorem State.holds_storeBootRecord {s : State} (hl : s.cfg.Legal) (m : Memory) (c : Chan) (hm : s.mem = Memory.storeBootRecord s.cfg m c) :
    s.HoldsDescriptor c := by
  have := Memory.storeRecord_words m (s.cfg.descBase + 16 * c.code.toNat) (bootCtrl s.cfg c)
    (BitVec.ofNat 32 (bootSrc s.cfg c)) (BitVec.ofNat 32 (bootDst s.cfg c))
    (BitVec.ofNat 32 (s.cfg.descBase + 16 * c.code.toNat))
  simp only [State.HoldsDescriptor, toNat_descAddr hl.2.2, bootDescriptor_ctrl hl.1, hm]
  refine ⟨this.1, ?_, ?_, ?_⟩
  · rw [show (bootDescriptor s.cfg c).src = BitVec.ofNat 32 (bootSrc s.cfg c) by cases c <;> rfl]; exact this.2.1
  · rw [show (bootDescriptor s.cfg c).dst = BitVec.ofNat 32 (bootDst s.cfg c) by cases c <;> rfl]; exact this.2.2.1
  · rw [bootDescriptor_next]; exact this.2.2.2

/-- Boot's record of one channel leaves the bytes of another's. -/
theorem Memory.readLE_storeBootRecord_other {p : Params} (m : Memory) {c d : Chan} (hne : c ≠ d) {k : Nat} (hk : k ≤ 12) :
    (Memory.storeBootRecord p m c).readLE (p.descBase + 16 * d.code.toNat + k) .b4 =
      m.readLE (p.descBase + 16 * d.code.toNat + k) .b4 := by
  apply Memory.readLE_congr
  intro a h1 h2
  simp only [Size.bytes] at h2
  apply Memory.storeRecord_outside
  have : c.code.toNat ≠ d.code.toNat := by revert hne; cases c <;> cases d <;> decide
  omega

/-- A record stands when boot stores another channel's. -/
theorem State.HoldsDescriptor.of_storeBootRecord {s t : State} (hl : s.cfg.Legal) {c d : Chan} (hne : c ≠ d)
    (h : s.HoldsDescriptor d) (hc : t.cfg = s.cfg) (hm : t.mem = Memory.storeBootRecord s.cfg s.mem c) :
    t.HoldsDescriptor d := by
  have ha := toNat_descAddr hl.2.2 d
  have key := fun {k : Nat} (hk : k ≤ 12) => Memory.readLE_storeBootRecord_other (p := s.cfg) s.mem hne hk
  simp only [State.HoldsDescriptor, ha, hc, hm] at h ⊢
  exact ⟨(key (k := 0) (by omega)).trans h.1, (key (by omega)).trans h.2.1, (key (by omega)).trans h.2.2.1,
    (key (by omega)).trans h.2.2.2⟩

/-- After line 2 of R304 DESC holds all three records. -/
theorem State.holds_bootMemory {s : State} (hl : s.cfg.Legal) (m : Memory) (hm : s.mem = bootMemory s.cfg m) (c : Chan) :
    s.HoldsDescriptor c := by
  unfold bootMemory at hm
  obtain ⟨m0, h0⟩ : ∃ m0, m0 = Memory.storeBootRecord s.cfg m .emit := ⟨_, rfl⟩
  obtain ⟨m1, h1⟩ : ∃ m1, m1 = Memory.storeBootRecord s.cfg m0 .cap0 := ⟨_, rfl⟩
  rw [← h0, ← h1] at hm
  have e0 : ({ s with mem := m0 } : State).HoldsDescriptor .emit :=
    State.holds_storeBootRecord (s := { s with mem := m0 }) hl m .emit h0
  have e1 : ({ s with mem := m1 } : State).HoldsDescriptor .emit :=
    State.HoldsDescriptor.of_storeBootRecord (s := { s with mem := m0 }) (c := .cap0) hl (by decide) e0 rfl h1
  have e2 : ({ s with mem := m1 } : State).HoldsDescriptor .cap0 :=
    State.holds_storeBootRecord (s := { s with mem := m1 }) hl m0 .cap0 h1
  cases c
  · exact State.HoldsDescriptor.of_storeBootRecord (s := { s with mem := m1 }) (c := .cap1) hl (by decide) e1 rfl hm
  · exact State.HoldsDescriptor.of_storeBootRecord (s := { s with mem := m1 }) (c := .cap1) hl (by decide) e2 rfl hm
  · exact State.holds_storeBootRecord hl m1 .cap1 hm

/-- A record boot places is stored as R304 line 2 gives it. -/
theorem State.placeDescriptor_record {s : State} (hl : s.cfg.Legal) (hp : s.phase = .boot) (c : Chan) :
    s.placeDescriptor c (bootDescriptor s.cfg c) = .ok { s with mem := Memory.storeBootRecord s.cfg s.mem c } := by
  rw [State.placeDescriptor_boot hl hp]
  simp only [Memory.storeBootRecord]
  rw [bootDescriptor_ctrl hl.1, show (bootDescriptor s.cfg c).src = BitVec.ofNat 32 (bootSrc s.cfg c) by cases c <;> rfl,
    show (bootDescriptor s.cfg c).dst = BitVec.ofNat 32 (bootDst s.cfg c) by cases c <;> rfl, bootDescriptor_next, descAddr]

/-- Storing the three records keeps the canonical form and every byte outside DESC. -/
theorem bootMemory_frame {p : Params} (hl : p.LegalMap) (m : Memory) :
    (Memory.Wf m → Memory.Wf (bootMemory p m)) ∧
      ∀ a, a < p.descBase ∨ p.descBase + 48 ≤ a → Memory.read (bootMemory p m) a = Memory.read m a := by
  have hs := Region.in_space hl .desc
  simp only [Region.base, Region.size] at hs
  have e0 : (Chan.emit).code.toNat = 0 := rfl
  have e1 : (Chan.cap0).code.toNat = 1 := rfl
  have e2 : (Chan.cap1).code.toNat = 2 := rfl
  simp only [bootMemory, Memory.storeBootRecord, e0, e1, e2]
  refine ⟨fun hw => ?_, fun a ha => ?_⟩
  · exact Memory.storeRecord_wf _ _ _ _ (by omega) (Memory.storeRecord_wf _ _ _ _ (by omega)
      (Memory.storeRecord_wf _ _ _ _ (by omega) hw))
  · rw [Memory.storeRecord_outside _ _ _ _ _ _ _ (by omega), Memory.storeRecord_outside _ _ _ _ _ _ _ (by omega),
      Memory.storeRecord_outside _ _ _ _ _ _ _ (by omega)]

/-! ### Channels -/

/-- Line 3 of R304 for a channel that is IDLE and whose record stands in DESC. -/
theorem State.bootChannel_ok {s : State} (hl : s.cfg.Legal) (c : Chan) (hi : (s.chan c).state = .idle)
    (hd : s.HoldsDescriptor c) : s.bootChannel c = .ok (s.setChan c (bootedChan s.cfg c)) := by
  have hal : armAddress (descAddr s.cfg c) = true := by
    have h1 := descAddr_aligned hl.2.2 c
    have h2 := descAddr_ne_zero hl.2.2 c
    simp only [armAddress, Bool.and_eq_true, decide_eq_true_eq]
    exact ⟨h2, h1⟩
  unfold State.bootChannel
  simp only [State.teConfigure, State.teArm, bind, Except.bind, pure, Except.pure, State.chState, hi, ne_eq, not_true,
    if_false, State.chan_setChan_same, hal, Bool.not_true, Bool.false_eq_true, State.setChan_setChan]
  have hne := descAddr_ne_zero hl.2.2 c
  have hload := fun (r q : ChanRegs) => State.loadDesc_boot (s := s.setChan c q) (c := c) r (by simpa using hl)
    (by simpa [State.HoldsDescriptor] using hd)
  simp only [State.setChan_cfg] at hload
  simp only [State.teEnable, State.chState, State.chan_setChan_same, ne_eq, not_true, if_false, hne]
  rw [hload]
  simp only [State.setChan_setChan, State.teSuspend, State.chState, State.chan_setChan_same, ChanRegs.load, if_true]
  have hc := bootDescriptor_ctrl hl.1 c
  have hn := bootDescriptor_next s.cfg c
  have hcount : (bootDescriptor s.cfg c).count = BitVec.ofNat 16 (blockCount s.cfg c) := by cases c <;> rfl
  have hsrc : (bootDescriptor s.cfg c).src = BitVec.ofNat 32 (bootSrc s.cfg c) := by cases c <;> rfl
  have hdst : (bootDescriptor s.cfg c).dst = BitVec.ofNat 32 (bootDst s.cfg c) := by cases c <;> rfl
  rw [hc, hn, hcount, hsrc, hdst]
  rfl

end Sys2Proof.Machine
end

