-- ==== Sys2Proof/Laws/Enabled.lean ====
section
/-! SUPPORT. `State.enabled` is where `exec` takes a step of R50, and BOOT comes before any other step but the environment's (10_state.md
R50). -/

namespace Sys2Proof.Machine

open Sys2Proof

/-- What holds of every state before BOOT (R300): no channel is ACTIVE and neither timer runs. -/
structure State.BeforeBoot (s : State) : Prop where
  phase : s.phase = .boot
  channels : ∀ c, (s.chan c).state ≠ .active
  carrier : s.ct.en = false
  guard : s.gt.run = false

theorem State.beforeBoot_reset (p : Params) : (State.resetWith p).BeforeBoot :=
  ⟨rfl, fun c => by cases c <;> simp [State.resetWith, State.chan, ChanRegs.reset], rfl, rfl⟩

/-- Without an ACTIVE channel the arbiter grants none. -/
theorem State.grant_eq_none {s : State} (h : ∀ c, (s.chan c).state ≠ .active) : s.grant = none := by
  simp [State.grant, State.better, State.candidate, State.chState, h]

/-- The steps of R50: the others run inside them (log 5). -/
def isStep : Instr → Bool
  | .hlPoll => true
  | .asEval => true
  | .boot => true
  | .teBeat _ _ => true
  | .ctTick => true
  | .gtTick => true
  | .envHostSend _ => true
  | .envTrigger _ => true
  | .envAltEdge => true
  | i => isHandler i

/-- A step of R50 that is not enabled is declined as that. -/
theorem exec_of_not_enabled {s : State} {i : Instr} (hi : isStep i = true) (he : s.enabled i = false) :
    ∃ name, exec i s = .refused (.notEnabled name) := by
  cases i
  case hAltTrig =>
    refine ⟨"H_ALT_TRIG", ?_⟩
    simp only [State.enabled] at he
    simp [exec, execHAltTrig, he]
  all_goals
    simp_all [isStep, isHandler, State.enabled, exec, execHlPoll, execAsEval, execBoot, execTeBeat, State.teBeat,
      execCtTick, execGtTick, execHEmitDone, execHGuardOvf, execHCap0Done, execHCap1Done, State.handle, answer]

/-- A step enabled before BOOT is BOOT or the environment's. -/
theorem State.enabled_beforeBoot {s : State} (h : s.BeforeBoot) {i : Instr} (he : s.enabled i = true) :
    i = .boot ∨ (∃ b, i = .envHostSend b) ∨ (∃ c, i = .envTrigger c) ∨ i = .envAltEdge := by
  cases i <;> simp_all [State.enabled, State.mayHandle, h.phase, h.carrier, h.guard, State.grant_eq_none h.channels]

/-- The environment's steps leave a state before BOOT one. -/
theorem State.BeforeBoot.env {s t : State} (h : s.BeforeBoot) {i : Instr}
    (hi : (∃ b, i = .envHostSend b) ∨ (∃ c, i = .envTrigger c) ∨ i = .envAltEdge) (he : exec i s = .next t) :
    t.BeforeBoot := by
  obtain ⟨b, rfl⟩ | ⟨c, rfl⟩ | rfl := hi
  · cases he; exact ⟨h.1, h.2, h.3, h.4⟩
  · have : exec (.envTrigger c) s = .next s := by
      simp [exec, execEnvTrigger, State.chState, h.channels]
    rw [this] at he; cases he; exact h
  · simp only [exec, execEnvAltEdge] at he
    split at he <;> cases he
    · exact ⟨h.1, fun c => by simpa using h.2 c, h.3, h.4⟩
    · exact h

end Sys2Proof.Machine
end

