-- ==== Sys2Proof/Laws/Link.lean ====
section
/-! SUPPORT. The drain (45_host_link.md R247) and the transition the vector selects (44_acq_fsm.md R216). -/

namespace Sys2Proof.Machine

open Sys2Proof

/-! ### The drain -/

/-- With legal parameters the drain appends the payload and changes nothing else. -/
theorem State.drain_legal {s : State} (h : s.cfg.Legal) : s.drain = .ok { s with txs := s.txs ++ s.payload } := by
  unfold State.drain
  split
  · contradiction
  · rfl

theorem State.bufferBytes_length (s : State) (b n : Nat) : (s.bufferBytes b n).length = 2 * n := by
  simp [State.bufferBytes, sampleBytes, List.length_flatMap]
  omega

theorem State.payload_length (s : State) : s.payload.length = 4 * s.cfg.nCap := by
  simp [State.payload, State.bufferBytes_length]
  omega

/-- The payload reads the memory and the parameters and nothing else. -/
theorem State.payload_congr {s t : State} (hc : s.cfg = t.cfg) (hm : s.mem = t.mem) : s.payload = t.payload := by
  simp [State.payload, State.bufferBytes, State.element, hc, hm]

/-- Every element the drain sends is the value `MemRead` gives the drain (R247). -/
theorem State.element_is_read {s : State} (h : s.cfg.Legal) {k : Nat} (hk : k < s.cfg.nCap) (draw : Half) {r : Region}
    (hr : r = .cap0 ∨ r = .cap1) :
    memRead .drain draw (BitVec.ofNat 32 (r.base s.cfg + 2 * k)) .b2 s = .ok ((s.element (r.base s.cfg) k).setWidth 32) := by
  have hs : r.size s.cfg = 2 * s.cfg.nCap := by rcases hr with rfl | rfl <;> rfl
  have ha := Region.toNat_offset h.2.2 r (k := 2 * k) (by omega)
  have he := Region.base_even h.2.2 r
  rw [memRead_memory (r := r) h.2.2 (by rw [ha]; simp only [Size.bytes]; omega)
    (by rw [ha]; simp only [Region.Holds, Size.bytes]; omega) (by rcases hr with rfl | rfl <;> rfl)
    (by rcases hr with rfl | rfl <;> rfl), ha]
  rfl

/-! ### The vector -/

/-- Which outcome the vector of a state selects, in terms of the state (R101, R216). -/
theorem selectT_vector (s : State) :
    selectT s.vector =
      match s.acqState with
      | .idle => if s.flag .emitStart then .tIdleEmit else .tNone s.vector
      | .emit => if s.flag .emitStop then .tEmitWait else .tNone s.vector
      | .wait => if s.flag .waitStop then .tWaitListen else .tNone s.vector
      | .listen => if s.flag .cap0Done && s.flag .cap1Done then .tListenIdle else .tNone s.vector := by
  have key : ∀ (f : BitVec 5) (a : AcqState),
      selectT ((f ++ a.code).setWidth 7) =
        match a with
        | .idle => if f &&& Flag.mask .emitStart ≠ 0 then .tIdleEmit else .tNone ((f ++ a.code).setWidth 7)
        | .emit => if f &&& Flag.mask .emitStop ≠ 0 then .tEmitWait else .tNone ((f ++ a.code).setWidth 7)
        | .wait => if f &&& Flag.mask .waitStop ≠ 0 then .tWaitListen else .tNone ((f ++ a.code).setWidth 7)
        | .listen =>
          if f &&& Flag.mask .cap0Done ≠ 0 ∧ f &&& Flag.mask .cap1Done ≠ 0 then .tListenIdle
          else .tNone ((f ++ a.code).setWidth 7) := by
    intro f a
    cases a <;> revert f <;> decide
  have := key s.flags s.acqState
  simp only [State.vector, this, State.flag]
  cases s.acqState <;> simp

end Sys2Proof.Machine
end

