-- ==== Sys2Proof/Laws/PerInstr.lean ====
section
/-! SUPPORT. Facts about every operation as syntax, one lemma per constructor. -/

open Sys2Proof

/-- The code of an operation has the length of its format (30_encoding.md R90: every format is fixed length). -/
def Sys2Proof.Laws.LengthFixed.Statement (i : Instr) : Prop := (encode i).bytes.length = (encode i).format.length

theorem Sys2Proof.Laws.LengthFixed.startJob : Sys2Proof.Laws.LengthFixed.Statement .startJob := rfl
theorem Sys2Proof.Laws.LengthFixed.ampEnable : Sys2Proof.Laws.LengthFixed.Statement .ampEnable := rfl
theorem Sys2Proof.Laws.LengthFixed.ampDisable : Sys2Proof.Laws.LengthFixed.Statement .ampDisable := rfl
theorem Sys2Proof.Laws.LengthFixed.rsvdLow (low : BitVec 4) : Sys2Proof.Laws.LengthFixed.Statement (.rsvdLow low) := rfl
theorem Sys2Proof.Laws.LengthFixed.ignored (b : Byte) : Sys2Proof.Laws.LengthFixed.Statement (.ignored b) := rfl
theorem Sys2Proof.Laws.LengthFixed.tIdleEmit : Sys2Proof.Laws.LengthFixed.Statement .tIdleEmit := rfl
theorem Sys2Proof.Laws.LengthFixed.tEmitWait : Sys2Proof.Laws.LengthFixed.Statement .tEmitWait := rfl
theorem Sys2Proof.Laws.LengthFixed.tWaitListen : Sys2Proof.Laws.LengthFixed.Statement .tWaitListen := rfl
theorem Sys2Proof.Laws.LengthFixed.tListenIdle : Sys2Proof.Laws.LengthFixed.Statement .tListenIdle := rfl
theorem Sys2Proof.Laws.LengthFixed.tNone (v : BitVec 7) : Sys2Proof.Laws.LengthFixed.Statement (.tNone v) := rfl
theorem Sys2Proof.Laws.LengthFixed.hEmitDone : Sys2Proof.Laws.LengthFixed.Statement .hEmitDone := rfl
theorem Sys2Proof.Laws.LengthFixed.hGuardOvf : Sys2Proof.Laws.LengthFixed.Statement .hGuardOvf := rfl
theorem Sys2Proof.Laws.LengthFixed.hCap0Done : Sys2Proof.Laws.LengthFixed.Statement .hCap0Done := rfl
theorem Sys2Proof.Laws.LengthFixed.hCap1Done : Sys2Proof.Laws.LengthFixed.Statement .hCap1Done := rfl
theorem Sys2Proof.Laws.LengthFixed.hAltTrig : Sys2Proof.Laws.LengthFixed.Statement .hAltTrig := rfl
theorem Sys2Proof.Laws.LengthFixed.csGenerate : Sys2Proof.Laws.LengthFixed.Statement .csGenerate := rfl
theorem Sys2Proof.Laws.LengthFixed.teConfigure (c : Chan) (prio trigsrc burst : BitVec 2) : Sys2Proof.Laws.LengthFixed.Statement (.teConfigure c prio trigsrc burst) := rfl
theorem Sys2Proof.Laws.LengthFixed.teArm (c : Chan) (a : Word) : Sys2Proof.Laws.LengthFixed.Statement (.teArm c a) := rfl
theorem Sys2Proof.Laws.LengthFixed.teEnable (c : Chan) : Sys2Proof.Laws.LengthFixed.Statement (.teEnable c) := rfl
theorem Sys2Proof.Laws.LengthFixed.teSuspend (c : Chan) : Sys2Proof.Laws.LengthFixed.Statement (.teSuspend c) := rfl
theorem Sys2Proof.Laws.LengthFixed.teResume (c : Chan) : Sys2Proof.Laws.LengthFixed.Statement (.teResume c) := rfl
theorem Sys2Proof.Laws.LengthFixed.teDisable (c : Chan) : Sys2Proof.Laws.LengthFixed.Statement (.teDisable c) := rfl
theorem Sys2Proof.Laws.LengthFixed.ctConfigure (per duty ind : Half) : Sys2Proof.Laws.LengthFixed.Statement (.ctConfigure per duty ind) := rfl
theorem Sys2Proof.Laws.LengthFixed.ctEnable : Sys2Proof.Laws.LengthFixed.Statement .ctEnable := rfl
theorem Sys2Proof.Laws.LengthFixed.gtConfigure (per cmp : Word) : Sys2Proof.Laws.LengthFixed.Statement (.gtConfigure per cmp) := rfl
theorem Sys2Proof.Laws.LengthFixed.gtRetrigger : Sys2Proof.Laws.LengthFixed.Statement .gtRetrigger := rfl
theorem Sys2Proof.Laws.LengthFixed.descriptor (c : Chan) (d : Descriptor) : Sys2Proof.Laws.LengthFixed.Statement (.descriptor c d) := rfl
theorem Sys2Proof.Laws.LengthFixed.sample (v : Half) : Sys2Proof.Laws.LengthFixed.Statement (.sample v) := rfl
theorem Sys2Proof.Laws.LengthFixed.hlPoll : Sys2Proof.Laws.LengthFixed.Statement .hlPoll := rfl
theorem Sys2Proof.Laws.LengthFixed.asEval : Sys2Proof.Laws.LengthFixed.Statement .asEval := rfl
theorem Sys2Proof.Laws.LengthFixed.hlDrain : Sys2Proof.Laws.LengthFixed.Statement .hlDrain := rfl
theorem Sys2Proof.Laws.LengthFixed.teBeat (c : Chan) (v : Half) : Sys2Proof.Laws.LengthFixed.Statement (.teBeat c v) := rfl
theorem Sys2Proof.Laws.LengthFixed.ctTick : Sys2Proof.Laws.LengthFixed.Statement .ctTick := rfl
theorem Sys2Proof.Laws.LengthFixed.gtTick : Sys2Proof.Laws.LengthFixed.Statement .gtTick := rfl
theorem Sys2Proof.Laws.LengthFixed.boot : Sys2Proof.Laws.LengthFixed.Statement .boot := rfl
theorem Sys2Proof.Laws.LengthFixed.envHostSend (b : Byte) : Sys2Proof.Laws.LengthFixed.Statement (.envHostSend b) := rfl
theorem Sys2Proof.Laws.LengthFixed.envTrigger (c : Chan) : Sys2Proof.Laws.LengthFixed.Statement (.envTrigger c) := rfl
theorem Sys2Proof.Laws.LengthFixed.envAltEdge : Sys2Proof.Laws.LengthFixed.Statement .envAltEdge := rfl
end

