-- ==== Sys2Proof/Tests/Slice0.lean ====
section
/-! SUPPORT. Tests and witnesses. Expected values are the spec's: the encodings of 30_encoding.md, the vectors of
95_test_vectors.md (named V-...), or a hand calculation from a rule. A theorem named witness_<statement> shows a state and operands that
meet the hypotheses of that statement of Certificates/Slice0/Obligations.lean, one for each of its clauses. -/

namespace Sys2Proof.Tests

open Sys2Proof Sys2Proof.Machine

set_option Elab.async false

/-! ### Helpers -/

/-- The SMALL parameter set of 95_test_vectors.md. -/
def smallParams : Params :=
  { Params.default with
    nChirp := 8, chirpF0 := 1000, chirpF1 := 3500, chirpDuration := mkRat 3 1000, levels := 256, nCap := 3 }

/-- Reset with the SMALL set. -/
def fresh : State := State.resetWith smallParams

/-- After BOOT with the SMALL set (V-BOOT-1), but for CHIRP and the registers of its generation, which no step below reads. -/
def booted : State :=
  { fresh with
    phase := .poll
    ch0 := bootedChan smallParams .emit
    ch1 := bootedChan smallParams .cap0
    ch2 := bootedChan smallParams .cap1
    ct := { en := true, cnt := 0, per := 30, duty := 15, indDuty := 15 }
    gt := { run := false, cnt := 0, per := 5, cmp := 3, aux := false }
    mem := bootMemory smallParams [] }

/-- `exec` answers a next state with a property. -/
def after (i : Instr) (s : State) (p : State → Bool) : Bool :=
  match exec i s with
  | .next t => p t
  | .fault _ => false
  | .refused _ => false

/-- `exec` declines for a reason. -/
def declines (i : Instr) (s : State) (r : Refusal) : Bool :=
  match exec i s with
  | .next _ => false
  | .fault _ => false
  | .refused q => q = r

/-- What `after` says. -/
theorem after_iff (i : Instr) (s : State) (p : State → Bool) :
    after i s p = true ↔ ∃ t, exec i s = .next t ∧ p t = true := by
  unfold after
  split <;> rename_i h <;> simp [h]

/-! ### WellFormed: an ill-formed term for each check -/

theorem test_illFormed_ignored : ¬WellFormed (.ignored 0x10) ∧ ¬WellFormed (.ignored 0xFE) := by decide

theorem test_illFormed_tNone :
    ¬WellFormed (.tNone 0x04) ∧ ¬WellFormed (.tNone 0x09) ∧ ¬WellFormed (.tNone 0x12) ∧ ¬WellFormed (.tNone 0x63) := by decide

theorem test_illFormed_burst : ¬WellFormed (.teConfigure .emit 0 1 1) := by decide

theorem test_illFormed_arm : ¬WellFormed (.teArm .emit 0) ∧ ¬WellFormed (.teArm .emit 0x2001B008) := by decide

theorem test_illFormed_carrier :
    ¬WellFormed (.ctConfigure 1 1 1) ∧ ¬WellFormed (.ctConfigure 30 0 15) ∧ ¬WellFormed (.ctConfigure 30 30 15) ∧
    ¬WellFormed (.ctConfigure 30 15 0) ∧ ¬WellFormed (.ctConfigure 30 15 30) := by decide

theorem test_illFormed_guard :
    ¬WellFormed (.gtConfigure 0 0) ∧ ¬WellFormed (.gtConfigure 5 5) ∧ ¬WellFormed (.gtConfigure 1 1) := by decide

/-- The ill-formed CTRL words of V-FD-1, a NEXT that is not a multiple of 16 and a misaligned address (R97, R72). -/
theorem test_illFormed_descriptor :
    ¬WellFormed (.descriptor .cap0 (Descriptor.ofWords 0x0003005F 0x40000010 0x20002000 0x2001B010)) ∧
    ¬WellFormed (.descriptor .cap0 (Descriptor.ofWords 0x0000004F 0x40000010 0x20002000 0x2001B010)) ∧
    ¬WellFormed (.descriptor .cap0 (Descriptor.ofWords 0x000300CF 0x40000010 0x20002000 0x2001B010)) ∧
    ¬WellFormed (.descriptor .cap0 (Descriptor.ofWords 0x0003004F 0x40000010 0x20002000 0x2001B028)) ∧
    ¬WellFormed (.descriptor .cap0 (Descriptor.ofWords 0x0003004F 0x40000011 0x20002000 0x2001B010)) ∧
    ¬WellFormed (.descriptor .cap0 (Descriptor.ofWords 0x0003004F 0x40000010 0x20002001 0x2001B010)) ∧
    WellFormed (.descriptor .cap0 (Descriptor.ofWords 0x0003004F 0x40000010 0x20002000 0x2001B010)) ∧
    WellFormed (.descriptor .cap0 (Descriptor.ofWords 0x0003005E 0x40000010 0x20002000 0x2001B010)) := by decide +kernel

theorem test_illFormed_draw : ¬WellFormed (.teBeat .emit 1) ∧ WellFormed (.teBeat .cap1 1) := by decide

/-! ### Decoding: every constructor from a word written out from its encoding -/

/-- R92; V-HL-1. -/
theorem test_decode_h :
    decode ⟨.h, [0b00010000]⟩ = .ok .startJob ∧ decode ⟨.h, [0b11111110]⟩ = .ok .ampEnable ∧
    decode ⟨.h, [0b11111111]⟩ = .ok .ampDisable ∧ decode ⟨.h, [0b00000000]⟩ = .ok (.rsvdLow 0) ∧
    decode ⟨.h, [0b00001111]⟩ = .ok (.rsvdLow 15) ∧ decode ⟨.h, [0b00010001]⟩ = .ok (.ignored 0x11) ∧
    decode ⟨.h, [0b10000000]⟩ = .ok (.ignored 0x80) ∧ decode ⟨.h, [0b11111101]⟩ = .ok (.ignored 0xFD) := by decide

/-- R101; V-AS-1, `FLAGS` then `ACQ_STATE`. -/
theorem test_decode_t :
    decode ⟨.t, [0b00000100]⟩ = .ok .tIdleEmit ∧ decode ⟨.t, [0b01111100]⟩ = .ok .tIdleEmit ∧
    decode ⟨.t, [0b00001001]⟩ = .ok .tEmitWait ∧ decode ⟨.t, [0b01110010]⟩ = .ok .tWaitListen ∧
    decode ⟨.t, [0b01100011]⟩ = .ok .tListenIdle ∧ decode ⟨.t, [0b01000011]⟩ = .ok (.tNone 0x43) ∧
    decode ⟨.t, [0b01110101]⟩ = .ok (.tNone 0x75) ∧ decode ⟨.t, [0b10000000]⟩ = .error .bitsAboveWidth := by decide

/-- R102; a word of two lines is not one-hot (R90). -/
theorem test_decode_e :
    decode ⟨.e, [0b00000001]⟩ = .ok .hEmitDone ∧ decode ⟨.e, [0b00000010]⟩ = .ok .hGuardOvf ∧
    decode ⟨.e, [0b00000100]⟩ = .ok .hCap0Done ∧ decode ⟨.e, [0b00001000]⟩ = .ok .hCap1Done ∧
    decode ⟨.e, [0b00010000]⟩ = .ok .hAltTrig ∧ decode ⟨.e, [0b00001100]⟩ = .error .notOneHot := by decide

/-- R100, the operation number above the channel; operands after the code (log 8). -/
theorem test_decode_k :
    decode ⟨.k, [0b000100, 0, 0, 0, 0, 0, 0, 0, 0]⟩ = .ok .csGenerate ∧
    decode ⟨.k, [0b001001, 0b00001011, 0, 0, 0, 0, 0, 0, 0]⟩ = .ok (.teConfigure .cap0 3 2 0) ∧
    decode ⟨.k, [0b001100, 0x00, 0xB0, 0x01, 0x20, 0, 0, 0, 0]⟩ = .ok (.teArm .emit 0x2001B000) ∧
    decode ⟨.k, [0b010010, 0, 0, 0, 0, 0, 0, 0, 0]⟩ = .ok (.teEnable .cap1) ∧
    decode ⟨.k, [0b010100, 0, 0, 0, 0, 0, 0, 0, 0]⟩ = .ok (.teSuspend .emit) ∧
    decode ⟨.k, [0b011001, 0, 0, 0, 0, 0, 0, 0, 0]⟩ = .ok (.teResume .cap0) ∧
    decode ⟨.k, [0b011110, 0, 0, 0, 0, 0, 0, 0, 0]⟩ = .ok (.teDisable .cap1) ∧
    decode ⟨.k, [0b100000, 30, 0, 15, 0, 10, 0, 0, 0]⟩ = .ok (.ctConfigure 30 15 10) ∧
    decode ⟨.k, [0b100100, 0, 0, 0, 0, 0, 0, 0, 0]⟩ = .ok .ctEnable ∧
    decode ⟨.k, [0b101000, 5, 0, 0, 1, 3, 0, 0, 0]⟩ = .ok (.gtConfigure 0x01000005 3) ∧
    decode ⟨.k, [0b101100, 0, 0, 0, 0, 0, 0, 0, 0]⟩ = .ok .gtRetrigger := by decide +kernel

/-- R100: reserved codes of format K. -/
theorem test_decode_k_reserved :
    decode ⟨.k, [0b000000, 0, 0, 0, 0, 0, 0, 0, 0]⟩ = .error .reservedOperation ∧
    decode ⟨.k, [0b110000, 0, 0, 0, 0, 0, 0, 0, 0]⟩ = .error .reservedOperation ∧
    decode ⟨.k, [0b010011, 0, 0, 0, 0, 0, 0, 0, 0]⟩ = .error .reservedChannel ∧
    decode ⟨.k, [0b000101, 0, 0, 0, 0, 0, 0, 0, 0]⟩ = .error .strayBits ∧
    decode ⟨.k, [0b01000100, 0, 0, 0, 0, 0, 0, 0, 0]⟩ = .error .bitsAboveWidth ∧
    decode ⟨.k, [0b000100]⟩ = .error .badLength := by decide +kernel

/-- R96, R98: DESC[1] of the DEFAULT set, the bytes of V-FD-1 (the record's number after them, log 6); R94, V-FS-1. -/
theorem test_decode_d_s :
    decode ⟨.d, [0x4F, 0x00, 0xA8, 0x61, 0x10, 0x00, 0x00, 0x40, 0x00, 0x20, 0x00, 0x20, 0x10, 0xB0, 0x01, 0x20, 1]⟩ =
      .ok (.descriptor .cap0
        { valid := true, blockAct := 3, elemSize := 1, srcInc := false, dstInc := true, reserved := 0, count := 25000
          src := 0x40000010, dst := 0x20002000, next := 0x2001B010 }) ∧
    decode ⟨.s, [0xBC, 0x0A]⟩ = .ok (.sample 0x0ABC) := by decide +kernel

/-- The steps of R103 in the order of the table (the numbers are log 9's). -/
theorem test_decode_n :
    decode ⟨.n, [0, 0, 0, 0]⟩ = .ok .hlPoll ∧ decode ⟨.n, [1, 0, 0, 0]⟩ = .ok .asEval ∧
    decode ⟨.n, [2, 0, 0, 0]⟩ = .ok .hlDrain ∧ decode ⟨.n, [3, 1, 0xBC, 0x0A]⟩ = .ok (.teBeat .cap0 0x0ABC) ∧
    decode ⟨.n, [4, 0, 0, 0]⟩ = .ok .ctTick ∧ decode ⟨.n, [5, 0, 0, 0]⟩ = .ok .gtTick ∧
    decode ⟨.n, [6, 0, 0, 0]⟩ = .ok .boot ∧ decode ⟨.n, [7, 0x10, 0, 0]⟩ = .ok (.envHostSend 0x10) ∧
    decode ⟨.n, [8, 2, 0, 0]⟩ = .ok (.envTrigger .cap1) ∧ decode ⟨.n, [9, 0, 0, 0]⟩ = .ok .envAltEdge ∧
    decode ⟨.n, [10, 0, 0, 0]⟩ = .error .unknownStep := by decide +kernel

/-- The host's two names: a host byte placed as a table word is the next step's. -/
theorem test_tableWord :
    decodeTableWord 8 0x10 = some .startJob ∧ decodeTableWord 16 0x0ABC = some (.sample 0x0ABC) ∧
    decodeTableWord 7 0x63 = some .tListenIdle ∧ decodeTableWord 6 0x26 = none ∧ decodeTableWord 6 0x24 = some .ctEnable ∧
    (match step (State.reset.withFetchWord 8 0x10) with
      | .next t => decide (t.flags = 1 ∧ t.jobInd = true ∧ t.script = [])
      | .fault _ => false
      | .refused _ => false) = true := by decide +kernel

/-! ### The host link -/

/-- V-HL-2. -/
theorem test_startJob : after .startJob booted (fun t => t.flags = 0b00001 ∧ t.jobInd = true) = true := by decide +kernel

theorem test_startJob_busy :
    after .startJob { booted with acqState := .wait } (fun t => t = { booted with acqState := .wait }) = true := by decide +kernel

/-- V-HL-3. -/
theorem test_ampEnable :
    after .ampEnable { booted with acqState := .emit } (fun t => t.ampEn = true ∧ t.acqState = .emit) = true := by decide +kernel

theorem test_ampDisable : after .ampDisable { booted with ampEn := true } (fun t => t.ampEn = false) = true := by decide +kernel

theorem test_rsvdLow : after (.rsvdLow 15) booted (fun t => t = booted) = true := by decide +kernel

theorem test_ignored : after (.ignored 0xFD) booted (fun t => t = booted) = true := by decide +kernel

/-- V-HL-4: one byte, the oldest. -/
theorem test_hlPoll :
    after .hlPoll { booted with rxq := [0xFE, 0x10] }
      (fun t => t.ampEn = true ∧ t.rxq = [0x10] ∧ t.flags = 0 ∧ t.phase = .eval) = true := by decide +kernel

theorem test_hlPoll_start :
    after .hlPoll { booted with rxq := [0x10] } (fun t => t.flags = 0b00001 ∧ t.jobInd = true ∧ t.rxq = []) = true := by
  decide +kernel

theorem test_envHostSend : after (.envHostSend 2) { booted with rxq := [1] } (fun t => t.rxq = [1, 2]) = true := by decide +kernel

/-- V-FS-1. -/
theorem test_sample : after (.sample 0x0100) booted (fun t => t.txs = [0x00, 0x01]) = true := by decide +kernel

/-- Captured elements of V-HL-5. -/
def captured : State :=
  { booted with
    mem := Memory.writeLE (Memory.writeLE (Memory.writeLE (Memory.writeLE (Memory.writeLE (Memory.writeLE booted.mem
      0x20002000 .b2 0x0102) 0x20002002 .b2 0x0304) 0x20002004 .b2 0x0506) 0x2000E350 .b2 0xA0B0) 0x2000E352 .b2 0xC0D0)
      0x2000E354 .b2 0xE0F0 }

/-- V-HL-5. -/
theorem test_hlDrain :
    after .hlDrain captured
      (fun t => t.txs = [0x02, 0x01, 0x04, 0x03, 0x06, 0x05, 0xB0, 0xA0, 0xD0, 0xC0, 0xF0, 0xE0]) = true := by decide +kernel

/-! ### The state machine: V-AS-1, V-AS-3, V-AS-4 -/

theorem test_tIdleEmit :
    after .tIdleEmit { booted with flags := 0b11111 }
      (fun t => t.flags = 0b11110 ∧ t.acqState = .emit ∧ t.ch0.state = .active ∧ t.ch1.state = .suspended) = true := by
  decide +kernel

theorem test_tIdleEmit_idleChannel :
    after .tIdleEmit { booted with flags := 1, ch0 := ChanRegs.reset }
      (fun t => t.acqState = .emit ∧ t.ch0.state = .idle) = true := by decide +kernel

theorem test_tEmitWait :
    after .tEmitWait { booted with acqState := .emit, flags := 0b11110 }
      (fun t => t.flags = 0b11100 ∧ t.acqState = .wait ∧ t.gt.run = true ∧ t.gt.cnt = 5 ∧ t.gt.aux = false) = true := by
  decide +kernel

theorem test_tWaitListen :
    after .tWaitListen { booted with acqState := .wait, flags := 0b11100 }
      (fun t => t.flags = 0b11000 ∧ t.acqState = .listen ∧ t.ch0.state = .suspended ∧ t.ch1.state = .active ∧
        t.ch2.state = .active) = true := by decide +kernel

theorem test_tListenIdle :
    after .tListenIdle { captured with acqState := .listen, flags := 0b11111, jobInd := true }
      (fun t => t.flags = 0b00111 ∧ t.acqState = .idle ∧ t.jobInd = false ∧ t.txs.length = 12) = true := by decide +kernel

theorem test_tNone :
    after (.tNone 0x43) { booted with acqState := .listen, flags := 0b10000 }
      (fun t => t.flags = 0b10000 ∧ t.acqState = .listen) = true := by decide +kernel

/-- V-AS-3, its second evaluation. -/
theorem test_asEval :
    after .asEval { booted with phase := .eval, acqState := .emit, flags := 0b00110 }
      (fun t => t.flags = 0b00100 ∧ t.acqState = .wait ∧ t.phase = .poll) = true := by decide +kernel

theorem test_asEval_oneFlag :
    after .asEval { booted with phase := .eval, acqState := .listen, flags := 0b01000 }
      (fun t => t.flags = 0b01000 ∧ t.acqState = .listen ∧ t.txs = []) = true := by decide +kernel

/-! ### The bridge: V-IB-1, V-IB-2 -/

theorem test_hEmitDone :
    after .hEmitDone { booted with evtPending := 0b00001 } (fun t => t.evtPending = 0 ∧ t.flags = 0b00010) = true := by
  decide +kernel

theorem test_hGuardOvf :
    after .hGuardOvf { booted with evtPending := 0b00010, flags := 0b00100 }
      (fun t => t.evtPending = 0 ∧ t.flags = 0b00100) = true := by decide +kernel

theorem test_hCap0Done :
    after .hCap0Done { booted with evtPending := 0b01100 } (fun t => t.evtPending = 0b01000 ∧ t.flags = 0b01000) = true := by
  decide +kernel

theorem test_hCap1Done :
    after .hCap1Done { booted with evtPending := 0b01100 } (fun t => t.evtPending = 0b00100 ∧ t.flags = 0b10000) = true := by
  decide +kernel

/-- The alternate trigger on. -/
def alternate : State := { booted with cfg := { smallParams with altEnable := true } }

theorem test_hAltTrig_first :
    after .hAltTrig { alternate with evtPending := 0b10000 }
      (fun t => t.altCount = 1 ∧ t.flags = 0 ∧ t.evtPending = 0) = true := by decide +kernel

theorem test_hAltTrig_second :
    after .hAltTrig { alternate with evtPending := 0b10000, altCount := 1 }
      (fun t => t.altCount = 0 ∧ t.flags = 0b00001 ∧ t.jobInd = false) = true := by decide +kernel

/-- An edge raised before BOOT waits for it (R50, R52; log 34). -/
theorem test_hAltTrig_beforeBoot :
    declines .hAltTrig { alternate with phase := .boot, evtPending := 0b10000 } (.notEnabled "H_ALT_TRIG") = true ∧
    declines .hEmitDone { booted with phase := .boot, evtPending := 0b00001 } (.notEnabled "H_EMIT_DONE") = true := by
  decide +kernel

theorem test_envAltEdge : after .envAltEdge alternate (fun t => t.evtPending = 0b10000) = true := by decide +kernel

theorem test_envAltEdge_off : after .envAltEdge booted (fun t => t = booted) = true := by decide +kernel

/-! ### The synthesizer: V-CQ-1, V-TW-1, V-CS-3 -/

/-- The buffer and the registers of V-CS-3, AS_WRITTEN. -/
theorem test_csGenerate :
    after .csGenerate fresh (fun t =>
      (List.range 8).map (fun k => (t.element 0x20000000 k).toNat) = [128, 151, 60, 159, 189, 52, 149, 0] ∧
      t.cs = { ncoPh := 187652517748559, ncoFr := 105553789167611, winPh := 40210710958664, genIdx := 8, genDone := true }) =
      true := by decide +kernel

/-- The buffer of V-CS-3, LINEAR_SWEEP. -/
theorem test_csGenerate_linear :
    after .csGenerate (State.resetWith { smallParams with phaseForm := .linearSweep }) (fun t =>
      (List.range 8).map (fun k => (t.element 0x20000000 k).toNat) = [128, 106, 206, 58, 16, 86, 113, 0]) = true := by
  decide +kernel

theorem test_cosq :
    [0x100000000000, 0x3FFFFFFFFFFF, 0x555555555555, 0x600000000000, 0xAAAAAAAAAAAA, 0xE00000000000, 0x123456789ABC].map
      (fun n => cosq smallParams (BitVec.ofNat 48 n)) =
      [992008093, 6, -536870913, -759250124, -536870915, 759250124, 968335302] := by decide +kernel

/-- V-TW-1, DEFAULT. -/
theorem test_tuningWords :
    ph0 Params.default = 0 ∧ ftw0 Params.default = 51539607552419 ∧ crw Params.default = 839 ∧
    wtw Params.default = 68736258049 ∧ wtw { Params.default with nChirp := 2 } = 0 ∧
    crw { Params.default with phaseForm := .linearSweep } = 281465749241856 := by decide +kernel

/-- V-CS-5: the tie goes up. -/
theorem test_roundSample :
    roundSample Params.default (2 ^ 30) (2 ^ 31) = 4096 ∧ roundSample Params.default (-(2 ^ 30)) (2 ^ 31) = 0 ∧
    roundSample { smallParams with levels := 1 } (-1) 1 = 0 ∧ roundSample { smallParams with levels := 1 } 0 1 = 1 := by
  decide +kernel

/-- V-CS-3, the column S_ref of AS_WRITTEN, index 0 to 3. -/
theorem test_refSample : (List.range 4).map (refSample smallParams) = [128, 151, 60, 159] := by decide +kernel

/-- From 6 bits, where the two ends do not round alike, the doubling ends at the same sample (V-CS-3, index 3). -/
theorem test_refRound :
    (refBounds 6 smallParams 3).lo ≠ (refBounds 6 smallParams 3).hi ∧ refRound smallParams 3 8 6 = 159 := by decide +kernel

/-! ### The transfer engine: V-MEM-1, V-TE-1 to V-TE-7 -/

theorem test_memory :
    memWrite (.beat .cap0) 0x20002001 .b2 0 fresh = .error (.misaligned 0x20002001) ∧
    memRead (.beat .emit) 0 0x40000000 .b2 fresh = .error (.noAccess 0x40000000) ∧
    memWrite (.beat .emit) 0x40000000 .b4 0 fresh = .error (.noAccess 0x40000000) ∧
    memRead (.beat .emit) 0 0x30000000 .b2 fresh = .error (.noAccess 0x30000000) ∧
    memWrite .generator 0x20000000 .b2 0 booted = .error .immutableAfterBoot ∧
    memRead (.beat .cap0) 0x0ABC 0x40000010 .b2 fresh = .ok 0x0ABC := by decide +kernel

theorem test_teConfigure :
    after (.teConfigure .emit 2 1 0) fresh (fun t => t.ch0.prio = 2 ∧ t.ch0.trigSrc = 1 ∧ t.ch0.burst = 0) = true ∧
    declines (.teConfigure .emit 0 1 0) booted (.channelNotIdle .emit) = true := by decide +kernel

theorem test_teArm :
    after (.teArm .emit 0x2001B000) fresh (fun t => t.ch0.descPtr = 0x2001B000 ∧ t.ch0.state = .idle) = true ∧
    declines (.teArm .emit 0x2001B010) booted (.channelNotIdle .emit) = true := by decide +kernel

/-- Channel 1 as V-TE-2 sets it, with a CTRL word and a NEXT. -/
def armed (ctrl next : Word) : State :=
  { booted with
    mem := Memory.storeRecord booted.mem 0x2001B010 ctrl 0x40000010 0x20002000 next
    ch1 := { ChanRegs.reset with descPtr := 0x2001B010, trigSrc := 2 } }

theorem test_teEnable :
    after (.teEnable .cap0) (armed 0x0003004F 0x2001B010) (fun t =>
      t.ch1 = { ChanRegs.reset with
        descPtr := 0x2001B010, trigSrc := 2, state := .active, wCtrl := 0x0003004F, wSrc := 0x40000010, wDst := 0x20002000
        wCnt := 3, wNext := 0x2001B010 }) = true := by decide +kernel

theorem test_teEnable_unusable :
    after (.teEnable .cap0) (armed 0x0003005E 0x2001B010) (fun t => t = armed 0x0003005E 0x2001B010) = true ∧
    declines (.teEnable .cap0) (armed 0x0003005F 0x2001B010) .reservedDescriptor = true := by decide +kernel

/-- Channel 1 in the middle of a block, triggered. -/
def running (ctrl next : Word) (count : Half) : State :=
  { armed ctrl next with
    ch1 := { ChanRegs.reset with
      descPtr := 0x2001B010, trigSrc := 2, state := .active, wCtrl := ctrl, wSrc := 0x40000010, wDst := 0x20002002
      wCnt := count, wNext := next, trig := true } }

theorem test_teSuspend :
    after (.teSuspend .cap0) (running 0x0003004F 0x2001B010 2)
      (fun t => t.ch1.state = .suspended ∧ t.ch1.trig = false ∧ t.ch1.wCnt = 2) = true := by decide +kernel

theorem test_teResume :
    after (.teResume .cap1) booted (fun t => t.ch2.state = .active ∧ t.ch2.wCnt = 3) = true ∧
    after (.teResume .emit) fresh (fun t => t = fresh) = true := by decide +kernel

/-- V-TE-5. -/
theorem test_teDisable :
    after (.teDisable .cap0) (running 0x0003004F 0x2001B010 1)
      (fun t => t.ch1.state = .idle ∧ t.ch1.trig = false ∧ t.ch1.descPtr = 0x2001B010 ∧ t.evtPending = 0) = true := by
  decide +kernel

theorem test_envTrigger : after (.envTrigger .emit) booted (fun t => t = booted) = true := by decide +kernel

/-- V-TE-3. -/
theorem test_teBeat :
    after (.teBeat .cap0 0x0ABC) (running 0x0003004F 0x2001B010 2) (fun t =>
      Memory.read t.mem 0x20002002 = 0xBC ∧ Memory.read t.mem 0x20002003 = 0x0A ∧ t.ch1.wDst = 0x20002004 ∧ t.ch1.wCnt = 1 ∧
      t.ch1.wSrc = 0x40000010 ∧ t.ch1.trig = false ∧ t.evtPending = 0) = true := by decide +kernel

/-- V-TE-4, its first, fourth, sixth and last rows. -/
theorem test_teBeat_last :
    after (.teBeat .cap0 1) (running 0x00020049 0x2001B010 1)
      (fun t => t.ch1.state = .active ∧ t.ch1.wCnt = 2 ∧ t.ch1.wDst = 0x20002000 ∧ t.evtPending = 0) = true ∧
    after (.teBeat .cap0 1) (running 0x0002004F 0x2001B010 1)
      (fun t => t.ch1.state = .suspended ∧ t.ch1.wCnt = 2 ∧ t.evtPending = 0b00100) = true ∧
    after (.teBeat .cap0 1) (running 0x0002004F 0 1)
      (fun t => t.ch1.state = .idle ∧ t.ch1.wCnt = 0 ∧ t.evtPending = 0b00100) = true ∧
    declines (.teBeat .cap0 1) (running 0x0002004F 0x2001B028 1) (.misaligned 0x2001B028) = true := by decide +kernel

/-- Channels 1 and 2 ACTIVE as V-TE-7 has them. -/
def contest (t1 t2 : Bool) (p1 p2 : BitVec 2) : State :=
  { booted with
    ch1 := { booted.ch1 with state := .active, trig := t1, prio := p1 }
    ch2 := { booted.ch2 with state := .active, trig := t2, prio := p2 } }

theorem test_arbiter :
    (contest false false 0 0).grant = none ∧ (contest true false 0 0).grant = some .cap0 ∧
    (contest true true 0 0).grant = some .cap0 ∧ (contest true true 0 3).grant = some .cap1 ∧
    (contest true true 2 2).grant = some .cap0 ∧ (contest false true 3 0).grant = some .cap1 := by decide +kernel

/-- V-FD-1: the bytes of DESC[2] of the SMALL set. -/
theorem test_descriptor :
    after (.descriptor .cap1 (Descriptor.ofWords 0x0003004F 0x40000020 0x2000E350 0x2001B020)) fresh (fun t =>
      (List.range 16).map (fun k => (Memory.read t.mem (0x2001B020 + k)).toNat) =
        [0x4F, 0x00, 0x03, 0x00, 0x20, 0x00, 0x00, 0x40, 0x50, 0xE3, 0x00, 0x20, 0x20, 0xB0, 0x01, 0x20]) = true := by
  decide +kernel

/-! ### The timers: V-CT-1, V-CT-2, V-GT-1, V-GT-2 -/

theorem test_ctConfigure :
    after (.ctConfigure 30 15 10) fresh
      (fun t => t.ct = { en := false, cnt := 0, per := 30, duty := 15, indDuty := 10 }) = true ∧
    declines (.ctConfigure 30 30 15) fresh (.badOperand "CT_CONFIGURE") = true := by decide +kernel

theorem test_ctEnable :
    after .ctEnable { fresh with ct := { booted.ct with en := false } } (fun t => t.ct.en = true ∧ t.carrP = true) = true ∧
    declines .ctEnable fresh (.notConfigured "CT_ENABLE") = true := by decide +kernel

theorem test_ctTick :
    after .ctTick { booted with ct := { booted.ct with cnt := 14 } }
      (fun t => t.ct.cnt = 15 ∧ t.carrP = false ∧ t.carrN = true ∧ t.carrInd = false) = true := by decide +kernel

theorem test_ctTick_wrap :
    after .ctTick { booted with ct := { booted.ct with cnt := 29 } } (fun t => t.ct.cnt = 0 ∧ t.carrP = true) = true := by
  decide +kernel

theorem test_gtConfigure :
    after (.gtConfigure 5 3) fresh (fun t => t.gt = { run := false, cnt := 0, per := 5, cmp := 3, aux := false }) = true ∧
    declines (.gtConfigure 5 5) fresh (.badOperand "GT_CONFIGURE") = true := by decide +kernel

/-- V-GT-2, retrigger while running. -/
theorem test_gtRetrigger :
    after .gtRetrigger { booted with gt := { booted.gt with run := true, cnt := 2, aux := true } }
      (fun t => t.gt.cnt = 5 ∧ t.gt.aux = false ∧ t.gt.run = true ∧ t.evtPending = 0) = true := by decide +kernel

theorem test_gtTick_compare :
    after .gtTick { booted with gt := { booted.gt with run := true, cnt := 3 } }
      (fun t => t.gt.cnt = 2 ∧ t.gt.aux = true ∧ t.evtPending = 0) = true := by decide +kernel

theorem test_gtTick_overflow :
    after .gtTick { booted with gt := { booted.gt with run := true, cnt := 1, aux := true } }
      (fun t => t.gt.cnt = 0 ∧ t.gt.run = false ∧ t.gt.aux = false ∧ t.evtPending = 0b00010) = true := by decide +kernel

/-! ### Boot: V-BOOT-1, V-BOOT-2 -/

theorem test_boot :
    after .boot fresh (fun t => t.phase = .poll ∧ t.acqState = .idle ∧
      t.ch0 = { prio := 0, trigSrc := 1, burst := 0, state := .suspended, descPtr := 0x2001B000, wCtrl := 0x0008002F
                wSrc := 0x20000000, wDst := 0x40000000, wCnt := 8, wNext := 0x2001B000, trig := false } ∧
      t.ch2 = { prio := 0, trigSrc := 3, burst := 0, state := .suspended, descPtr := 0x2001B020, wCtrl := 0x0003004F
                wSrc := 0x40000020, wDst := 0x2000E350, wCnt := 3, wNext := 0x2001B020, trig := false } ∧
      t.ct = { en := true, cnt := 0, per := 30, duty := 15, indDuty := 15 } ∧
      t.gt = { run := false, cnt := 0, per := 5, cmp := 3, aux := false }) = true := by decide +kernel

theorem test_boot_refused :
    ∀ p ∈ [{ smallParams with nChirp := 1 }, { smallParams with guardCompare := 5 }, { smallParams with prioEmit := 4 },
        { smallParams with descBase := 0x2001B008 }, { smallParams with cap1Base := 0x20002004 },
        { smallParams with phaseBits := 47 }],
      declines .boot (State.resetWith p) .badParameters = true := by decide +kernel

/-! ### Proper states -/

/-- The clauses of `ChanRegs.Booted`, as a test. -/
def bootedCheck (p : Params) (c : Chan) (r : ChanRegs) : Bool :=
  decide (r.prio = bootPrio p c ∧ r.trigSrc = bootTrigSrc c ∧ r.burst = 0 ∧ r.descPtr = descAddr p c ∧
    r.wCtrl = (bootDescriptor p c).ctrl ∧ r.wNext = descAddr p c) &&
  decide ((1 ≤ r.wCnt.toNat ∧ r.wCnt.toNat ≤ blockCount p c) ∧
    r.wSrc = workAddr (bootDescriptor p c).srcInc (bootDescriptor p c).src.toNat (blockCount p c - r.wCnt.toNat) ∧
    r.wDst = workAddr (bootDescriptor p c).dstInc (bootDescriptor p c).dst.toNat (blockCount p c - r.wCnt.toNat) ∧
    (r.trig = true → r.state = .active) ∧ (r.state = .suspended → r.wCnt.toNat = blockCount p c))

theorem booted_of_check {p : Params} {c : Chan} {r : ChanRegs} (h : bootedCheck p c r = true) : ChanRegs.Booted p c r := by
  simp only [bootedCheck, Bool.and_eq_true, decide_eq_true_eq] at h
  obtain ⟨⟨h1, h2, h3, h4, h5, h6⟩, h7, h8, h9, h10, h11⟩ := h
  exact ⟨h1, h2, h3, h4, h5, h6, h7, h8, h9, h10, h11⟩

/-- The clauses of `State.Proper` but the row, as a test. -/
def properCheck (s : State) : Bool :=
  decide (s.cfg.Legal) && decide (s.cfg.altEnable = false ∧ s.altCount = 0 ∧ s.phase ≠ .boot) && decide (Memory.Wf s.mem) &&
  (List.all [Chan.emit, .cap0, .cap1] fun c =>
    let a := (descAddr s.cfg c).toNat
    let d := bootDescriptor s.cfg c
    decide (s.mem.readLE a .b4 = d.ctrl ∧ s.mem.readLE (a + 4) .b4 = d.src ∧ s.mem.readLE (a + 8) .b4 = d.dst ∧
      s.mem.readLE (a + 12) .b4 = d.next) && bootedCheck s.cfg c (s.chan c)) &&
  decide (s.ct.en = true ∧ s.ct.per.toNat = s.cfg.carrierPeriod ∧ s.ct.duty.toNat = s.cfg.carrierDuty ∧
    s.ct.indDuty.toNat = s.cfg.carrierIndDuty ∧ s.ct.cnt.toNat < s.ct.per.toNat) &&
  decide (s.gt.per.toNat = s.cfg.guardPeriod ∧ s.gt.cmp.toNat = s.cfg.guardCompare ∧
    (s.gt.run = true → 1 ≤ s.gt.cnt.toNat ∧ s.gt.cnt.toNat ≤ s.gt.per.toNat) ∧
    (s.gt.run = true → s.gt.aux = decide (s.gt.cmp ≠ 0 ∧ s.gt.cmp.toNat + s.gt.cnt.toNat ≤ s.gt.per.toNat)) ∧
    (s.gt.run = false → s.gt.cnt = 0 ∧ s.gt.aux = false)) &&
  decide ((s.phase = .poll → s.acqState = .idle → s.flags = 0) ∧ s.jobInd = (s.acqState ≠ .idle || s.flag .emitStart) ∧
    4 * s.cfg.nCap ∣ s.txs.length)

theorem proper_of_check {s : State} (h : properCheck s = true) (row : s.Row) : s.Proper := by
  simp only [properCheck, Bool.and_eq_true, decide_eq_true_eq, List.all_cons, List.all_nil] at h
  obtain ⟨⟨⟨⟨⟨⟨h1, h2, h3, h4⟩, h5⟩, ⟨d0, b0⟩, ⟨d1, b1⟩, ⟨d2, b2⟩, -⟩, h7⟩, h8⟩, h9⟩ := h
  refine ⟨h1, h2, h3, h4, h5, ?_, ?_, ?_, ?_, row, h9.1, h9.2.1, h9.2.2⟩
  · intro c; cases c; exacts [d0, d1, d2]
  · intro c; cases c; exacts [booted_of_check b0, booted_of_check b1, booted_of_check b2]
  · obtain ⟨e1, e2, e3, e4, e5⟩ := h7; exact ⟨e1, e2, e3, e4, e5⟩
  · obtain ⟨e1, e2, e3, e4, e5⟩ := h8; exact ⟨e1, e2, e3, e4, e5⟩

/-- In Emit, channel 0 at its last element. -/
def emitting : State :=
  { booted with
    acqState := .emit, jobInd := true, ch0 := { booted.ch0 with state := .active, wCnt := 1, wSrc := 0x2000000E } }

/-- In Listen, both capture channels ACTIVE at the start of their blocks. -/
def listening : State :=
  { booted with
    acqState := .listen, jobInd := true
    ch1 := { booted.ch1 with state := .active }, ch2 := { booted.ch2 with state := .active } }

theorem proper_booted : booted.Proper := by
  refine proper_of_check (by decide +kernel) ?_
  show _ ∧ _
  refine ⟨?_, by decide +kernel⟩
  intro c; cases c <;> rfl

theorem proper_emitting : emitting.Proper := by
  refine proper_of_check (by decide +kernel) ?_
  show _ ∧ _
  exact ⟨.inl (by decide +kernel), by decide +kernel⟩

theorem proper_listening : listening.Proper := by
  refine proper_of_check (by decide +kernel) ?_
  show _ ∧ _
  exact ⟨rfl, .inl (by decide +kernel), .inl (by decide +kernel), by decide +kernel⟩

/-! ### Witnesses: a state and operands for the hypotheses of each statement -/

theorem witness_DecodeOfEncode :
    (Instr.ignored 0x11).encodable = true ∧ (Instr.ignored 0xFD).encodable = true ∧ (Instr.tNone 0x43).encodable = true ∧
    (Instr.teBeat .cap1 0xFFFF).encodable = true := by decide +kernel

theorem witness_EncodeOfDecode :
    Format.n ≠ .t ∧ decode ⟨.n, [3, 2, 0xFF, 0xFF]⟩ = .ok (.teBeat .cap1 0xFFFF) := by decide +kernel

theorem witness_StepRunsDecoded :
    (({ booted with script := [⟨.h, [0x10]⟩] } : State).script = [⟨.h, [0x10]⟩] ∧ decode ⟨.h, [0x10]⟩ = .ok .startJob) ∧
    (({ booted with script := [⟨.h, []⟩] } : State).script = [⟨.h, []⟩] ∧ decode ⟨.h, []⟩ = .error .badLength) ∧
    (fresh.script = [] ∧ fresh.phase = .boot) ∧ (booted.script = [] ∧ booted.phase = .poll) ∧
    (({ booted with phase := .eval } : State).script = [] ∧ ({ booted with phase := .eval } : State).phase = .eval) :=
  ⟨⟨rfl, rfl⟩, ⟨rfl, rfl⟩, ⟨rfl, rfl⟩, ⟨rfl, rfl⟩, rfl, rfl⟩

theorem witness_HostPoll :
    (booted.phase = .poll ∧ booted.rxq = []) ∧
    (({ booted with rxq := [0xFF] } : State).phase = .poll ∧ ({ booted with rxq := [0xFF] } : State).rxq = [0xFF]) ∧
    fresh.phase ≠ .poll := ⟨⟨rfl, rfl⟩, ⟨rfl, rfl⟩, by decide⟩

theorem witness_DrainPayload : booted.cfg.Legal := by decide +kernel

theorem witness_IdleToEmit :
    ({ booted with flags := 0b00001 } : State).acqState = .idle ∧
    ({ booted with flags := 0b00001 } : State).flags.getLsbD 0 = true := ⟨rfl, rfl⟩

/-- In Emit with EMIT_STOP; the guard timer with a period. -/
def emitted (per : Word) : State :=
  { booted with acqState := .emit, flags := 0b00010, gt := { booted.gt with per := per } }

theorem witness_EmitToWait :
    ((emitted 1).acqState = .emit ∧ (emitted 1).flags.getLsbD 1 = true ∧ (emitted 1).gt.per ≠ 0) ∧
    ((emitted 0).acqState = .emit ∧ (emitted 0).flags.getLsbD 1 = true ∧ (emitted 0).gt.per = 0) :=
  ⟨⟨rfl, rfl, by decide⟩, rfl, rfl, rfl⟩

theorem witness_WaitToListen :
    ({ booted with acqState := .wait, flags := 0b00100 } : State).acqState = .wait ∧
    ({ booted with acqState := .wait, flags := 0b00100 } : State).flags.getLsbD 2 = true := ⟨rfl, rfl⟩

/-- In Listen with both flags. -/
def captureDone : State := { captured with acqState := .listen, flags := 0b11000, jobInd := true }

theorem witness_ListenToIdle :
    captureDone.cfg.Legal ∧ captureDone.acqState = .listen ∧ captureDone.flags.getLsbD 3 = true ∧
    captureDone.flags.getLsbD 4 = true := ⟨by decide +kernel, rfl, rfl, rfl⟩

/-- One capture flag is not enough. -/
theorem witness_NoTransition :
    ¬((listening.acqState = .idle ∧ (0b01000#5).getLsbD 0 = true) ∨ (listening.acqState = .emit ∧ (0b01000#5).getLsbD 1 = true) ∨
      (listening.acqState = .wait ∧ (0b01000#5).getLsbD 2 = true) ∨
      (listening.acqState = .listen ∧ (0b01000#5).getLsbD 3 = true ∧ (0b01000#5).getLsbD 4 = true)) := by decide +kernel

theorem witness_GuardsDecline :
    ¬(booted.acqState = .idle ∧ booted.flags.getLsbD 0 = true) ∧ ¬(booted.acqState = .emit ∧ booted.flags.getLsbD 1 = true) ∧
    ¬(booted.acqState = .wait ∧ booted.flags.getLsbD 2 = true) ∧
    ¬(booted.acqState = .listen ∧ booted.flags.getLsbD 3 = true ∧ booted.flags.getLsbD 4 = true) ∧
    (captureDone.acqState = .listen ∧ captureDone.flags.getLsbD 3 = true ∧ captureDone.flags.getLsbD 4 = true) := by
  decide +kernel

theorem witness_EvaluationSelects :
    (({ captureDone with phase := .eval } : State).phase = .eval ∧ ({ captureDone with phase := .eval } : State).cfg.Legal ∧
      ({ captureDone with phase := .eval } : State).gt.per ≠ 0) ∧ booted.phase ≠ .eval := by decide +kernel

theorem witness_StateSequence :
    (∃ t, exec .asEval { captureDone with phase := .eval } = .next t ∧ decide (t.acqState ≠ .listen) = true) ∧
    (∃ t, exec .tIdleEmit { booted with flags := 1 } = .next t ∧ decide (t.acqState ≠ .idle) = true) :=
  ⟨(after_iff _ _ _).1 (by decide +kernel), (after_iff _ _ _).1 (by decide +kernel)⟩

/-- A flag set, bit 0 and bit 4; a flag cleared, bit 0 and bit 4. -/
theorem witness_FlagOwnership :
    (∃ t, exec .startJob booted = .next t ∧ (booted.flags.getLsbD 0 = false && t.flags.getLsbD 0) = true) ∧
    (∃ t, exec .hCap1Done { booted with evtPending := 0b01000 } = .next t ∧
      (booted.flags.getLsbD 4 = false && t.flags.getLsbD 4) = true) ∧
    (∃ t, exec .tIdleEmit { booted with flags := 1 } = .next t ∧ (!t.flags.getLsbD 0) = true) ∧
    (∃ t, exec .tListenIdle captureDone = .next t ∧ (captureDone.flags.getLsbD 4 && !t.flags.getLsbD 4) = true) :=
  ⟨(after_iff _ _ _).1 (by decide +kernel), (after_iff _ _ _).1 (by decide +kernel), (after_iff _ _ _).1 (by decide +kernel),
    (after_iff _ _ _).1 (by decide +kernel)⟩

theorem witness_HandlersCommute :
    isHandler .hAltTrig = true ∧ isHandler .hCap1Done = true ∧ Instr.hAltTrig ≠ .hCap1Done ∧
    ({ alternate with evtPending := 0b11000 } : State).enabled .hAltTrig = true ∧
    ({ alternate with evtPending := 0b11000 } : State).enabled .hCap1Done = true := by decide +kernel

/-- The arming occurrence (the second of two), the one before it, and both ways to be declined. -/
theorem witness_AlternateTrigger :
    (alternate.cfg.altEnable = true ∧ alternate.phase ≠ .boot ∧ (0b10000#5).getLsbD 4 = true ∧
      alternate.cfg.altArmCount = (altUp 1).toNat) ∧
    alternate.cfg.altArmCount ≠ (altUp 0).toNat ∧ booted.cfg.altEnable = false ∧ fresh.phase = .boot ∧
    alternate.evtPending.getLsbD 4 = false := by
  decide +kernel

theorem witness_GenerateFrame : fresh.cfg.Legal ∧ fresh.phase = .boot ∧ 0 < fresh.cfg.chirpBase := by decide +kernel

theorem witness_FixedSamples :
    ({ fresh with cfg := { smallParams with chirpImpl := .reference } } : State).cfg.Legal ∧ fresh.phase = .boot := by
  decide +kernel

theorem witness_SampleRange :
    fresh.cfg.Legal ∧ fresh.phase = .boot ∧ ({ smallParams with chirpImpl := .reference } : Params).Legal ∧
    7 < fresh.cfg.nChirp := ⟨by decide +kernel, rfl, by decide +kernel, by decide +kernel⟩

theorem witness_ChirpClosedForm :
    fresh.cfg.Legal ∧ fresh.phase = .boot ∧ fresh.cfg.chirpImpl = .nco ∧ 6 < fresh.cfg.nChirp - 1 := by decide +kernel

/-- The same five parameters, another memory and another capture length. -/
theorem witness_GenerateDeterministic :
    let u : State := { fresh with mem := [(0x20000000, 7)], cfg := { smallParams with nCap := 5 } }
    fresh.cfg.Legal ∧ u.cfg.Legal ∧ fresh.phase = .boot ∧ u.phase = .boot ∧ u.cfg.nChirp = fresh.cfg.nChirp ∧
    u.cfg.chirpF0 = fresh.cfg.chirpF0 ∧ u.cfg.chirpF1 = fresh.cfg.chirpF1 ∧
    u.cfg.chirpDuration = fresh.cfg.chirpDuration ∧ u.cfg.levels = fresh.cfg.levels ∧
    u.cfg.phaseForm = fresh.cfg.phaseForm ∧ u.cfg.chirpImpl = fresh.cfg.chirpImpl :=
  ⟨by decide +kernel, by decide +kernel, rfl, rfl, rfl, rfl, rfl, rfl, rfl, rfl, rfl⟩

theorem witness_CosineRange : Params.default.LegalWidths := by decide

theorem witness_ChannelConfigure :
    (fresh.chan .cap1).state = .idle ∧ (booted.chan .cap1).state ≠ .idle ∧ (1#2) ≠ 0 := by decide +kernel

theorem witness_ChannelArm :
    ((fresh.chan .emit).state = .idle ∧ (0xFFFFFFF0#32) ≠ 0 ∧ (0xFFFFFFF0#32).toNat % 16 = 0) ∧
    (booted.chan .emit).state ≠ .idle ∧ (0xFFFFFFF8#32).toNat % 16 ≠ 0 := by decide +kernel

/-- Nothing armed; VALID 0; a record that loads; one of each reserved value. -/
theorem witness_ChannelEnable :
    smallParams.LegalMap ∧ (fresh.chan .emit).descPtr = 0 ∧
    (((armed 0x0003004E 0x2001B010).chan .cap0).state = .idle ∧
      ((armed 0x0003004E 0x2001B010).chan .cap0).descPtr.toNat = smallParams.descBase + 16 * 1) ∧
    (((armed 0x0003004E 0x2001B010).mem.readLE (smallParams.descBase + 16) .b4).getLsbD 0 = false) ∧
    ((armed 0x0003004F 0x2001B010).mem.readLE (smallParams.descBase + 16) .b4 = 0x0003004F ∧
      (armed 0x0003004F 0x2001B010).mem.readLE (smallParams.descBase + 20) .b4 = 0x40000010 ∧
      (armed 0x0003004F 0x2001B010).mem.readLE (smallParams.descBase + 24) .b4 = 0x20002000 ∧
      (armed 0x0003004F 0x2001B010).mem.readLE (smallParams.descBase + 28) .b4 = 0x2001B010) := by decide +kernel

theorem witness_ChannelEnable_values :
    ((0x0003004F#32).getLsbD 0 = true ∧ (0x0003004F#32).extractLsb' 3 2 ≠ 3 ∧ (0x0003004F#32).extractLsb' 7 9 = 0 ∧
      (0x0003004F#32).extractLsb' 16 16 ≠ 0 ∧ (0x2001B010#32).toNat % 16 = 0 ∧
      (0x40000010#32).toNat % 2 ^ ((0x0003004F#32).extractLsb' 3 2).toNat = 0 ∧
      (0x20002000#32).toNat % 2 ^ ((0x0003004F#32).extractLsb' 3 2).toNat = 0) ∧
    (0x0003005F#32).extractLsb' 3 2 = 3 ∧ (0x000300CF#32).extractLsb' 7 9 ≠ 0 ∧ (0x0000004F#32).extractLsb' 16 16 = 0 := by
  decide +kernel

/-- A NEXT and an address of a usable record that are misaligned; an armed address that is not a multiple of 16, and one in no record. -/
theorem witness_ChannelEnable_declined :
    ((0x0003004F#32).getLsbD 0 = true ∧ (0x2001B018#32).toNat % 16 ≠ 0 ∧
      (0x40000011#32).toNat % 2 ^ ((0x0003004F#32).extractLsb' 3 2).toNat ≠ 0) ∧
    (fresh.chan .emit).state = .idle ∧ (0x2001B008#32).toNat % 16 ≠ 0 ∧
    ((0x2001B030#32) ≠ 0 ∧ (0x2001B030#32).toNat % 16 = 0 ∧
      ∀ k < 3, (0x2001B030#32).toNat ≠ smallParams.descBase + 16 * k) := by decide +kernel

/-- A record placed, one that is not usable, and one declined. -/
theorem witness_DescriptorPlaced :
    fresh.cfg.Legal ∧ fresh.phase = .boot ∧
    (Descriptor.ofWords 0x0003004F 0x40000010 0x20002000 0x2001B010).reservedValue = false ∧
    (Descriptor.ofWords 0x0003005E 0x40000010 0x20002000 0x2001B010).valid = false ∧
    (Descriptor.ofWords 0x0003005F 0x40000010 0x20002000 0x2001B010).valid = true ∧
    (Descriptor.ofWords 0x0003005F 0x40000010 0x20002000 0x2001B010).reservedValue = true := by decide +kernel

theorem witness_ArbiterGrant :
    (contest true true 0 0).grant = some .cap0 ∧ (contest true true 0 0).grant ≠ some .cap1 ∧ booted.grant = none := by
  decide +kernel

/-- Channel 0 triggered, two elements from the end of CHIRP. -/
def emitBeat : State :=
  { booted with ch0 := { booted.ch0 with state := .active, trig := true, wCnt := 2, wSrc := 0x2000000E } }

theorem witness_EmissionBeat :
    emitBeat.cfg.Legal ∧ emitBeat.grant = some .emit ∧ emitBeat.ch0.wCtrl.extractLsb' 3 2 = 1 ∧ emitBeat.ch0.wSrc.toNat % 2 = 0 ∧
    emitBeat.cfg.chirpBase ≤ emitBeat.ch0.wSrc.toNat ∧
    emitBeat.ch0.wSrc.toNat + 2 ≤ emitBeat.cfg.chirpBase + 2 * emitBeat.cfg.nChirp ∧
    emitBeat.ch0.wDst.toNat = emitBeat.cfg.dacData ∧ 2 ≤ emitBeat.ch0.wCnt.toNat := by decide +kernel

/-- V-TE-6: one-byte elements on channel 0, four-byte elements on channel 1. -/
theorem witness_beatSize :
    let s : State := { emitBeat with ch0 := { emitBeat.ch0 with wCtrl := 0x00080027 } }
    let u := running 0x00030057 0x2001B010 2
    (s.grant = some .emit ∧ s.ch0.wCtrl.extractLsb' 3 2 ≠ 1 ∧ s.ch0.wDst.toNat = s.cfg.dacData ∧
      declines (.teBeat .emit 0) s (.noAccess 0x40000000) = true) ∧
    u.grant = some .cap0 ∧ u.ch1.wCtrl.extractLsb' 3 2 ≠ 1 ∧ u.ch1.wSrc.toNat = u.cfg.adc0Result ∧
      declines (.teBeat .cap0 0) u (.noAccess 0x40000010) = true := by decide +kernel

theorem witness_CaptureBeat :
    let s := running 0x0003004F 0x2001B010 2
    s.cfg.Legal ∧ s.grant = some .cap0 ∧ s.ch1.wCtrl.extractLsb' 3 2 = 1 ∧ s.ch1.wSrc.toNat = s.cfg.adc0Result ∧
    s.ch1.wDst.toNat % 2 = 0 ∧ s.cfg.cap0Base ≤ s.ch1.wDst.toNat ∧
    s.ch1.wDst.toNat + 2 ≤ s.cfg.cap0Base + 2 * s.cfg.nCap ∧ 2 ≤ s.ch1.wCnt.toNat := by decide +kernel

/-- The last beat of a block: its element move leaves W_CNT 0, and the successor is none, unusable, or loads. -/
theorem witness_BlockCompletion :
    smallParams.LegalMap ∧
    (∀ next ∈ [0x00000000#32, 0x2001B010#32, 0x2001B020#32, 0x2001B028#32, 0x2001B030#32],
      (running 0x0002004F next 1).grant = some .cap0 ∧
      (match (running 0x0002004F next 1).moveElement .cap0 7 with
        | .ok u => decide (u.ch1.wCnt = 0 ∧ u.ch1.wNext = next)
        | .error _ => false) = true) ∧
    (0x2001B020#32).toNat = smallParams.descBase + 16 * 2 ∧ (0x2001B028#32).toNat % 16 ≠ 0 ∧
    (∀ k < 3, (0x2001B030#32).toNat ≠ smallParams.descBase + 16 * k) := by
  refine ⟨by decide +kernel, ?_, by decide, by decide, by decide⟩
  intro next h
  simp only [List.mem_cons, List.not_mem_nil, or_false] at h
  rcases h with rfl | rfl | rfl | rfl | rfl <;> decide +kernel

theorem witness_EmissionBlock :
    emitting.Proper ∧ emitting.acqState = .emit ∧ emitting.ch0.state = .active ∧ emitting.ch0.trig = false :=
  ⟨proper_emitting, rfl, rfl, rfl⟩

theorem witness_CaptureBlock :
    listening.Proper ∧ listening.acqState = .listen ∧ (listening.chan .cap1).state = .active ∧ listening.ch1.trig = false ∧
    listening.ch2.trig = false ∧ ([1, 2, 3] : List Half).length = (listening.chan .cap1).wCnt.toNat :=
  ⟨proper_listening, rfl, rfl, rfl, rfl, by decide +kernel⟩

/-- Operands at the edge of the constraints, a disabled and an enabled generator, configured or not. -/
theorem witness_CarrierSetup :
    carrierOperands 2 1 1 = true ∧ carrierOperands 30 30 15 = false ∧ fresh.ct.en = false ∧ booted.ct.en = true ∧
    booted.ct.per ≠ 0 ∧ fresh.ct.per = 0 := by decide +kernel

theorem witness_CarrierOutputs : booted.ct.en = true ∧ fresh.ct.en = false := ⟨rfl, rfl⟩

theorem witness_CarrierTicks :
    booted.ct.en = true ∧ booted.ct.cnt.toNat < booted.ct.per.toNat ∧ fresh.ct.en = false := by decide +kernel

theorem witness_CarrierIndependence :
    (∃ t, exec .ctTick booted = .next t ∧ decide (t.ct ≠ booted.ct) = true) ∧
    (∃ t, exec .boot fresh = .next t ∧ decide (t.ct ≠ fresh.ct) = true) :=
  ⟨(after_iff _ _ _).1 (by decide +kernel), (after_iff _ _ _).1 (by decide +kernel)⟩

theorem witness_GuardSetup :
    guardOperands 1 0 = true ∧ guardOperands 5 4 = true ∧ guardOperands 5 5 = false ∧ fresh.gt.run = false ∧
    ({ booted with gt := { booted.gt with run := true, cnt := 1 } } : State).gt.run = true ∧ booted.gt.per ≠ 0 ∧
    fresh.gt.per = 0 := by decide +kernel

/-- The guard timer running at a count. -/
def counting (cnt : Word) : State := { booted with gt := { booted.gt with run := true, cnt := cnt } }

/-- The last tick, the compare tick, another tick, and a stopped timer. -/
theorem witness_GuardTick :
    (counting 1).gt.cnt ≠ 0 ∧ (counting 3).gt.cnt ≠ 0 ∧ (counting 5).gt.cnt ≠ 0 ∧
    ((counting 1).gt.run = true ∧ (counting 1).gt.cnt - 1 = 0) ∧
    ((counting 3).gt.cnt - 1 ≠ 0 ∧ (counting 3).gt.cmp ≠ 0 ∧
      ((counting 3).gt.per.toNat : Int) - ((counting 3).gt.cnt - 1).toNat = (counting 3).gt.cmp.toNat) ∧
    ((counting 5).gt.cnt - 1 ≠ 0 ∧
      ((counting 5).gt.per.toNat : Int) - ((counting 5).gt.cnt - 1).toNat ≠ (counting 5).gt.cmp.toNat) ∧
    booted.gt.run = false := by decide +kernel

theorem witness_GuardInterval :
    (∃ u, exec .gtRetrigger booted = .next u ∧ u.gt.run = true) ∧ 4 < booted.gt.per.toNat :=
  ⟨(after_iff _ _ _).1 (by decide +kernel), by decide +kernel⟩

theorem witness_BootState :
    smallParams.Legal ∧ ((State.resetWith { smallParams with nChirp := 1 }).phase = .boot ∧
      ¬(State.resetWith { smallParams with nChirp := 1 }).cfg.Legal) ∧ booted.phase ≠ .boot :=
  ⟨by decide +kernel, ⟨rfl, by decide +kernel⟩, by decide⟩

theorem witness_ProperAfterBoot : smallParams.Legal ∧ smallParams.altEnable = false := by decide +kernel

theorem witness_ProperKept : listening.Proper ∧ listening.StepEnabled := ⟨proper_listening, .hlPoll, rfl, by decide +kernel⟩

theorem witness_CanonicalMemoryKept : Memory.Wf fresh.mem ∧ ∃ t, step fresh = .next t := by
  refine ⟨by decide +kernel, ?_⟩
  have h : exec .boot fresh = step fresh := rfl
  obtain ⟨t, ht, -⟩ := (after_iff .boot fresh (fun _ => true)).1 (by decide +kernel)
  exact ⟨t, h ▸ ht⟩

/-- The byte about to be stored over holds 0. -/
def overwriting : State :=
  { running 0x0003004F 0x2001B010 2 with mem := Memory.write (running 0x0003004F 0x2001B010 2).mem 0x20002002 0 }

theorem witness_MemoryOwnership :
    overwriting.phase ≠ .boot ∧
    ∃ t, exec (.teBeat .cap0 0x0ABC) overwriting = .next t ∧
      decide (Memory.read t.mem 0x20002002 ≠ Memory.read overwriting.mem 0x20002002) = true :=
  ⟨by decide +kernel, (after_iff _ _ _).1 (by decide +kernel)⟩

theorem witness_AmplifierIndependence :
    ∃ t, exec .hlPoll { booted with rxq := [0xFE] } = .next t ∧ decide (t.ampEn ≠ booted.ampEn) = true :=
  (after_iff _ _ _).1 (by decide +kernel)

theorem witness_StreamGrows : ∃ t, exec .hlDrain captured = .next t ∧ decide (t.txs ≠ captured.txs) = true :=
  (after_iff _ _ _).1 (by decide +kernel)

theorem witness_Quiescence :
    booted.Proper ∧ booted.Quiescent ∧ booted.enabled .hlPoll = true ∧
    booted.enabled (.envTrigger .cap1) = true :=
  ⟨proper_booted, ⟨rfl, rfl, rfl, rfl⟩, by decide +kernel, by decide +kernel⟩

/-! ### A fair run with an accepted start-job -/

/-- The smallest legal job: two chirp samples, one element of each capture, one guard tick. -/
def tinyParams : Params := { smallParams with nChirp := 2, nCap := 1, guardPeriod := 1, guardCompare := 0 }

/-- After BOOT with that set, the start-job byte received. -/
def jobStart : State :=
  match exec .boot (State.resetWith tinyParams) with
  | .next t => { t with rxq := [0x10] }
  | .fault _ => State.reset
  | .refused _ => State.reset

/-- The job's steps in an order that R50 allows. -/
def jobOps : List Instr :=
  [.hlPoll, .asEval] ++ feed .emit 0 ++ feed .emit 0 ++ [.hEmitDone, .hlPoll, .asEval, .gtTick, .hGuardOvf, .hlPoll, .asEval] ++
    feed .cap0 0x0102 ++ [.hCap0Done] ++ feed .cap1 0x0304 ++ [.hCap1Done, .hlPoll, .asEval]

/-- The job, then the main loop for ever. -/
def jobOp (n : Nat) : Instr := jobOps.getD n (if n % 2 = 1 then .hlPoll else .asEval)

/-- The state a step leaves, or the state itself. -/
def onward (i : Instr) (s : State) : State :=
  match exec i s with
  | .next t => t
  | .fault _ => s
  | .refused _ => s

def jobState : Nat → State
  | 0 => jobStart
  | n + 1 => onward (jobOp n) (jobState n)

/-- The job's steps are enabled and taken, and each handler and beat that is enabled is taken before its end. -/
def jobCheck : List Instr → State → Bool
  | [], s => decide (s.phase = .poll ∧ s.rxq = [] ∧ s.flags = 0 ∧ s.acqState = .idle ∧ s.evtPending = 0 ∧ s.gt.run = false ∧
      s.ch0.state = .suspended ∧ s.ch1.state = .suspended ∧ s.ch2.state = .suspended)
  | i :: rest, s =>
    s.enabled i && after i s (fun _ => true) &&
      [Instr.hEmitDone, .hGuardOvf, .hCap0Done, .hCap1Done, .hAltTrig].all
        (fun h => !s.enabled h || (i :: rest).any (fun j => j = h)) &&
      [Chan.emit, .cap0, .cap1].all (fun c => s.grant ≠ some c || (i :: rest).any (isBeat c)) &&
      jobCheck rest (onward i s)

theorem exec_onward {i : Instr} {s : State} (h : after i s (fun _ => true) = true) : exec i s = .next (onward i s) := by
  obtain ⟨t, ht, -⟩ := (after_iff _ _ _).1 h
  simp [onward, ht]

/-- What `jobCheck` says of the state `k` steps into a list. -/
theorem jobCheck_spec {l : List Instr} {s : State} (h : jobCheck l s = true) {k : Nat} (hk : k ≤ l.length) :
    jobCheck (l.drop k) ((l.take k).foldl (fun u i => onward i u) s) = true := by
  induction l generalizing s k with
  | nil => simpa using h
  | cons i l ih =>
    cases k with
    | zero => exact h
    | succ k =>
      simp only [jobCheck, Bool.and_eq_true] at h
      exact ih h.2 (by simpa using hk)

theorem jobCheck_jobOps : jobCheck jobOps jobStart = true := by decide +kernel

theorem jobOp_lt {n : Nat} (h : n < 21) : jobOps[n]? = some (jobOp n) := by
  have : jobOps.length = 21 := rfl
  simp [jobOp, List.getD, List.getElem?_eq_getElem (this ▸ h)]

theorem jobState_eq {n : Nat} (h : n ≤ 21) : jobState n = (jobOps.take n).foldl (fun u i => onward i u) jobStart := by
  induction n with
  | zero => rfl
  | succ n ih =>
    rw [List.take_add_one, jobOp_lt h, List.foldl_append]
    simp [jobState, ih (by omega)]

theorem job_check {n : Nat} (h : n ≤ 21) : jobCheck (jobOps.drop n) (jobState n) = true := by
  rw [jobState_eq h]
  exact jobCheck_spec jobCheck_jobOps h

/-- The states of the main loop once the job has ended. -/
structure Resting (s : State) : Prop where
  rxq : s.rxq = []
  flags : s.flags = 0
  acq : s.acqState = .idle
  pending : s.evtPending = 0
  guard : s.gt.run = false
  channels : ∀ c, (s.chan c).state = .suspended

theorem Resting.poll {s : State} (h : Resting s) (hp : s.phase = .poll) : exec .hlPoll s = .next { s with phase := .eval } := by
  simp [exec, execHlPoll, hp, h.rxq]

theorem Resting.eval {s : State} (h : Resting s) (hp : s.phase = .eval) : exec .asEval s = .next { s with phase := .poll } := by
  have key : ∀ u : State, u.flags = 0 → u.acqState = .idle → transition u = .next u := by
    intro u h1 h2
    have hv : u.vector = 0 := by simp [State.vector, h1, h2, AcqState.code]
    have hs : selectT u.vector = .tNone 0 := by rw [hv]; decide
    simp only [transition, hs]
    simp [execTNone, State.noTransition, State.guardHolds, State.flag, h1, h2, answer]
  simp only [exec, execAsEval, hp, ne_eq, not_true, if_false]
  exact key _ h.flags h.acq

theorem jobOp_ge (k : Nat) : jobOp (21 + k) = if k % 2 = 0 then .hlPoll else .asEval := by
  have : jobOps[21 + k]? = none := List.getElem?_eq_none (by simp only [show jobOps.length = 21 from rfl]; omega)
  simp only [jobOp, List.getD, this, Option.getD_none]
  rcases Nat.mod_two_eq_zero_or_one k with e | e <;> simp [Nat.add_mod, e]

/-- From the job's end the machine rests, and the halves of the main loop are due in turn. -/
theorem jobState_ge (k : Nat) :
    Resting (jobState (21 + k)) ∧ (jobState (21 + k)).phase = if k % 2 = 0 then .poll else .eval := by
  induction k with
  | zero =>
    have h := job_check (n := 21 + 0) (by omega)
    rw [show jobOps.drop (21 + 0) = [] from rfl] at h
    generalize jobState (21 + 0) = s at h
    simp only [jobCheck, decide_eq_true_eq] at h
    obtain ⟨h1, h2, h3, h4, h5, h6, h7, h8, h9⟩ := h
    refine ⟨⟨h2, h3, h4, h5, h6, fun c => ?_⟩, h1⟩
    cases c
    exacts [h7, h8, h9]
  | succ k ih =>
    obtain ⟨hr, hp⟩ := ih
    have hs : jobState (21 + (k + 1)) = onward (jobOp (21 + k)) (jobState (21 + k)) := rfl
    rw [hs, jobOp_ge]
    rcases Nat.mod_two_eq_zero_or_one k with e | e
    · simp only [e, if_true] at hp ⊢
      rw [if_neg (by omega)]
      simp only [onward, hr.poll hp]
      exact ⟨⟨hr.1, hr.2, hr.3, hr.4, hr.5, hr.6⟩, trivial⟩
    · simp only [e, Nat.one_ne_zero, if_false] at hp ⊢
      rw [if_pos (by omega)]
      simp only [onward, hr.eval hp]
      exact ⟨⟨hr.1, hr.2, hr.3, hr.4, hr.5, hr.6⟩, trivial⟩

theorem job_enabled (n : Nat) :
    (jobState n).enabled (jobOp n) = true ∧ exec (jobOp n) (jobState n) = .next (jobState (n + 1)) := by
  rcases Nat.lt_or_ge n 21 with h | h
  · have hc := job_check (n := n) (by omega)
    obtain ⟨hn, ho⟩ := List.getElem?_eq_some_iff.1 (jobOp_lt h)
    rw [List.drop_eq_getElem_cons hn, ho] at hc
    simp only [jobCheck, Bool.and_eq_true] at hc
    exact ⟨hc.1.1.1.1, exec_onward hc.1.1.1.2⟩
  · obtain ⟨k, rfl⟩ := Nat.exists_eq_add_of_le h
    obtain ⟨hr, hp⟩ := jobState_ge k
    have hs : jobState (21 + k + 1) = onward (jobOp (21 + k)) (jobState (21 + k)) := rfl
    rw [hs, jobOp_ge]
    rcases Nat.mod_two_eq_zero_or_one k with e | e
    · simp only [e, if_true] at hp ⊢
      exact ⟨by simp [State.enabled, hp], by simp only [onward, hr.poll hp]⟩
    · simp only [e, Nat.one_ne_zero, if_false] at hp ⊢
      exact ⟨by simp [State.enabled, hp], by simp only [onward, hr.eval hp]⟩

/-- A handler or a beat that is enabled is taken before the job's end. -/
theorem job_served {n : Nat} (h : n < 21) :
    (∀ i, isHandler i = true → (jobState n).enabled i = true → ∃ m, n ≤ m ∧ jobOp m = i) ∧
    ∀ c, (jobState n).grant = some c → ∃ m, n ≤ m ∧ isBeat c (jobOp m) = true := by
  have hc := job_check (n := n) (by omega)
  obtain ⟨hn, ho⟩ := List.getElem?_eq_some_iff.1 (jobOp_lt h)
  have hd := List.drop_eq_getElem_cons hn
  rw [hd] at hc
  simp only [jobCheck, Bool.and_eq_true, ← hd] at hc
  have later : ∀ i ∈ jobOps.drop n, ∃ m, n ≤ m ∧ jobOp m = i := by
    intro i hi
    obtain ⟨m, hm, rfl⟩ := List.mem_iff_getElem.1 hi
    have hm' : n + m < jobOps.length := by simp only [List.length_drop] at hm; omega
    refine ⟨n + m, by omega, ?_⟩
    rw [List.getElem_drop]
    simp [jobOp, List.getD, List.getElem?_eq_getElem hm']
  refine ⟨fun i hi he => ?_, fun c hg => ?_⟩
  · have hall := hc.1.1.2
    simp only [List.all_cons, List.all_nil, Bool.and_eq_true, Bool.or_eq_true, Bool.not_eq_true', List.any_eq_true,
      decide_eq_true_eq] at hall
    obtain ⟨h1, h2, h3, h4, h5, -⟩ := hall
    have use : ∀ j : Instr, ((jobState n).enabled j = false ∨ ∃ x ∈ jobOps.drop n, x = j) → (jobState n).enabled j = true →
        ∃ m, n ≤ m ∧ jobOp m = j := by
      rintro j (hf | ⟨x, hx, rfl⟩) ht
      · simp [hf] at ht
      · exact later x hx
    cases i <;> simp only [isHandler, Bool.false_eq_true] at hi
    exacts [use _ h1 he, use _ h2 he, use _ h3 he, use _ h4 he, use _ h5 he]
  · have hall := hc.1.2
    simp only [List.all_eq_true, Bool.or_eq_true, List.any_eq_true, decide_eq_true_eq] at hall
    obtain hf | ⟨x, hx, hb⟩ := hall c (by cases c <;> simp)
    · exact absurd hg hf
    · obtain ⟨m, hm, rfl⟩ := later x hx
      exact ⟨m, hm, hb⟩

/-- The job, then the main loop for ever, as a run. -/
def jobRun : Run where
  state := jobState
  op := jobOp
  enabled n := (job_enabled n).1
  next n := (job_enabled n).2

theorem jobRun_fair : jobRun.Fair := by
  have rest : ∀ n, 21 ≤ n → Resting (jobState n) := by
    intro n h
    obtain ⟨k, rfl⟩ := Nat.exists_eq_add_of_le h
    exact (jobState_ge k).1
  refine ⟨fun n => ⟨⟨21 + 2 * n, by omega, ?_⟩, 21 + (2 * n + 1), by omega, ?_⟩, fun n i hi he => ?_, fun c n => ?_, fun n c hg => ?_,
    fun n => ?_⟩
  · show jobOp _ = _
    simp [jobOp_ge]
  · show jobOp _ = _
    simp [jobOp_ge, Nat.add_mod]
  · rcases Nat.lt_or_ge n 21 with h | h
    · exact (job_served h).1 i hi he
    · have hr := rest n h
      exfalso
      revert he
      show (jobState n).enabled i = true → False
      cases i <;> simp [isHandler, State.enabled, State.mayHandle, State.pending, hr.pending] at hi ⊢
  · exact ⟨max n 21, by omega, .inr fun h => by
      have := (rest (max n 21) (by omega)).channels c
      rw [show jobRun.state = jobState from rfl, this] at h
      cases h.1⟩
  · rcases Nat.lt_or_ge n 21 with h | h
    · exact (job_served h).2 c hg
    · have := State.grant_eq_none (s := jobState n) fun c => by rw [(rest n h).channels c]; decide
      rw [show jobRun.state = jobState from rfl, this] at hg
      cases hg
  · exact ⟨max n 21, by omega, .inr (rest _ (by omega)).guard⟩

theorem proper_jobStart : jobStart.Proper := by
  refine proper_of_check (by decide +kernel) ?_
  have h : jobStart.acqState = .idle := by decide +kernel
  simp only [State.Row, h]
  refine ⟨fun c => ?_, by decide +kernel, by decide +kernel, by decide +kernel⟩
  cases c <;> decide +kernel

theorem witness_JobProgress : (jobRun.state 0).Proper ∧ jobRun.Fair ∧ jobRun.Accepts 0 :=
  ⟨proper_jobStart, jobRun_fair, rfl, by decide +kernel, by decide +kernel⟩

end Sys2Proof.Tests
end

section
/-! PROOF. What a step fetches and runs (00_scope.md R13, R104), and the range and the listed values of the cosine (40_chirp_synth.md R127). -/

namespace Sys2Proof.Proofs

open Sys2Proof Sys2Proof.Machine

/-! ### Fetch (R13, R51, R104) -/

theorem fetch_script {s : State} {x : Code} {rest : List Code} (h : s.script = x :: rest) :
    s.fetch = (decode x, { s with script := rest }) := by
  simp [State.fetch, h]

theorem fetch_sequencer {s : State} (h : s.script = []) : s.fetch = (.ok s.phase.instr, s) := by
  simp [State.fetch, h]

/-- A fetch that decodes runs its operation. -/
theorem step_of_fetch_ok {s u : State} {i : Instr} (h : s.fetch = (.ok i, u)) : step s = exec i u := by
  simp [step, h]

theorem step_of_fetch_error {s u : State} {e : DecodeError} (h : s.fetch = (.error e, u)) :
    step s = .refused (.undecodable e) := by
  simp [step, h]

/-- With no line left in the script the sequencer's own step runs (R51). -/
theorem step_sequencer {s : State} (h : s.script = []) : step s = exec s.phase.instr s :=
  step_of_fetch_ok (fetch_sequencer h)

/-- Settles O5: each clause is the fetch of that script, then what a step does with it. -/
theorem stepRunsDecoded : Obligations.StepRunsDecoded := by
  refine ⟨fun s x rest i hs hx => ?_, fun s x rest e hs hx => ?_, fun s hs hp => ?_, fun s hs hp => ?_, fun s hs hp => ?_⟩
  · exact step_of_fetch_ok (by rw [fetch_script hs, hx])
  · exact step_of_fetch_error (by rw [fetch_script hs, hx])
  all_goals rw [step_sequencer hs, hp]; rfl

/-! ### The cosine (R126, R127) -/

/-- The clamp of R127, with the amplitudes of R10, ends between 0 and one. -/
theorem clampUnit_range {p : Params} (h : p.LegalWidths) (x : Int) : 0 ≤ clampUnit p x ∧ clampUnit p x ≤ 2 ^ 30 := by
  obtain ⟨-, -, hamp, -, -⟩ := h
  have hone : ampUnit p = 2 ^ 30 := by simp [ampUnit, hamp]
  unfold clampUnit
  rw [hone]
  split
  · decide
  · split <;> omega

theorem cordicCos_range {p : Params} (h : p.LegalWidths) (z : Int) : 0 ≤ cordicCos p z ∧ cordicCos p z ≤ 2 ^ 30 :=
  clampUnit_range h _

/-- In each quadrant the cosine is an end of the iterations or its negative (R127). -/
theorem cosq_quadrant (p : Params) (ph : Phase) : ∃ z, cosq p ph = cordicCos p z ∨ cosq p ph = -cordicCos p z := by
  unfold cosq
  dsimp only
  split
  · exact ⟨_, .inl rfl⟩
  · split
    · exact ⟨_, .inr rfl⟩
    · split
      · exact ⟨_, .inr rfl⟩
      · exact ⟨_, .inl rfl⟩

theorem cosq_range {p : Params} (h : p.LegalWidths) (ph : Phase) : -(2 ^ 30) ≤ cosq p ph ∧ cosq p ph ≤ 2 ^ 30 := by
  obtain ⟨z, hz⟩ := cosq_quadrant p ph
  have := cordicCos_range h z
  omega

/-- The cosine reads the widths of R10 and no other parameter. -/
theorem cosq_congr {p q : Params} (hp : p.LegalWidths) (hq : q.LegalWidths) (ph : Phase) : cosq p ph = cosq q ph := by
  obtain ⟨p1, p2, p3, p4, -⟩ := hp
  obtain ⟨q1, q2, q3, q4, -⟩ := hq
  simp [cosq, cordicCos, clampUnit, ampUnit, p1, p2, p3, p4, q1, q2, q3, q4]

/-- The values R127 lists, under the DEFAULT set. -/
theorem cosq_default :
    cosq Params.default 0 = 1073741824 ∧ cosq Params.default 0x400000000000 = -3 ∧
    cosq Params.default 0x800000000000 = -1073741824 ∧ cosq Params.default 0xC00000000000 = 3 ∧
    cosq Params.default 0x200000000000 = 759250129 := by decide +kernel

/-- Settles O30: the range comes from the clamp, the values from the DEFAULT set, whose widths are R10's. -/
theorem cosineRange : Obligations.CosineRange := by
  intro p hp
  have hd : Params.default.LegalWidths := by decide
  refine ⟨cosq_range hp, ?_⟩
  simp only [cosq_congr hp hd]
  exact cosq_default

end Sys2Proof.Proofs
end

section
/-! PROOF. FLAGS and EVT_PENDING read bit by bit: what each update of a latch leaves in every flag and on every event line
(10_state.md R22, R37; 60_exceptions.md R262, R263). -/

namespace Sys2Proof.Proofs

open Sys2Proof Sys2Proof.Machine

@[simp] theorem flag_setFlag (s : State) (f g : Flag) : (s.setFlag f).flag g = (decide (f = g) || s.flag g) := by
  simp only [State.flag, State.setFlag_flags]
  generalize s.flags = x
  cases f <;> cases g <;> revert x <;> decide

@[simp] theorem flag_clearFlag (s : State) (f g : Flag) : (s.clearFlag f).flag g = (!decide (f = g) && s.flag g) := by
  simp only [State.flag, State.clearFlag_flags]
  generalize s.flags = x
  cases f <;> cases g <;> revert x <;> decide

@[simp] theorem pending_signal (s : State) (e d : Event) : (s.signal e).pending d = (decide (e = d) || s.pending d) := by
  simp only [State.pending, State.signal_evtPending]
  generalize s.evtPending = x
  cases e <;> cases d <;> revert x <;> decide

@[simp] theorem pending_ack (s : State) (e d : Event) : (s.ack e).pending d = (!decide (e = d) && s.pending d) := by
  simp only [State.pending, State.ack_evtPending]
  generalize s.evtPending = x
  cases e <;> cases d <;> revert x <;> decide

theorem flag_congr {s t : State} (h : t.flags = s.flags) (f : Flag) : t.flag f = s.flag f := by simp [State.flag, h]

theorem pending_congr {s t : State} (h : t.evtPending = s.evtPending) (e : Event) : t.pending e = s.pending e := by
  simp [State.pending, h]

@[simp] theorem flag_signal (s : State) (e : Event) (f : Flag) : (s.signal e).flag f = s.flag f := rfl
@[simp] theorem flag_ack (s : State) (e : Event) (f : Flag) : (s.ack e).flag f = s.flag f := rfl
@[simp] theorem pending_setFlag (s : State) (f : Flag) (e : Event) : (s.setFlag f).pending e = s.pending e := rfl
@[simp] theorem pending_clearFlag (s : State) (f : Flag) (e : Event) : (s.clearFlag f).pending e = s.pending e := rfl

@[simp] theorem flag_setChan (s : State) (c : Chan) (r : ChanRegs) (f : Flag) : (s.setChan c r).flag f = s.flag f :=
  flag_congr (by simp) f

@[simp] theorem pending_setChan (s : State) (c : Chan) (r : ChanRegs) (e : Event) : (s.setChan c r).pending e = s.pending e :=
  pending_congr (by simp) e

/-- No flag outside a mask is set. -/
theorem flags_within_iff (s : State) (m : BitVec 5) :
    s.flags &&& ~~~m = 0 ↔ ∀ f : Flag, f.mask &&& m = 0 → s.flag f = false := by
  simp only [State.flag]
  generalize s.flags = x
  constructor
  · intro h f
    cases f <;> revert m x <;> decide
  · intro h
    have h0 := h .emitStart
    have h1 := h .emitStop
    have h2 := h .waitStop
    have h3 := h .cap0Done
    have h4 := h .cap1Done
    clear h
    revert m x
    decide

/-- No event line outside a mask is pending. -/
theorem evtPending_within_iff (s : State) (m : BitVec 5) :
    s.evtPending &&& ~~~m = 0 ↔ ∀ e : Event, e.mask &&& m = 0 → s.pending e = false := by
  simp only [State.pending]
  generalize s.evtPending = x
  constructor
  · intro h e
    cases e <;> revert m x <;> decide
  · intro h
    have h0 := h .emitDone
    have h1 := h .guardOvf
    have h2 := h .cap0Done
    have h3 := h .cap1Done
    have h4 := h .altEdge
    clear h
    revert m x
    decide

/-- FLAGS is 0 where no flag is set. -/
theorem flags_eq_zero_iff (s : State) : s.flags = 0 ↔ ∀ f, s.flag f = false := by
  have h := flags_within_iff s 0#5
  simpa only [show ~~~(0#5) = BitVec.allOnes 5 from rfl, BitVec.and_allOnes, BitVec.and_zero, BitVec.ofNat_eq_ofNat, true_implies] using h

theorem evtPending_eq_zero_iff (s : State) : s.evtPending = 0 ↔ ∀ e, s.pending e = false := by
  have h := evtPending_within_iff s 0#5
  simpa only [show ~~~(0#5) = BitVec.allOnes 5 from rfl, BitVec.and_allOnes, BitVec.and_zero, BitVec.ofNat_eq_ofNat, true_implies] using h

end Sys2Proof.Proofs
end

section
/-! PROOF. The row of R224's table said unit by unit: each channel and the guard timer is at work in one state of the acquisition
machine and rests in the others. -/

namespace Sys2Proof.Proofs

open Sys2Proof Sys2Proof.Machine

/-- The state of the acquisition machine in which a channel moves its block (R217, R219). -/
def busyState : Chan → AcqState
  | .emit => .emit
  | .cap0 => .listen
  | .cap1 => .listen

/-- The flag that says a channel's block is over (R264, R266, R267). -/
def doneFlag : Chan → Flag
  | .emit => .emitStop
  | .cap0 => .cap0Done
  | .cap1 => .cap1Done

/-- A unit that is not at work: SUSPENDED, its event not pending and its flag not set. -/
structure UnitRests (s : State) (c : Chan) : Prop where
  suspended : (s.chan c).state = .suspended
  event : s.pending (completionEvent c) = false
  flag : s.flag (doneFlag c) = false

/-- R224's table by unit instead of by state; `row_iff` ties it to `State.Row`. -/
structure RowByUnit (s : State) : Prop where
  busy : ∀ c, busyState c = s.acqState → s.InFlight c (doneFlag c)
  resting : ∀ c, busyState c ≠ s.acqState → UnitRests s c
  counting : s.acqState = .wait → s.InGuard
  stopped : s.acqState ≠ .wait → s.gt.run = false ∧ s.pending .guardOvf = false ∧ s.flag .waitStop = false
  start : s.acqState ≠ .idle → s.flag .emitStart = false
  noEdge : s.pending .altEdge = false

theorem unitRests_iff (s : State) (c : Chan) : UnitRests s c ↔
    (s.chan c).state = .suspended ∧ s.pending (completionEvent c) = false ∧ s.flag (doneFlag c) = false :=
  ⟨fun ⟨a, b, d⟩ => ⟨a, b, d⟩, fun ⟨a, b, d⟩ => ⟨a, b, d⟩⟩

theorem rowByUnit_iff (s : State) : RowByUnit s ↔
    (∀ c, busyState c = s.acqState → s.InFlight c (doneFlag c)) ∧ (∀ c, busyState c ≠ s.acqState → UnitRests s c) ∧
    (s.acqState = .wait → s.InGuard) ∧
    (s.acqState ≠ .wait → s.gt.run = false ∧ s.pending .guardOvf = false ∧ s.flag .waitStop = false) ∧
    (s.acqState ≠ .idle → s.flag .emitStart = false) ∧ s.pending .altEdge = false :=
  ⟨fun ⟨a, b, c, d, e, f⟩ => ⟨a, b, c, d, e, f⟩, fun ⟨a, b, c, d, e, f⟩ => ⟨a, b, c, d, e, f⟩⟩

theorem forall_chan {P : Chan → Prop} : (∀ c, P c) ↔ P .emit ∧ P .cap0 ∧ P .cap1 :=
  ⟨fun h => ⟨h _, h _, h _⟩, fun ⟨a, b, c⟩ d => by cases d <;> assumption⟩

theorem forall_flag {P : Flag → Prop} :
    (∀ f, P f) ↔ P .emitStart ∧ P .emitStop ∧ P .waitStop ∧ P .cap0Done ∧ P .cap1Done :=
  ⟨fun h => ⟨h _, h _, h _, h _, h _⟩, fun ⟨a, b, c, d, e⟩ f => by cases f <;> assumption⟩

theorem forall_event {P : Event → Prop} :
    (∀ e, P e) ↔ P .emitDone ∧ P .guardOvf ∧ P .cap0Done ∧ P .cap1Done ∧ P .altEdge :=
  ⟨fun h => ⟨h _, h _, h _, h _, h _⟩, fun ⟨a, b, c, d, e⟩ f => by cases f <;> assumption⟩

theorem row_iff (s : State) : s.Row ↔ RowByUnit s := by
  have e : ∀ c, s.chan c = match c with | .emit => s.ch0 | .cap0 => s.ch1 | .cap1 => s.ch2 := by intro c; cases c <;> rfl
  cases h : s.acqState <;>
    simp only [State.Row, rowByUnit_iff, unitRests_iff, h, flags_within_iff, evtPending_eq_zero_iff, evtPending_within_iff] <;>
    simp [forall_chan, forall_flag, forall_event, busyState, doneFlag, completionEvent, Flag.mask, Event.mask, e] <;>
    tauto

end Sys2Proof.Proofs
end

section
/-! PROOF. Everything an enabled step of a proper state can do, said once (10_state.md R50, 44_acq_fsm.md R224). -/

namespace Sys2Proof.Proofs

open Sys2Proof Sys2Proof.Machine

/-- The handler of a channel's completion (R264, R266, R267). -/
def doneHandler : Chan → Instr
  | .emit => .hEmitDone
  | .cap0 => .hCap0Done
  | .cap1 => .hCap1Done

/-- A memory in canonical form that still holds boot's three records. -/
structure KeepsRecords (s : State) (m : Memory) : Prop where
  wf : Memory.Wf m
  desc : ∀ c, ({ s with mem := m } : State).HoldsDescriptor c

/-- The moves of a proper state: an enabled operation and the state it leaves. `exec_move` ties it to `exec`. -/
inductive Move (s : State) : Instr → State → Prop
  /-- a poll that accepts no start-job (R241 to R246) -/
  | poll (q : List Byte) (a : Bool) : s.phase = .poll → (s.acqState = .idle → s.rxq.head? ≠ some 0x10) →
      Move s .hlPoll { s with phase := .eval, rxq := q, ampEn := a }
  /-- a poll that accepts one (R242) -/
  | start (q : List Byte) : s.phase = .poll → s.acqState = .idle →
      Move s .hlPoll { s.setFlag .emitStart with phase := .eval, rxq := q, jobInd := !s.jobInd }
  /-- an evaluation that selects no transition (R221) -/
  | stay : s.phase = .eval → s.guardHolds = false → Move s .asEval { s with phase := .poll }
  /-- R217 -/
  | toEmit : s.acqState = .idle → s.flag .emitStart = true →
      Move s .asEval
        { s.clearFlag .emitStart with phase := .poll, acqState := .emit, ch0 := { s.ch0 with state := .active } }
  /-- R218 -/
  | toWait : s.acqState = .emit → s.flag .emitStop = true →
      Move s .asEval
        { s.clearFlag .emitStop with
          phase := .poll, acqState := .wait, gt := { s.gt with cnt := s.gt.per, run := true, aux := false } }
  /-- R219 -/
  | toListen : s.acqState = .wait → s.flag .waitStop = true →
      Move s .asEval
        { s.clearFlag .waitStop with
          phase := .poll, acqState := .listen, ch1 := { s.ch1 with state := .active }, ch2 := { s.ch2 with state := .active } }
  /-- R220 -/
  | toIdle : s.acqState = .listen → s.flag .cap0Done = true → s.flag .cap1Done = true →
      Move s .asEval
        { (s.clearFlag .cap0Done).clearFlag .cap1Done with
          phase := .poll, acqState := .idle, txs := s.txs ++ s.payload, jobInd := !s.jobInd }
  /-- R264, R266, R267 -/
  | done (c : Chan) {i : Instr} : i = doneHandler c → s.pending (completionEvent c) = true →
      Move s i ((s.ack (completionEvent c)).setFlag (doneFlag c))
  /-- R265 -/
  | guardDone : s.pending .guardOvf = true → Move s .hGuardOvf ((s.ack .guardOvf).setFlag .waitStop)
  /-- a beat that is not the block's last (R160) -/
  | beat (c : Chan) (v o : Half) (l : List Half) (m : Memory) (r : ChanRegs) : (s.chan c).state = .active →
      r.wCnt.toNat + 1 = (s.chan c).wCnt.toNat → r.Booted s.cfg c → r.state = .active → KeepsRecords s m →
      Move s (.teBeat c v) (({ s with mem := m, dacOut := o, dacTrace := l } : State).setChan c r)
  /-- the last one (R162) -/
  | lastBeat (c : Chan) (v o : Half) (l : List Half) (m : Memory) (r : ChanRegs) : (s.chan c).state = .active →
      (s.chan c).wCnt.toNat = 1 → r.Booted s.cfg c → r.state = .suspended → KeepsRecords s m →
      Move s (.teBeat c v)
        ((({ s with mem := m, dacOut := o, dacTrace := l } : State).signal (completionEvent c)).setChan c r)
  /-- a guard tick before the overflow (R203, R204) -/
  | tick (g : GuardRegs) : s.gt.run = true → g.cnt.toNat + 1 = s.gt.cnt.toNat → g.run = true →
      ({ s with gt := g } : State).GuardSet → Move s .gtTick { s with gt := g }
  /-- the overflow (R203, R205) -/
  | lastTick : s.gt.run = true → s.gt.cnt.toNat = 1 →
      Move s .gtTick
        (({ s with gt := { s.gt with cnt := 0, run := false, aux := false } } : State).signal .guardOvf)
  /-- R194 -/
  | carrier (n : Half) : n.toNat < s.ct.per.toNat → Move s .ctTick { s with ct := { s.ct with cnt := n } }
  /-- R52 -/
  | send (b : Byte) : Move s (.envHostSend b) { s with rxq := s.rxq ++ [b] }
  /-- a trigger that is latched (R159) -/
  | trigger (c : Chan) : (s.chan c).state = .active →
      Move s (.envTrigger c) (s.setChan c { s.chan c with trig := true })
  /-- a trigger that is lost (R159) -/
  | triggerLost (c : Chan) : ¬((s.chan c).state = .active ∧ (s.chan c).trig = false) → Move s (.envTrigger c) s
  /-- the alternate edge, off (R52) -/
  | edge : Move s .envAltEdge s

/-! ### The poll -/

/-- Byte 0x10 alone is a start-job (R92). -/
theorem eq_of_decodeByte_startJob {b : Byte} (h : decodeByte b = .startJob) : b = 0x10 := by
  by_contra hb
  rw [decodeByte, if_neg hb] at h
  split_ifs at h

/-- What a host byte that is no start-job in Idle leaves: at most AMP_EN changes (R242 to R246). -/
theorem hostByte_quiet {s : State} {b : Byte} (h : s.acqState = .idle → b ≠ 0x10) :
    ∃ a, hostByte b s = .next { s with ampEn := a } := by
  unfold hostByte
  split
  · rename_i hb
    have hi : s.acqState ≠ .idle := fun hi => h hi (eq_of_decodeByte_startJob hb)
    exact ⟨s.ampEn, by simp [execStartJob, State.startJob, hi]⟩
  · exact ⟨true, rfl⟩
  · exact ⟨false, rfl⟩
  · exact ⟨s.ampEn, rfl⟩
  · exact ⟨s.ampEn, rfl⟩

theorem hostByte_start {s : State} (h : s.acqState = .idle) :
    hostByte 0x10 s = .next { s.setFlag .emitStart with jobInd := !s.jobInd } := by
  simp [hostByte, decodeByte, execStartJob, State.startJob, h]

theorem execHlPoll_move {s : State} (hp : s.phase = .poll) : ∃ t, execHlPoll s = .next t ∧ Move s .hlPoll t := by
  unfold execHlPoll
  rw [if_neg (by simp [hp])]
  split
  · rename_i hq
    exact ⟨_, rfl, .poll s.rxq s.ampEn hp (by simp [hq])⟩
  · rename_i b rest hq
    by_cases hb : s.acqState = .idle ∧ b = 0x10
    · obtain ⟨hi, rfl⟩ := hb
      exact ⟨_, hostByte_start hi, .start rest hp hi⟩
    · obtain ⟨a, ha⟩ := hostByte_quiet (s := { s with rxq := rest, phase := .eval }) (b := b) fun hi he => hb ⟨hi, he⟩
      refine ⟨_, ha, .poll rest a hp fun hi => ?_⟩
      rw [hq]
      intro he
      exact hb ⟨hi, by simpa using he⟩

/-! ### The evaluation -/

/-- The transition of a state (R217 to R220). -/
def leave (s : State) : Except Refusal State :=
  match s.acqState with
  | .idle => s.idleToEmit
  | .emit => s.emitToWait
  | .wait => s.waitToListen
  | .listen => s.listenToIdle

/-- Where a guard holds the vector selects the transition of the state (R216). -/
theorem transition_of_guard {s : State} (h : s.guardHolds = true) : transition s = answer (leave s) := by
  unfold transition leave
  rw [selectT_vector]
  cases ha : s.acqState <;> simp only [State.guardHolds, ha] at h <;> simp only [h, if_true] <;> rfl

theorem transition_of_not_guard {s : State} (h : s.guardHolds = false) : transition s = .next s := by
  have hnone : execTNone s.vector s = .next s := by simp [execTNone, State.noTransition, h]
  unfold transition
  rw [selectT_vector]
  cases ha : s.acqState <;> simp only [State.guardHolds, ha] at h <;> simp [h, hnone]

theorem teResume_of_suspended {s : State} {c : Chan} (h : (s.chan c).state = .suspended) :
    s.teResume c = s.setChan c { s.chan c with state := .active } := by
  simp [State.teResume, h]

theorem idleToEmit_eq {s : State} (ha : s.acqState = .idle) (hf : s.flag .emitStart = true) (h0 : s.ch0.state = .suspended) :
    s.idleToEmit = .ok { s.clearFlag .emitStart with acqState := .emit, ch0 := { s.ch0 with state := .active } } := by
  have hc : ((s.clearFlag .emitStart).chan .emit).state = .suspended := h0
  unfold State.idleToEmit
  rw [if_pos ⟨ha, hf⟩, teResume_of_suspended hc]
  rfl

theorem emitToWait_eq {s : State} (ha : s.acqState = .emit) (hf : s.flag .emitStop = true) (hp : s.gt.per ≠ 0) :
    s.emitToWait =
      .ok { s.clearFlag .emitStop with acqState := .wait, gt := { s.gt with cnt := s.gt.per, run := true, aux := false } } := by
  unfold State.emitToWait
  rw [if_pos ⟨ha, hf⟩, show (s.clearFlag .emitStop).gtRetrigger = .ok _ from if_neg hp]
  rfl

theorem waitToListen_eq {s : State} (ha : s.acqState = .wait) (hf : s.flag .waitStop = true) (h1 : s.ch1.state = .suspended)
    (h2 : s.ch2.state = .suspended) :
    s.waitToListen =
      .ok { s.clearFlag .waitStop with
        acqState := .listen, ch1 := { s.ch1 with state := .active }, ch2 := { s.ch2 with state := .active } } := by
  have hc1 : ((s.clearFlag .waitStop).chan .cap0).state = .suspended := h1
  have hc2 : (((s.clearFlag .waitStop).setChan .cap0 { s.ch1 with state := .active }).chan .cap1).state = .suspended := h2
  unfold State.waitToListen
  rw [if_pos ⟨ha, hf⟩, teResume_of_suspended hc1]
  exact congrArg (fun t : State => Except.ok { t with acqState := .listen }) (teResume_of_suspended hc2)

theorem listenToIdle_eq {s : State} (ha : s.acqState = .listen) (h1 : s.flag .cap0Done = true) (h2 : s.flag .cap1Done = true)
    (hl : s.cfg.Legal) :
    s.listenToIdle =
      .ok { (s.clearFlag .cap0Done).clearFlag .cap1Done with
        acqState := .idle, txs := s.txs ++ s.payload, jobInd := !s.jobInd } := by
  unfold State.listenToIdle
  rw [if_pos ⟨ha, h1, h2⟩, State.drain_legal (s := (s.clearFlag .cap0Done).clearFlag .cap1Done) hl]
  rfl

/-- The guard timer of a proper state is configured (R9, R202). -/
theorem gtPer_ne_zero {s : State} (h : s.Proper) : s.gt.per ≠ 0 := by
  intro hz
  have h1 := h.guardTimer.per
  obtain ⟨-, ⟨h2, -⟩, -, -⟩ := h.legal.2.1
  rw [hz] at h1
  simp only [BitVec.ofNat_eq_ofNat, BitVec.toNat_ofNat] at h1
  omega

theorem execAsEval_move {s : State} (h : s.Proper) (hp : s.phase = .eval) :
    ∃ t, execAsEval s = .next t ∧ Move s .asEval t := by
  have row := (row_iff s).1 h.row
  have susp : ∀ c, busyState c ≠ s.acqState → (s.chan c).state = .suspended := fun c hc => (row.resting c hc).suspended
  have hx : execAsEval s = transition { s with phase := .poll } := if_neg (by simp [hp])
  rw [hx]
  cases hg : s.guardHolds with
  | false => exact ⟨_, transition_of_not_guard (s := { s with phase := .poll }) hg, .stay hp hg⟩
  | true =>
    rw [transition_of_guard (s := { s with phase := .poll }) hg]
    cases ha : s.acqState with
    | idle =>
      have hf : s.flag .emitStart = true := by simpa [State.guardHolds, ha] using hg
      have h0 : s.ch0.state = .suspended := susp .emit (by simp [busyState, ha])
      have ht := idleToEmit_eq (s := { s with phase := .poll }) ha hf h0
      rw [ha] at ht
      exact ⟨_, congrArg answer ht, .toEmit ha hf⟩
    | emit =>
      have hf : s.flag .emitStop = true := by simpa [State.guardHolds, ha] using hg
      have hper : s.gt.per ≠ 0 := gtPer_ne_zero h
      have ht := emitToWait_eq (s := { s with phase := .poll }) ha hf hper
      rw [ha] at ht
      exact ⟨_, congrArg answer ht, .toWait ha hf⟩
    | wait =>
      have hf : s.flag .waitStop = true := by simpa [State.guardHolds, ha] using hg
      have h1 : s.ch1.state = .suspended := susp .cap0 (by simp [busyState, ha])
      have h2 : s.ch2.state = .suspended := susp .cap1 (by simp [busyState, ha])
      have ht := waitToListen_eq (s := { s with phase := .poll }) ha hf h1 h2
      rw [ha] at ht
      exact ⟨_, congrArg answer ht, .toListen ha hf⟩
    | listen =>
      obtain ⟨h1, h2⟩ : s.flag .cap0Done = true ∧ s.flag .cap1Done = true := by simpa [State.guardHolds, ha] using hg
      have ht := listenToIdle_eq (s := { s with phase := .poll }) ha h1 h2 h.legal
      rw [ha] at ht
      exact ⟨_, congrArg answer ht, .toIdle ha h1 h2⟩

/-! ### Handlers, beats, ticks and the environment -/

theorem handle_eq {s : State} (h : s.Proper) {e : Event} (he : s.pending e = true) (f : Flag) (name : String) :
    s.handle e f name = .ok ((s.ack e).setFlag f) := by
  simp [State.handle, State.mayHandle, h.booted, he]

theorem exec_doneHandler {s : State} (h : s.Proper) (c : Chan) (he : s.pending (completionEvent c) = true) :
    exec (doneHandler c) s = .next ((s.ack (completionEvent c)).setFlag (doneFlag c)) := by
  cases c <;> exact congrArg answer (handle_eq h he _ _)

/-- The records of DESC stand while a beat writes. -/
theorem keepsRecords_writeLE {s : State} (h : s.Proper) {c : Chan} (hc : c ≠ .emit) (v : Word) :
    KeepsRecords s (s.mem.writeLE (s.chan c).wDst.toNat .b2 v) := by
  have hl := h.legal.2.2
  obtain ⟨hd, -, -⟩ := (h.chan c).dst_holds h.legal
  have hin := Region.in_space hl (dstRegion c)
  have hne : dstRegion c ≠ .desc := by cases c <;> decide
  have hap := Region.apart hl hne
  simp only [Region.Holds, Region.Apart] at hd hap
  have h48 : Region.size s.cfg .desc = 48 := rfl
  have hb : Region.base s.cfg .desc = s.cfg.descBase := rfl
  refine ⟨Memory.writeLE_wf _ _ (by simp only [Size.bytes]; omega) h.mem, fun d => ?_⟩
  refine (h.desc d).of_mem rfl (fun a h1 h2 => ?_) h.legal
  refine Memory.read_writeLE_outside s.mem _ a .b2 v ?_
  simp only [Size.bytes]
  omega

/-- What the element move of an ACTIVE channel of a proper state leaves. -/
theorem moveElement_proper {s : State} (h : s.Proper) (c : Chan) (v : Half) :
    ∃ (m : Memory) (o : Half) (l : List Half), KeepsRecords s m ∧
      s.moveElement c v = .ok (({ s with mem := m, dacOut := o, dacTrace := l } : State).setChan c ((s.chan c).beat .b2)) := by
  obtain ⟨u, hu, ⟨-, o, -, rfl⟩ | ⟨hc, rfl⟩⟩ := State.moveElement_boot h.legal (h.chan c) v
  · exact ⟨s.mem, o, _, ⟨h.mem, h.desc⟩, hu⟩
  · exact ⟨_, s.dacOut, s.dacTrace, keepsRecords_writeLE h hc _, hu⟩

theorem setChan_signal (s : State) (c : Chan) (r : ChanRegs) (e : Event) :
    (s.setChan c r).signal e = (s.signal e).setChan c r := by
  cases c <;> rfl

theorem holdsDescriptor_setChan {s : State} {c : Chan} (h : s.HoldsDescriptor c) (d : Chan) (r : ChanRegs) :
    (s.setChan d r).HoldsDescriptor c := by
  simpa [State.HoldsDescriptor] using h

/-- A channel at the start of its block again, as its last beat leaves it. -/
def rewound (p : Params) (c : Chan) (r : ChanRegs) : ChanRegs :=
  { r.load (bootDescriptor p c) (bootDescriptor p c).ctrl with state := .suspended }

/-- Block completion of a channel with boot's registers (R162, R164). -/
theorem blockComplete_setChan {s : State} {p : Params} {c : Chan} {r : ChanRegs} (hp : s.cfg = p) (hl : p.Legal)
    (hd : s.HoldsDescriptor c) (hr : r.wCtrl = (bootDescriptor p c).ctrl) (hn : r.wNext = descAddr p c)
    (ha : r.state = .active) :
    (s.setChan c r).blockComplete c = .ok ((s.signal (completionEvent c)).setChan c (rewound p c r)) := by
  subst hp
  have hx := State.blockComplete_boot (s := s.setChan c r) (c := c) (by simpa using hl) (holdsDescriptor_setChan hd c r)
    (by simpa using hr) (by simpa using hn) (by simpa using ha)
  simpa only [setChan_signal, State.setChan_setChan, State.setChan_cfg, State.chan_setChan_same, rewound] using hx

theorem booted_rewound {p : Params} (hl : p.Legal) {c : Chan} {r : ChanRegs} (h : r.Booted p c) :
    (rewound p c (r.beat .b2)).Booted p c :=
  ChanRegs.booted_load (r := r.beat .b2) hl h.prio h.trigSrc h.burst h.descPtr .suspended false (by simp)

/-- A granted beat in terms of the state its element move leaves (R160). -/
theorem teBeat_of_move {s u : State} {c : Chan} {v : Half} {r : ChanRegs} (hg : s.grant = some c)
    (hm : s.moveElement c v = .ok (u.setChan c r)) :
    s.teBeat c v = if r.wCnt = 0 then (u.setChan c r).blockComplete c else .ok (u.setChan c r) := by
  simp [State.teBeat, hg, hm, bind, Except.bind, pure, Except.pure]

theorem execTeBeat_move {s : State} (h : s.Proper) {c : Chan} (hg : s.grant = some c) (v : Half) :
    ∃ t, execTeBeat c v s = .next t ∧ Move s (.teBeat c v) t := by
  obtain ⟨hact, -⟩ := State.grant_active hg
  have hb := h.chan c
  have hpos := hb.count.1
  obtain ⟨m, o, l, hm, hmove⟩ := moveElement_proper h c v
  have hcnt : ((s.chan c).beat .b2).wCnt.toNat = (s.chan c).wCnt.toNat - 1 := blockDown_toNat hpos
  unfold execTeBeat
  rw [teBeat_of_move hg hmove]
  by_cases h1 : (s.chan c).wCnt.toNat = 1
  · have hz : ((s.chan c).beat .b2).wCnt = 0 := BitVec.eq_of_toNat_eq (by simp [hcnt, h1])
    have hfin := blockComplete_setChan (s := { s with mem := m, dacOut := o, dacTrace := l }) (p := s.cfg)
      (r := (s.chan c).beat .b2) rfl h.legal (hm.desc c) hb.ctrl hb.next hact
    rw [if_pos hz, hfin]
    exact ⟨_, rfl, .lastBeat c v o l m _ hact h1 (booted_rewound h.legal hb) rfl hm⟩
  · have hz : ((s.chan c).beat .b2).wCnt ≠ 0 := fun hz => by rw [hz] at hcnt; simp at hcnt; omega
    rw [if_neg hz]
    exact ⟨_, rfl, .beat c v o l m _ hact (by omega) (hb.beat hact h1) hact hm⟩

theorem execGtTick_move {s : State} (h : s.Proper) (hr : s.gt.run = true) :
    ∃ t, execGtTick s = .next t ∧ Move s .gtTick t := by
  have hset := h.guardTimer
  obtain ⟨hpos, hle⟩ := hset.running hr
  have hne : s.gt.cnt ≠ 0 := by intro hz; rw [hz] at hpos; simp at hpos
  have hcnt : (s.gt.cnt - 1).toNat = s.gt.cnt.toNat - 1 := by
    have := s.gt.cnt.isLt
    rw [BitVec.toNat_sub]
    simp
    omega
  have haux := hset.aux hr
  unfold execGtTick
  rw [if_pos hr]
  refine ⟨_, rfl, ?_⟩
  unfold State.guardCount
  simp only [guardDown_of_ne hne]
  by_cases h1 : s.gt.cnt.toNat = 1
  · rw [if_pos (BitVec.eq_of_toNat_eq (by simp [h1]))]
    exact .lastTick hr h1
  · have hz : s.gt.cnt - 1 ≠ 0 := fun hz => by rw [hz] at hcnt; simp at hcnt; omega
    rw [if_neg hz]
    split
    · rename_i hc
      refine .tick _ hr (by simp only; omega) hr ⟨hset.per, hset.cmp, fun _ => ?_, fun _ => ?_, fun hf => ?_⟩
      · simp only; omega
      · obtain ⟨hcmp, heq⟩ := hc
        exact (decide_eq_true ⟨hcmp, by simp only; omega⟩).symm
      · simp [hr] at hf
    · rename_i hc
      refine .tick _ hr (by simp only; omega) hr ⟨hset.per, hset.cmp, fun _ => ?_, fun _ => ?_, fun hf => ?_⟩
      · simp only; omega
      · rw [haux, decide_eq_decide]
        constructor
        · rintro ⟨hcmp, hle'⟩
          exact ⟨hcmp, by simp only; omega⟩
        · rintro ⟨hcmp, hle'⟩
          have hneq : (s.gt.cnt - 1).toNat + s.gt.cmp.toNat ≠ s.gt.per.toNat := fun heq => hc ⟨hcmp, heq⟩
          exact ⟨hcmp, by simp only at hle'; omega⟩
      · simp [hr] at hf

theorem execEnvTrigger_move {s : State} (h : s.Proper) (c : Chan) :
    ∃ t, execEnvTrigger c s = .next t ∧ Move s (.envTrigger c) t := by
  have hsrc : (s.chan c).trigSrc ≠ 0 := by rw [(h.chan c).trigSrc]; cases c <;> decide
  unfold execEnvTrigger
  rw [if_neg hsrc]
  by_cases ha : (s.chan c).state = .active ∧ (s.chan c).trig = false
  · obtain ⟨ha, ht⟩ := ha
    refine ⟨_, ?_, .trigger c ha⟩
    simp [State.chState, ha, ht]
  · refine ⟨_, ?_, .triggerLost c ha⟩
    split
    · rfl
    · rename_i hs
      rw [if_pos (by simpa [State.chState] using fun ht => ha ⟨by simpa using hs, ht⟩)]

/-- The carrier's counter stays inside the period (R32, R194). -/
theorem nextCount_lt {cnt per : Half} (h : cnt.toNat < per.toNat) : (nextCount cnt per).toNat < per.toNat := by
  unfold nextCount
  have := per.isLt
  split
  · simp; omega
  · have hne : cnt ≠ 0xFFFF := by rintro rfl; simp at h; omega
    rw [carrierUp_of_ne hne, BitVec.toNat_add]
    simp
    omega

/-- A handler that is enabled has its line pending. -/
theorem pending_of_mayHandle {s : State} {e : Event} (h : s.mayHandle e = true) : s.pending e = true := by
  simp only [State.mayHandle, Bool.and_eq_true] at h
  exact h.2

/-- An enabled step of a proper state answers a next state, and is one of the moves. -/
theorem exec_move {s : State} {i : Instr} (h : s.Proper) (he : s.enabled i = true) : ∃ t, exec i s = .next t ∧ Move s i t := by
  cases i <;> simp only [State.enabled, Bool.false_eq_true, decide_eq_true_eq] at he
  case hlPoll => exact execHlPoll_move he
  case asEval => exact execAsEval_move h he
  case hEmitDone => exact ⟨_, exec_doneHandler h .emit (pending_of_mayHandle he), .done .emit rfl (pending_of_mayHandle he)⟩
  case hCap0Done => exact ⟨_, exec_doneHandler h .cap0 (pending_of_mayHandle he), .done .cap0 rfl (pending_of_mayHandle he)⟩
  case hCap1Done => exact ⟨_, exec_doneHandler h .cap1 (pending_of_mayHandle he), .done .cap1 rfl (pending_of_mayHandle he)⟩
  case hGuardOvf =>
    have hp := pending_of_mayHandle he
    exact ⟨_, congrArg answer (handle_eq h hp _ _), .guardDone hp⟩
  case hAltTrig => simp [h.altOff] at he
  case teBeat c v => exact execTeBeat_move h he v
  case ctTick => exact ⟨_, if_pos he, .carrier _ (nextCount_lt h.carrier.cnt)⟩
  case gtTick => exact execGtTick_move h he
  case boot => exact absurd he h.booted
  case envHostSend b => exact ⟨_, rfl, .send b⟩
  case envTrigger c => exact execEnvTrigger_move h c
  case envAltEdge => exact ⟨s, if_neg (by simp [h.altOff]), .edge⟩

end Sys2Proof.Proofs
end

section
/-! PROOF. Every move keeps the row of R224's table. -/

namespace Sys2Proof.Proofs

open Sys2Proof Sys2Proof.Machine

/-! ### Lines and flags of different units -/

@[simp] theorem doneFlag_inj {c d : Chan} : doneFlag c = doneFlag d ↔ c = d := by cases c <;> cases d <;> decide
@[simp] theorem completionEvent_inj {c d : Chan} : completionEvent c = completionEvent d ↔ c = d := by
  cases c <;> cases d <;> decide
@[simp] theorem doneFlag_ne_waitStop (c : Chan) : doneFlag c ≠ .waitStop := by cases c <;> decide
@[simp] theorem doneFlag_ne_emitStart (c : Chan) : doneFlag c ≠ .emitStart := by cases c <;> decide
@[simp] theorem waitStop_ne_doneFlag (c : Chan) : Flag.waitStop ≠ doneFlag c := (doneFlag_ne_waitStop c).symm
@[simp] theorem emitStart_ne_doneFlag (c : Chan) : Flag.emitStart ≠ doneFlag c := (doneFlag_ne_emitStart c).symm
@[simp] theorem completionEvent_ne_guardOvf (c : Chan) : completionEvent c ≠ .guardOvf := by cases c <;> decide
@[simp] theorem completionEvent_ne_altEdge (c : Chan) : completionEvent c ≠ .altEdge := by cases c <;> decide
@[simp] theorem guardOvf_ne_completionEvent (c : Chan) : Event.guardOvf ≠ completionEvent c :=
  (completionEvent_ne_guardOvf c).symm
@[simp] theorem busyState_ne_idle (c : Chan) : busyState c ≠ .idle := by cases c <;> decide
@[simp] theorem busyState_ne_wait (c : Chan) : busyState c ≠ .wait := by cases c <;> decide

/-! ### A unit keeps its clause while what it reads stands -/

theorem inFlight_congr {s t : State} {c : Chan} {f : Flag} (hc : (t.chan c).state = (s.chan c).state)
    (he : t.pending (completionEvent c) = s.pending (completionEvent c)) (hf : t.flag f = s.flag f) :
    t.InFlight c f ↔ s.InFlight c f := by
  simp [State.InFlight, hc, he, hf]

theorem inGuard_congr {s t : State} (hr : t.gt.run = s.gt.run) (he : t.pending .guardOvf = s.pending .guardOvf)
    (hf : t.flag .waitStop = s.flag .waitStop) : t.InGuard ↔ s.InGuard := by
  simp [State.InGuard, hr, he, hf]

/-- A channel whose state, line and flag stand keeps its clause, in the same state of the acquisition machine. -/
structure UnitStands (s t : State) (c : Chan) : Prop where
  state : (t.chan c).state = (s.chan c).state
  event : t.pending (completionEvent c) = s.pending (completionEvent c)
  flag : t.flag (doneFlag c) = s.flag (doneFlag c)

/-- The same for the guard timer. -/
structure GuardStands (s t : State) : Prop where
  run : t.gt.run = s.gt.run
  event : t.pending .guardOvf = s.pending .guardOvf
  flag : t.flag .waitStop = s.flag .waitStop

theorem UnitRests.of_stands {s t : State} {c : Chan} (h : UnitRests s c) (hu : UnitStands s t c) : UnitRests t c :=
  ⟨hu.state.trans h.suspended, hu.event.trans h.event, hu.flag.trans h.flag⟩

/-- The row of a state that differs from a proper one in one channel at most. -/
theorem RowByUnit.of_channel {s t : State} (h : RowByUnit s) (ha : t.acqState = s.acqState) (c : Chan)
    (hbusy : busyState c = s.acqState → t.InFlight c (doneFlag c)) (hrest : busyState c ≠ s.acqState → UnitRests t c)
    (hother : ∀ d, d ≠ c → UnitStands s t d) (hg : GuardStands s t) (hstart : t.flag .emitStart = s.flag .emitStart)
    (hedge : t.pending .altEdge = s.pending .altEdge) : RowByUnit t := by
  refine ⟨fun d hd => ?_, fun d hd => ?_, fun hw => ?_, fun hw => ?_, fun hi => ?_, hedge.trans h.noEdge⟩
  · rw [ha] at hd
    by_cases hdc : d = c
    · subst hdc; exact hbusy hd
    · obtain ⟨h1, h2, h3⟩ := hother d hdc
      exact (inFlight_congr h1 h2 h3).2 (h.busy d hd)
  · rw [ha] at hd
    by_cases hdc : d = c
    · subst hdc; exact hrest hd
    · exact (h.resting d hd).of_stands (hother d hdc)
  · exact (inGuard_congr hg.run hg.event hg.flag).2 (h.counting (ha ▸ hw))
  · rw [hg.run, hg.event, hg.flag]
    exact h.stopped (ha ▸ hw)
  · rw [hstart]
    exact h.start (ha ▸ hi)

/-- The row of a state that differs from a proper one outside the units. -/
theorem RowByUnit.of_stands {s t : State} (h : RowByUnit s) (ha : t.acqState = s.acqState) (hc : ∀ c, UnitStands s t c)
    (hg : GuardStands s t) (hstart : s.acqState ≠ .idle → t.flag .emitStart = false)
    (hedge : t.pending .altEdge = s.pending .altEdge) : RowByUnit t := by
  refine ⟨fun d hd => ?_, fun d hd => (h.resting d (ha ▸ hd)).of_stands (hc d), fun hw => ?_, fun hw => ?_,
    fun hi => hstart (ha ▸ hi), hedge.trans h.noEdge⟩
  · exact (inFlight_congr (hc d).state (hc d).event (hc d).flag).2 (h.busy d (ha ▸ hd))
  · exact (inGuard_congr hg.run hg.event hg.flag).2 (h.counting (ha ▸ hw))
  · rw [hg.run, hg.event, hg.flag]
    exact h.stopped (ha ▸ hw)

/-- The row of a state that differs from a proper one in the guard timer at most, in Wait. -/
theorem RowByUnit.of_guard {s t : State} (h : RowByUnit s) (hw : s.acqState = .wait) (ha : t.acqState = s.acqState)
    (hc : ∀ c, UnitStands s t c) (hg : t.InGuard) (hstart : t.flag .emitStart = s.flag .emitStart)
    (hedge : t.pending .altEdge = s.pending .altEdge) : RowByUnit t := by
  refine ⟨fun d hd => ?_, fun d hd => (h.resting d (ha ▸ hd)).of_stands (hc d), fun _ => hg, fun hn => absurd (ha.trans hw) hn,
    fun hi => hstart.trans (h.start (ha ▸ hi)), hedge.trans h.noEdge⟩
  exact (inFlight_congr (hc d).state (hc d).event (hc d).flag).2 (h.busy d (ha ▸ hd))

/-! ### Which unit a move is about -/

/-- An ACTIVE channel is at work, with neither its line pending nor its flag set. -/
theorem RowByUnit.active {s : State} (h : RowByUnit s) {c : Chan} (hc : (s.chan c).state = .active) :
    busyState c = s.acqState ∧ s.pending (completionEvent c) = false ∧ s.flag (doneFlag c) = false := by
  have hb : busyState c = s.acqState := by
    by_contra hn
    have := (h.resting c hn).suspended
    rw [hc] at this
    cases this
  obtain ⟨-, he, hf⟩ | ⟨hs, -⟩ := h.busy c hb
  · exact ⟨hb, he, hf⟩
  · rw [hc] at hs; cases hs

/-- A channel whose line is pending is at work, SUSPENDED, its flag not set. -/
theorem RowByUnit.completed {s : State} (h : RowByUnit s) {c : Chan} (hp : s.pending (completionEvent c) = true) :
    busyState c = s.acqState ∧ (s.chan c).state = .suspended ∧ s.flag (doneFlag c) = false := by
  have hb : busyState c = s.acqState := by
    by_contra hn
    simp [(h.resting c hn).event] at hp
  obtain ⟨-, he, -⟩ | ⟨hs, he⟩ := h.busy c hb
  · simp [he] at hp
  · exact ⟨hb, hs, by simpa [hp] using he⟩

/-- A channel whose flag is set is at work, SUSPENDED, its line not pending. -/
theorem RowByUnit.flagged {s : State} (h : RowByUnit s) {c : Chan} (hf : s.flag (doneFlag c) = true) :
    busyState c = s.acqState ∧ (s.chan c).state = .suspended ∧ s.pending (completionEvent c) = false := by
  have hb : busyState c = s.acqState := by
    by_contra hn
    simp [(h.resting c hn).flag] at hf
  obtain ⟨-, -, hf'⟩ | ⟨hs, he⟩ := h.busy c hb
  · simp [hf'] at hf
  · exact ⟨hb, hs, by simpa [hf] using he⟩

/-- The guard timer while it runs. -/
theorem RowByUnit.running {s : State} (h : RowByUnit s) (hr : s.gt.run = true) :
    s.acqState = .wait ∧ s.pending .guardOvf = false ∧ s.flag .waitStop = false := by
  have hw : s.acqState = .wait := by
    by_contra hn
    simp [(h.stopped hn).1] at hr
  obtain ⟨-, he, hf⟩ | ⟨hs, -⟩ := h.counting hw
  · exact ⟨hw, he, hf⟩
  · simp [hs] at hr

theorem RowByUnit.overflowed {s : State} (h : RowByUnit s) (hp : s.pending .guardOvf = true) :
    s.acqState = .wait ∧ s.gt.run = false ∧ s.flag .waitStop = false := by
  have hw : s.acqState = .wait := by
    by_contra hn
    simp [(h.stopped hn).2.1] at hp
  obtain ⟨-, he, -⟩ | ⟨hs, he⟩ := h.counting hw
  · simp [he] at hp
  · exact ⟨hw, hs, by simpa [hp] using he⟩

theorem RowByUnit.waited {s : State} (h : RowByUnit s) (hf : s.flag .waitStop = true) :
    s.acqState = .wait ∧ s.gt.run = false ∧ s.pending .guardOvf = false := by
  have hw : s.acqState = .wait := by
    by_contra hn
    simp [(h.stopped hn).2.2] at hf
  obtain ⟨-, -, hf'⟩ | ⟨hs, he⟩ := h.counting hw
  · simp [hf'] at hf
  · exact ⟨hw, hs, by simpa [hf] using he⟩

/-! ### The moves -/

theorem row_done {s : State} (h : RowByUnit s) {c : Chan} (hp : s.pending (completionEvent c) = true) :
    RowByUnit ((s.ack (completionEvent c)).setFlag (doneFlag c)) := by
  obtain ⟨hb, hs, -⟩ := h.completed hp
  refine h.of_channel rfl c (fun _ => .inr ?_) (fun hn => absurd hb hn) (fun d hd => ⟨by simp, ?_, ?_⟩) ⟨rfl, ?_, ?_⟩ ?_ ?_
  · simp [hs]
  · simp [hd.symm]
  · simp [hd.symm]
  all_goals simp

theorem row_guardDone {s : State} (h : RowByUnit s) (hp : s.pending .guardOvf = true) :
    RowByUnit ((s.ack .guardOvf).setFlag .waitStop) := by
  obtain ⟨hw, hr, -⟩ := h.overflowed hp
  refine h.of_guard hw rfl (fun c => ⟨by simp, by simp, by simp⟩) (.inr ?_) (by simp) (by simp)
  simp [hr]

/-- A channel's own step that keeps its line and flag. -/
theorem row_setChan {s : State} (h : RowByUnit s) (c : Chan) {r : ChanRegs} (hr : r.state = (s.chan c).state) :
    RowByUnit (s.setChan c r) := by
  refine h.of_stands (by simp) (fun d => ⟨?_, by simp, by simp⟩) ⟨by simp, by simp, by simp⟩ (fun hi => by simpa using h.start hi)
    (by simp)
  by_cases hd : d = c
  · subst hd; simpa using hr
  · rw [State.chan_setChan_other _ hd]

theorem row_lastBeat {s : State} (h : RowByUnit s) {c : Chan} (hc : (s.chan c).state = .active) {r : ChanRegs}
    (hr : r.state = .suspended) : RowByUnit ((s.signal (completionEvent c)).setChan c r) := by
  obtain ⟨hb, -, hf⟩ := h.active hc
  refine h.of_channel (by simp) c (fun _ => .inr ?_) (fun hn => absurd hb hn) (fun d hd => ⟨?_, ?_, ?_⟩) ⟨?_, ?_, ?_⟩ ?_ ?_
  · simp [hr, hf]
  · simp [State.chan_setChan_other _ hd]
  · simp [hd.symm]
  all_goals simp

theorem row_lastTick {s : State} (h : RowByUnit s) (hr : s.gt.run = true) {g : GuardRegs} (hg : g.run = false) :
    RowByUnit (({ s with gt := g } : State).signal .guardOvf) := by
  obtain ⟨hw, -, hf⟩ := h.running hr
  have hev : ∀ e, (({ s with gt := g } : State).signal .guardOvf).pending e = (decide (.guardOvf = e) || s.pending e) :=
    pending_signal _ _
  refine h.of_guard hw rfl (fun c => ⟨by cases c <;> rfl, ?_, rfl⟩) (.inr ⟨hg, ?_⟩) rfl ?_
  · simp [hev]
  · rw [hev]
    exact (congrArg Bool.not hf).symm
  · simp [hev]

/-- R217: channel 0 goes to work, its line and flag clear. -/
theorem row_toEmit {s : State} (h : RowByUnit s) (ha : s.acqState = .idle) :
    RowByUnit
      { s.clearFlag .emitStart with phase := .poll, acqState := .emit, ch0 := { s.ch0 with state := .active } } := by
  have hrest : ∀ c, UnitRests s c := fun c => h.resting c (by simp [ha])
  obtain ⟨hrun, hovf, hwait⟩ := h.stopped (by simp [ha])
  have hflag := flag_clearFlag s .emitStart
  refine ⟨fun c hc => ?_, fun c hc => ?_, fun hw => (by cases hw), fun _ => ⟨hrun, hovf, (hflag _).trans (by simp [hwait])⟩,
    fun _ => (hflag _).trans (by simp), h.noEdge⟩
  · cases c <;> simp [busyState] at hc
    exact .inl ⟨rfl, (hrest .emit).event, (hflag _).trans (by simpa using (hrest .emit).flag)⟩
  · refine ⟨?_, (hrest c).event, (hflag _).trans (by simp [(hrest c).flag])⟩
    cases c
    · exact absurd rfl hc
    · exact (hrest .cap0).suspended
    · exact (hrest .cap1).suspended

/-- R218: every channel rests again, the guard timer runs. -/
theorem row_toWait {s : State} (h : RowByUnit s) (hf : s.flag .emitStop = true) {g : GuardRegs} (hg : g.run = true) :
    RowByUnit { s.clearFlag .emitStop with phase := .poll, acqState := .wait, gt := g } := by
  obtain ⟨ha, hs, hp⟩ := h.flagged (c := .emit) hf
  replace ha : s.acqState = .emit := ha.symm
  obtain ⟨-, hovf, hwait⟩ := h.stopped (by simp [ha])
  have hflag := flag_clearFlag s .emitStop
  have hstart := h.start (by simp [ha])
  refine ⟨fun c hc => absurd hc (busyState_ne_wait c), fun c _ => ?_,
    fun _ => .inl ⟨hg, hovf, (hflag _).trans (by simp [hwait])⟩, fun hw => absurd rfl hw,
    fun _ => (hflag _).trans (by simp [hstart]), h.noEdge⟩
  cases c
  · exact ⟨hs, hp, (hflag _).trans (by simp [doneFlag])⟩
  · have hr := h.resting .cap0 (by simp [ha, busyState])
    exact ⟨hr.suspended, hr.event, (hflag _).trans (by simp [hr.flag])⟩
  · have hr := h.resting .cap1 (by simp [ha, busyState])
    exact ⟨hr.suspended, hr.event, (hflag _).trans (by simp [hr.flag])⟩

/-- R219: both capture channels go to work. -/
theorem row_toListen {s : State} (h : RowByUnit s) (hf : s.flag .waitStop = true) :
    RowByUnit
      { s.clearFlag .waitStop with
        phase := .poll, acqState := .listen, ch1 := { s.ch1 with state := .active }, ch2 := { s.ch2 with state := .active } } := by
  obtain ⟨ha, hrun, hovf⟩ := h.waited hf
  have hrest : ∀ c, UnitRests s c := fun c => h.resting c (by simp [ha])
  have hflag := flag_clearFlag s .waitStop
  have hdone : ∀ c, (s.clearFlag .waitStop).flag (doneFlag c) = false := fun c => by simp [(hrest c).flag]
  have hstart := h.start (by simp [ha])
  refine ⟨fun c hc => .inl ⟨?_, (hrest c).event, hdone c⟩, fun c hc => ⟨?_, (hrest c).event, hdone c⟩,
    fun hw => (by cases hw), fun _ => ⟨hrun, hovf, (hflag _).trans (by simp)⟩, fun _ => (hflag _).trans (by simp [hstart]),
    h.noEdge⟩
  · cases c
    · cases hc
    · rfl
    · rfl
  · cases c
    · exact (hrest .emit).suspended
    · exact absurd rfl hc
    · exact absurd rfl hc

/-- R220: every unit rests. -/
theorem row_toIdle {s : State} (h : RowByUnit s) (h1 : s.flag .cap0Done = true) (h2 : s.flag .cap1Done = true)
    (txs : List Byte) (j : Bool) :
    RowByUnit
      { (s.clearFlag .cap0Done).clearFlag .cap1Done with phase := .poll, acqState := .idle, txs := txs, jobInd := j } := by
  obtain ⟨ha, hs1, hp1⟩ := h.flagged (c := .cap0) h1
  obtain ⟨-, hs2, hp2⟩ := h.flagged (c := .cap1) h2
  replace ha : s.acqState = .listen := ha.symm
  obtain ⟨hrun, hovf, hwait⟩ := h.stopped (by simp [ha])
  have hr := h.resting .emit (by simp [ha, busyState])
  have hflag : ∀ f, ((s.clearFlag .cap0Done).clearFlag .cap1Done).flag f =
      (!decide (Flag.cap1Done = f) && (!decide (Flag.cap0Done = f) && s.flag f)) := fun f => by simp
  refine ⟨fun c hc => absurd hc (busyState_ne_idle c), fun c _ => ?_, fun hw => (by cases hw),
    fun _ => ⟨hrun, hovf, (hflag _).trans (by simp [hwait])⟩, fun hi => absurd rfl hi, h.noEdge⟩
  cases c
  · exact ⟨hr.suspended, hr.event, (hflag _).trans (by simp [hr.flag])⟩
  · exact ⟨hs1, hp1, (hflag _).trans (by simp [doneFlag])⟩
  · exact ⟨hs2, hp2, (hflag _).trans (by simp [doneFlag])⟩

/-- The row is kept by every move (R224). -/
theorem Move.row {s t : State} {i : Instr} (h : RowByUnit s) (hm : Move s i t) : RowByUnit t := by
  cases hm with
  | poll q a => exact h.of_stands rfl (fun c => ⟨by cases c <;> rfl, rfl, rfl⟩) ⟨rfl, rfl, rfl⟩ h.start rfl
  | start q _ hi =>
    have hflag := flag_setFlag s .emitStart
    exact h.of_stands rfl (fun c => ⟨by cases c <;> rfl, rfl, (hflag _).trans (by simp)⟩)
      ⟨rfl, rfl, (hflag _).trans (by simp)⟩ (fun hn => absurd hi hn) rfl
  | stay => exact h.of_stands rfl (fun c => ⟨by cases c <;> rfl, rfl, rfl⟩) ⟨rfl, rfl, rfl⟩ h.start rfl
  | toEmit ha => exact row_toEmit h ha
  | toWait _ hf => exact row_toWait h hf rfl
  | toListen _ hf => exact row_toListen h hf
  | toIdle _ h1 h2 => exact row_toIdle h h1 h2 _ _
  | done c _ hp => exact row_done h hp
  | guardDone hp => exact row_guardDone h hp
  | beat c v o l m r ha _ _ hr =>
    have hu : RowByUnit { s with mem := m, dacOut := o, dacTrace := l } :=
      h.of_stands rfl (fun d => ⟨by cases d <;> rfl, rfl, rfl⟩) ⟨rfl, rfl, rfl⟩ h.start rfl
    exact row_setChan hu c (by cases c <;> exact hr.trans ha.symm)
  | lastBeat c v o l m r ha _ _ hr =>
    have hu : RowByUnit { s with mem := m, dacOut := o, dacTrace := l } :=
      h.of_stands rfl (fun d => ⟨by cases d <;> rfl, rfl, rfl⟩) ⟨rfl, rfl, rfl⟩ h.start rfl
    exact row_lastBeat hu (by cases c <;> exact ha) hr
  | tick g hr _ hg =>
    exact h.of_stands rfl (fun d => ⟨by cases d <;> rfl, rfl, rfl⟩) ⟨hg.trans hr.symm, rfl, rfl⟩ h.start rfl
  | lastTick hr => exact row_lastTick h hr rfl
  | carrier n => exact h.of_stands rfl (fun d => ⟨by cases d <;> rfl, rfl, rfl⟩) ⟨rfl, rfl, rfl⟩ h.start rfl
  | send b => exact h.of_stands rfl (fun d => ⟨by cases d <;> rfl, rfl, rfl⟩) ⟨rfl, rfl, rfl⟩ h.start rfl
  | trigger c => exact row_setChan h c rfl
  | triggerLost => exact h
  | edge => exact h

end Sys2Proof.Proofs
end

section
/-! PROOF. Every move, and so every enabled step, keeps a proper state proper (44_acq_fsm.md R224). -/

namespace Sys2Proof.Proofs

open Sys2Proof Sys2Proof.Machine

/-! ### The registers of a channel -/

/-- A channel resumed is still as boot configured it (R156). -/
theorem booted_resume {p : Params} {c : Chan} {r : ChanRegs} (h : r.Booted p c) :
    ({ r with state := .active } : ChanRegs).Booted p c :=
  ⟨h.prio, h.trigSrc, h.burst, h.descPtr, h.ctrl, h.next, h.count, h.src, h.dst, fun _ => rfl, nofun⟩

/-- A latched trigger of an ACTIVE channel (R159). -/
theorem booted_trigger {p : Params} {c : Chan} {r : ChanRegs} (h : r.Booted p c) (ha : r.state = .active) :
    ({ r with trig := true } : ChanRegs).Booted p c :=
  ⟨h.prio, h.trigSrc, h.burst, h.descPtr, h.ctrl, h.next, h.count, h.src, h.dst, fun _ => ha, h.suspended⟩

theorem booted_setChan {s : State} (h : ∀ d, ChanRegs.Booted s.cfg d (s.chan d)) {c : Chan} {r : ChanRegs}
    (hr : r.Booted s.cfg c) (d : Chan) : ChanRegs.Booted (s.setChan c r).cfg d ((s.setChan c r).chan d) := by
  rw [State.setChan_cfg]
  by_cases hd : d = c
  · subst hd
    rwa [State.chan_setChan_same]
  · rw [State.chan_setChan_other _ hd]
    exact h d

/-! ### The guard timer -/

/-- A countdown that starts (R202). -/
theorem guardSet_retrigger {s : State} (h : s.Proper) :
    ({ s with gt := { s.gt with cnt := s.gt.per, run := true, aux := false } } : State).GuardSet := by
  have hne := gtPer_ne_zero h
  have hpos : 1 ≤ s.gt.per.toNat := by
    by_contra hz
    exact hne (BitVec.eq_of_toNat_eq (by simp; omega))
  refine ⟨h.guardTimer.per, h.guardTimer.cmp, fun _ => ⟨hpos, le_rfl⟩, fun _ => ?_, nofun⟩
  symm
  rw [decide_eq_false_iff_not]
  rintro ⟨hc, hle⟩
  exact hc (BitVec.eq_of_toNat_eq (by simp only [BitVec.ofNat_eq_ofNat, BitVec.toNat_ofNat] at hle ⊢; omega))

/-- A countdown that has ended (R205). -/
theorem guardSet_stop {s : State} (h : s.GuardSet) :
    ({ s with gt := { s.gt with cnt := 0, run := false, aux := false } } : State).GuardSet :=
  ⟨h.per, h.cmp, nofun, nofun, fun _ => ⟨rfl, rfl⟩⟩

theorem guardSet_congr {s t : State} (h : s.GuardSet) (hc : t.cfg = s.cfg) (hg : t.gt = s.gt) : t.GuardSet := by
  obtain ⟨h1, h2, h3, h4, h5⟩ := h
  rw [← hc, ← hg] at *
  exact ⟨h1, h2, h3, h4, h5⟩

theorem carrierRuns_congr {s t : State} (h : s.CarrierRuns) (hc : t.cfg = s.cfg) (hct : t.ct = s.ct) : t.CarrierRuns := by
  obtain ⟨h1, h2, h3, h4, h5⟩ := h
  rw [← hc, ← hct] at *
  exact ⟨h1, h2, h3, h4, h5⟩

/-! ### FLAGS in Idle -/

/-- In Idle no flag but EMIT_START is set. -/
theorem RowByUnit.flag_idle {s : State} (h : RowByUnit s) (ha : s.acqState = .idle) {f : Flag} (hf : f ≠ .emitStart) :
    s.flag f = false := by
  have hrest : ∀ c, s.flag (doneFlag c) = false := fun c => (h.resting c (by simp [ha])).flag
  have hwait := (h.stopped (by simp [ha])).2.2
  cases f
  exacts [absurd rfl hf, hrest .emit, hwait, hrest .cap0, hrest .cap1]

theorem RowByUnit.flags_idle {s : State} (h : RowByUnit s) (ha : s.acqState = .idle) (hf : s.flag .emitStart = false) :
    s.flags = 0 := by
  rw [flags_eq_zero_iff]
  intro f
  by_cases he : f = .emitStart
  · rw [he, hf]
  · exact h.flag_idle ha he

/-! ### The moves -/

/-- A state that keeps the parameters, the records, the channels' registers and both timers of a proper one. -/
theorem proper_of_frame {s t : State} (h : s.Proper) (hcfg : t.cfg = s.cfg) (halt : t.altCount = s.altCount) (hph : t.phase ≠ .boot)
    (hmem : t.mem = s.mem) (hchan : ∀ c, ChanRegs.Booted s.cfg c (t.chan c)) (hct : t.ct = s.ct) (hgt : t.GuardSet)
    (hrow : RowByUnit t) (hpoll : t.phase = .poll → t.acqState = .idle → t.flag .emitStart = false)
    (hjob : t.jobInd = (t.acqState ≠ .idle || t.flag .emitStart)) (htxs : 4 * s.cfg.nCap ∣ t.txs.length) : t.Proper where
  legal := hcfg ▸ h.legal
  altOff := hcfg ▸ h.altOff
  altCount := halt ▸ h.altCount
  booted := hph
  mem := hmem ▸ h.mem
  desc c := (h.desc c).of_mem hcfg (fun _ _ _ => by rw [hmem]) h.legal
  chan c := hcfg ▸ hchan c
  carrier := carrierRuns_congr h.carrier hcfg hct
  guardTimer := hgt
  row := (row_iff t).2 hrow
  polled hp hi := hrow.flags_idle hi (hpoll hp hi)
  jobInd := hjob
  txs := hcfg ▸ htxs

/-- The flag that a poll leaves clear in Idle. -/
theorem polled_flag {s : State} (h : s.Proper) (hp : s.phase = .poll) (hi : s.acqState = .idle) :
    s.flag .emitStart = false :=
  (flags_eq_zero_iff s).1 (h.polled hp hi) _

theorem booted_chan {s t : State} (h : s.Proper) (h0 : t.ch0 = s.ch0) (h1 : t.ch1 = s.ch1) (h2 : t.ch2 = s.ch2) (c : Chan) :
    ChanRegs.Booted s.cfg c (t.chan c) := by
  have hc : t.chan c = s.chan c := by cases c <;> assumption
  exact hc ▸ h.chan c

theorem Move.proper_asEval {s t : State} (h : s.Proper) (hm : Move s .asEval t) : t.Proper := by
  have row := (row_iff s).1 h.row
  have row' := hm.row row
  have chan := h.chan
  have hjob := h.jobInd
  cases hm with
  | done c he => cases c <;> cases he
  | stay hp hg =>
    refine proper_of_frame h rfl rfl nofun rfl (booted_chan h rfl rfl rfl) rfl (guardSet_congr h.guardTimer rfl rfl) row' (fun _ hi => ?_)
      h.jobInd h.txs
    rw [State.guardHolds, show s.acqState = .idle from hi] at hg
    exact hg
  | toEmit ha hf =>
    refine proper_of_frame h rfl rfl nofun rfl (forall_chan.2 ⟨booted_resume (chan .emit), chan .cap0, chan .cap1⟩) rfl
      (guardSet_congr h.guardTimer rfl rfl) row' nofun ?_ h.txs
    simpa [ha, hf] using hjob
  | toWait ha hf =>
    refine proper_of_frame h rfl rfl nofun rfl (booted_chan h rfl rfl rfl) rfl
      (guardSet_congr (guardSet_retrigger h) rfl rfl) row' nofun ?_ h.txs
    simpa [ha] using hjob
  | toListen ha hf =>
    refine proper_of_frame h rfl rfl nofun rfl
      (forall_chan.2 ⟨chan .emit, booted_resume (chan .cap0), booted_resume (chan .cap1)⟩) rfl
      (guardSet_congr h.guardTimer rfl rfl) row' nofun ?_ h.txs
    simpa [ha] using hjob
  | toIdle ha h1 h2 =>
    have hstart : ((s.clearFlag .cap0Done).clearFlag .cap1Done).flag .emitStart = false := by
      simpa using row.start (by simp [ha])
    have hoff : (!s.jobInd) = false := by simp [hjob, ha]
    refine proper_of_frame h rfl rfl nofun rfl (booted_chan h rfl rfl rfl) rfl
      (guardSet_congr h.guardTimer rfl rfl) row' (fun _ _ => hstart) (hoff.trans hstart.symm) ?_
    rw [List.length_append, State.payload_length]
    exact Nat.dvd_add h.txs (Nat.dvd_refl _)

/-- What a beat stores keeps a proper state proper. -/
theorem proper_store {s : State} (h : s.Proper) {m : Memory} (hm : KeepsRecords s m) (o : Half) (l : List Half) :
    ({ s with mem := m, dacOut := o, dacTrace := l } : State).Proper :=
  { h with
    mem := hm.wf, desc := hm.desc, chan := booted_chan (s := s) h rfl rfl rfl, carrier := carrierRuns_congr h.carrier rfl rfl
    guardTimer := guardSet_congr h.guardTimer rfl rfl }

/-- A channel's registers change and stay as boot configured them, with its line or without, and the row is kept. -/
theorem proper_setChan {s : State} (h : s.Proper) (e : BitVec 5) {c : Chan} {r : ChanRegs} (hr : r.Booted s.cfg c)
    (hrow : RowByUnit (({ s with evtPending := e } : State).setChan c r)) :
    (({ s with evtPending := e } : State).setChan c r).Proper := by
  have hchan := booted_setChan (s := { s with evtPending := e }) (booted_chan (s := s) h rfl rfl rfl) hr
  refine proper_of_frame h (by simp) (by simp) (by simpa using h.booted) (by simp) (fun d => by simpa using hchan d) (by simp)
    (guardSet_congr h.guardTimer (by simp) (by simp)) hrow (fun hp hi => ?_) ?_ (by simpa using h.txs)
  · rw [flag_setChan]
    exact polled_flag (s := s) h (by simpa using hp) (by simpa using hi)
  · rw [State.setChan_jobInd, State.setChan_acqState, flag_setChan]
    exact h.jobInd

/-- The guard timer moves and keeps its clause, with its line or without, and the row is kept. -/
theorem proper_guard {s : State} (h : s.Proper) (e : BitVec 5) {g : GuardRegs} (hg : ({ s with gt := g } : State).GuardSet)
    (hrow : RowByUnit { s with gt := g, evtPending := e }) : ({ s with gt := g, evtPending := e } : State).Proper :=
  proper_of_frame h rfl rfl h.booted rfl (booted_chan h rfl rfl rfl) rfl (guardSet_congr hg rfl rfl) hrow
    (fun hp hi => polled_flag (s := s) h hp hi) h.jobInd h.txs

/-- The lines and flags of a handler's unit change. Handlers run in no state of Idle (R224). -/
theorem proper_latches {s t : State} (h : s.Proper) (ht : RowByUnit t)
    (he : t = { s with evtPending := t.evtPending, flags := t.flags }) (hi : s.acqState ≠ .idle) : t.Proper := by
  have hi' : t.acqState ≠ .idle := by rw [he]; exact hi
  have hjob := h.jobInd
  refine proper_of_frame h (by rw [he]) (by rw [he]) (by rw [he]; exact h.booted) (by rw [he])
    (booted_chan h (by rw [he]) (by rw [he]) (by rw [he])) (by rw [he])
    (guardSet_congr h.guardTimer (by rw [he]) (by rw [he])) ht (fun _ ha => absurd ha hi') ?_ (by rw [he]; exact h.txs)
  rw [he]
  simpa [hi] using hjob

/-- A move keeps a proper state proper. -/
theorem Move.proper {s t : State} {i : Instr} (h : s.Proper) (hm : Move s i t) : t.Proper := by
  have row := (row_iff s).1 h.row
  have row' := hm.row row
  by_cases hi : i = .asEval
  · subst hi
    exact hm.proper_asEval h
  cases hm with
  | stay | toEmit | toWait | toListen | toIdle => exact absurd rfl hi
  | poll q a hp hq =>
    exact proper_of_frame h rfl rfl nofun rfl (booted_chan h rfl rfl rfl) rfl (guardSet_congr h.guardTimer rfl rfl) row' nofun
      h.jobInd h.txs
  | start q hp ha =>
    have hoff : s.jobInd = false := by simpa [ha, polled_flag h hp ha] using h.jobInd
    refine proper_of_frame h rfl rfl nofun rfl (booted_chan h rfl rfl rfl) rfl (guardSet_congr h.guardTimer rfl rfl) row' nofun ?_
      h.txs
    show (!s.jobInd) = (decide (s.acqState ≠ .idle) || (s.setFlag .emitStart).flag .emitStart)
    simp [hoff]
  | done c _ hp =>
    obtain ⟨hb, -, -⟩ := row.completed hp
    exact proper_latches h row' rfl (hb ▸ busyState_ne_idle c)
  | guardDone hp =>
    obtain ⟨hw, -, -⟩ := row.overflowed hp
    exact proper_latches h row' rfl (by simp [hw])
  | beat c v o l m r ha _ hr _ hk => exact proper_setChan (proper_store h hk o l) s.evtPending hr row'
  | lastBeat c v o l m r ha _ hr _ hk => exact proper_setChan (proper_store h hk o l) _ hr row'
  | tick g hr _ _ hg => exact proper_guard h s.evtPending hg row'
  | lastTick hr => exact proper_guard h _ (guardSet_stop h.guardTimer) row'
  | carrier n hn =>
    exact { h with
      chan := booted_chan (s := s) h rfl rfl rfl
      carrier := ⟨h.carrier.en, h.carrier.per, h.carrier.duty, h.carrier.ind, hn⟩
      guardTimer := guardSet_congr h.guardTimer rfl rfl }
  | send b =>
    exact proper_of_frame h rfl rfl h.booted rfl (booted_chan h rfl rfl rfl) rfl (guardSet_congr h.guardTimer rfl rfl) row'
      (fun hp ha => polled_flag (s := s) h hp ha) h.jobInd h.txs
  | trigger c ha => exact proper_setChan h s.evtPending (booted_trigger (h.chan c) ha) row'
  | triggerLost => exact h
  | edge => exact h

/-- An enabled step of a proper state answers a proper state (R224). -/
theorem proper_kept {s : State} {i : Instr} (h : s.Proper) (he : s.enabled i = true) : ∃ t, exec i s = .next t ∧ t.Proper := by
  obtain ⟨t, ht, hm⟩ := exec_move h he
  exact ⟨t, ht, hm.proper h⟩

end Sys2Proof.Proofs
end

section
/-! PROOF. What a job still owes in each state, and how a move pays it: beats of each channel and guard ticks (70_reset_and_hazards.md
R318, R319). -/

namespace Sys2Proof.Proofs

open Sys2Proof Sys2Proof.Machine

/-- The beats a channel has still to take of its block. -/
def beatsLeft (s : State) (c : Chan) : Nat := if (s.chan c).state = .active then (s.chan c).wCnt.toNat else 0

/-- The ticks the guard timer has still to take. -/
def ticksLeft (s : State) : Nat := if s.gt.run then s.gt.cnt.toNat else 0

/-! ### A move inside a state of the acquisition machine -/

theorem isBeat_doneHandler (c d : Chan) : isBeat c (doneHandler d) = false := by cases d <;> rfl

theorem doneHandler_ne_gtTick (c : Chan) : doneHandler c ≠ .gtTick := by cases c <;> decide

/-- A channel set to `r`: what every channel owes. -/
theorem beatsLeft_setChan (s : State) (c d : Chan) (r : ChanRegs) :
    beatsLeft (s.setChan d r) c = if c = d then (if r.state = .active then r.wCnt.toNat else 0) else beatsLeft s c := by
  by_cases h : c = d
  · subst h; simp [beatsLeft]
  · simp [beatsLeft, State.chan_setChan_other _ h, h]

/-- Inside a state of the acquisition machine a beat of a channel, and nothing else, takes one from what it owes. -/
theorem Move.beats {s t : State} {i : Instr} (hm : Move s i t) (ha : t.acqState = s.acqState) (c : Chan) :
    beatsLeft s c = beatsLeft t c + if isBeat c i then 1 else 0 := by
  cases hm with
  | toEmit h => simp [h] at ha
  | toWait h => simp [h] at ha
  | toListen h => simp [h] at ha
  | toIdle h => simp [h] at ha
  | done d he hp => simp [he, isBeat_doneHandler, beatsLeft]
  | beat d v o l m r hd hr _ hact =>
    have hu : beatsLeft ({ s with mem := m, dacOut := o, dacTrace := l } : State) c = beatsLeft s c := by cases c <;> rfl
    rw [beatsLeft_setChan, hu]
    by_cases hcd : c = d
    · subst hcd; simp [beatsLeft, isBeat, hd, hact, hr]
    · simp [isBeat, hcd, Ne.symm hcd]
  | lastBeat d v o l m r hd hr _ hs =>
    have hu : beatsLeft (({ s with mem := m, dacOut := o, dacTrace := l } : State).signal (completionEvent d)) c = beatsLeft s c := by
      cases c <;> rfl
    rw [beatsLeft_setChan, hu]
    by_cases hcd : c = d
    · subst hcd; simp [beatsLeft, isBeat, hd, hs, hr]
    · simp [isBeat, hcd, Ne.symm hcd]
  | trigger d hd =>
    rw [beatsLeft_setChan]
    by_cases hcd : c = d
    · subst hcd; simp [beatsLeft, isBeat]
    · simp [isBeat, hcd]
  | _ => cases c <;> rfl

/-- The same for the guard timer and its ticks. -/
theorem Move.ticks {s t : State} {i : Instr} (hm : Move s i t) (ha : t.acqState = s.acqState) :
    ticksLeft s = ticksLeft t + if i = .gtTick then 1 else 0 := by
  cases hm with
  | toEmit h => simp [h] at ha
  | toWait h => simp [h] at ha
  | toListen h => simp [h] at ha
  | toIdle h => simp [h] at ha
  | done d he hp =>
    subst he
    rw [if_neg (doneHandler_ne_gtTick d)]
    rfl
  | beat d | lastBeat d | trigger d => simp [ticksLeft]
  | tick g hr hg hrun => simp [ticksLeft, hr, hrun, hg]
  | lastTick hr hc => simp [ticksLeft, hr, hc]
  | _ => rfl

/-- Inside a state of the acquisition machine no flag is cleared (R22). -/
theorem Move.flag {s t : State} {i : Instr} (hm : Move s i t) (ha : t.acqState = s.acqState) {f : Flag}
    (hf : s.flag f = true) : t.flag f = true := by
  cases hm with
  | toEmit h => simp [h] at ha
  | toWait h => simp [h] at ha
  | toListen h => simp [h] at ha
  | toIdle h => simp [h] at ha
  | start => exact (flag_setFlag s .emitStart f).trans (by simp [hf])
  | done c => simp [hf]
  | guardDone => simp [hf]
  | beat | lastBeat | trigger => exact (flag_setChan _ _ _ f).trans hf
  | _ => exact hf

/-! ### What every move leaves -/

theorem Move.cfg {s t : State} {i : Instr} (hm : Move s i t) : t.cfg = s.cfg := by cases hm <;> simp

theorem txs_of_stays {s t : State} (ha : t.acqState = s.acqState) (ht : t.txs = s.txs) :
    t.txs = s.txs ++ if s.acqState = .listen ∧ t.acqState = .idle then s.payload else [] := by
  have hn : ¬(s.acqState = .listen ∧ t.acqState = .idle) := by
    rw [ha]
    rintro ⟨h, h'⟩
    simp [h] at h'
  rw [if_neg hn, ht, List.append_nil]

/-- Only the way back to Idle sends (R220). -/
theorem Move.txs {s t : State} {i : Instr} (hm : Move s i t) :
    t.txs = s.txs ++ if s.acqState = .listen ∧ t.acqState = .idle then s.payload else [] := by
  cases hm with
  | toEmit | toWait | toListen | toIdle => simp [*]
  | beat | lastBeat | trigger => exact txs_of_stays (by simp) (by simp)
  | _ => exact txs_of_stays rfl rfl

/-! ### A move out of a state of the acquisition machine -/

/-- The state after a state (R216). -/
def nextAcq : AcqState → AcqState
  | .idle => .emit
  | .emit => .wait
  | .wait => .listen
  | .listen => .idle

/-- What the move out of a state is: an evaluation whose guard holds, and the next state's work is due in full. -/
structure Departure (s : State) (i : Instr) (t : State) : Prop where
  op : i = .asEval
  guard : s.guardHolds = true
  next : t.acqState = nextAcq s.acqState
  beats : ∀ c, beatsLeft t c = if busyState c = t.acqState then blockCount s.cfg c else 0
  ticks : ticksLeft t = if t.acqState = .wait then s.cfg.guardPeriod else 0

/-- A channel owes nothing outside its state. -/
theorem RowByUnit.beatsLeft_resting {s : State} (h : RowByUnit s) {c : Chan} (hc : busyState c ≠ s.acqState) : beatsLeft s c = 0 := by
  simp [beatsLeft, (h.resting c hc).suspended]

/-- The guard timer owes nothing outside Wait. -/
theorem RowByUnit.ticksLeft_stopped {s : State} (h : RowByUnit s) (hw : s.acqState ≠ .wait) : ticksLeft s = 0 := by
  simp [ticksLeft, (h.stopped hw).1]

/-- A channel just resumed owes its whole block. -/
theorem beatsLeft_resumed {s t : State} {c : Chan} (h : s.Proper) (hs : (s.chan c).state = .suspended)
    (ht : t.chan c = { s.chan c with state := .active }) : beatsLeft t c = blockCount s.cfg c := by
  simp [beatsLeft, ht, (h.chan c).suspended hs]

theorem Move.departs {s t : State} {i : Instr} (h : s.Proper) (hm : Move s i t) (ha : t.acqState ≠ s.acqState) :
    Departure s i t := by
  have row := (row_iff s).1 h.row
  have row' := hm.row row
  cases hm with
  | toEmit hi hf =>
    refine ⟨rfl, by simp [State.guardHolds, hi, hf], by rw [hi]; rfl, fun c => ?_, row'.ticksLeft_stopped nofun⟩
    split
    · rename_i hc
      cases c <;> cases hc
      exact beatsLeft_resumed h (row.resting .emit (by simp [hi])).suspended rfl
    · rename_i hc
      exact row'.beatsLeft_resting hc
  | toWait hi hf =>
    refine ⟨rfl, by simp [State.guardHolds, hi, hf], by rw [hi]; rfl, fun c => ?_, h.guardTimer.per⟩
    rw [if_neg (busyState_ne_wait c)]
    exact row'.beatsLeft_resting (busyState_ne_wait c)
  | toListen hi hf =>
    refine ⟨rfl, by simp [State.guardHolds, hi, hf], by rw [hi]; rfl, fun c => ?_, row'.ticksLeft_stopped nofun⟩
    split
    · rename_i hc
      have hs := (row.resting c (by simp [hi])).suspended
      cases c <;> cases hc
      · exact beatsLeft_resumed h hs rfl
      · exact beatsLeft_resumed h hs rfl
    · rename_i hc
      exact row'.beatsLeft_resting hc
  | toIdle hi h1 h2 =>
    refine ⟨rfl, by simp [State.guardHolds, hi, h1, h2], by rw [hi]; rfl, fun c => ?_, row'.ticksLeft_stopped nofun⟩
    rw [if_neg (busyState_ne_idle c)]
    exact row'.beatsLeft_resting (busyState_ne_idle c)
  | beat | lastBeat | trigger => simp at ha
  | _ => exact absurd rfl ha

/-- Where the guard holds the evaluation leaves the state (R216). -/
theorem Move.leaves {s t : State} (hm : Move s .asEval t) (hg : s.guardHolds = true) : t.acqState ≠ s.acqState := by
  cases hm with
  | stay _ hn => simp [hn] at hg
  | done c he => cases c <;> cases he
  | toEmit ha | toWait ha | toListen ha | toIdle ha => rw [ha]; nofun

/-- Where the guard of a state holds its work is done. -/
theorem work_done_of_guard {s : State} (h : s.Proper) (hg : s.guardHolds = true) : (∀ c, beatsLeft s c = 0) ∧ ticksLeft s = 0 := by
  have row := (row_iff s).1 h.row
  have busy : ∀ c, s.flag (doneFlag c) = true → beatsLeft s c = 0 := fun c hf => by
    simp [beatsLeft, (row.flagged hf).2.1]
  have rest : ∀ c, busyState c ≠ s.acqState → beatsLeft s c = 0 := fun c => row.beatsLeft_resting
  unfold State.guardHolds at hg
  cases ha : s.acqState <;> simp only [ha] at hg rest
  case idle => exact ⟨fun c => rest c (busyState_ne_idle c), row.ticksLeft_stopped (by simp [ha])⟩
  case emit => exact ⟨forall_chan.2 ⟨busy .emit hg, rest .cap0 nofun, rest .cap1 nofun⟩, row.ticksLeft_stopped (by simp [ha])⟩
  case wait => exact ⟨fun c => rest c (busyState_ne_wait c), by simp [ticksLeft, (row.waited hg).2.1]⟩
  case listen =>
    obtain ⟨h1, h2⟩ := Bool.and_eq_true_iff.1 hg
    exact ⟨forall_chan.2 ⟨rest .emit nofun, busy .cap0 h1, busy .cap1 h2⟩, row.ticksLeft_stopped (by simp [ha])⟩

end Sys2Proof.Proofs
end

section
/-! PROOF. Infinite runs from a proper state: how steps are counted, and that a fair run leaves every state of the acquisition machine in
which there is work (70_reset_and_hazards.md R318). -/

namespace Sys2Proof.Proofs

open Sys2Proof Sys2Proof.Machine

/-! ### Every place of a run -/

theorem run_proper {r : Run} (h0 : (r.state 0).Proper) (n : Nat) : (r.state n).Proper := by
  induction n with
  | zero => exact h0
  | succ n ih =>
    obtain ⟨t, ht, hp⟩ := proper_kept ih (r.enabled n)
    rw [r.next n] at ht
    cases ht
    exact hp

theorem run_row {r : Run} (h0 : (r.state 0).Proper) (n : Nat) : RowByUnit (r.state n) := (row_iff _).1 (run_proper h0 n).row

theorem run_move {r : Run} (h0 : (r.state 0).Proper) (n : Nat) : Move (r.state n) (r.op n) (r.state (n + 1)) := by
  obtain ⟨t, ht, hm⟩ := exec_move (run_proper h0 n) (r.enabled n)
  rw [r.next n] at ht
  cases ht
  exact hm

theorem run_cfg {r : Run} (h0 : (r.state 0).Proper) {n k : Nat} (hk : n ≤ k) : (r.state k).cfg = (r.state n).cfg := by
  induction k, hk using Nat.le_induction with
  | base => rfl
  | succ k _ ih => exact (run_move h0 k).cfg.trans ih

/-! ### Counting steps -/

theorem count_self (r : Run) (kind : Instr → Bool) (m : Nat) : r.count kind m m = 0 := by simp [Run.count]

theorem count_split (r : Run) (kind : Instr → Bool) {m k n : Nat} (h1 : m ≤ k) (h2 : k ≤ n) :
    r.count kind m n = r.count kind m k + r.count kind k n := by
  have h := List.range'_append (s := m) (m := k - m) (n := n - k) (step := 1)
  rw [show m + 1 * (k - m) = k by omega, show k - m + (n - k) = n - m by omega] at h
  rw [Run.count, ← h, List.countP_append]
  rfl

theorem count_one (r : Run) (kind : Instr → Bool) (m : Nat) :
    r.count kind m (m + 1) = if kind (r.op m) then 1 else 0 := by
  simp [Run.count, List.countP_cons]

/-- Steps of a kind are counted by what they take off. -/
theorem count_add {r : Run} {kind : Instr → Bool} {left : State → Nat} {m n : Nat} (hmn : m ≤ n)
    (h : ∀ k, m ≤ k → k < n → left (r.state k) = left (r.state (k + 1)) + if kind (r.op k) then 1 else 0) :
    r.count kind m n + left (r.state n) = left (r.state m) := by
  induction n, hmn using Nat.le_induction with
  | base => rw [count_self, Nat.zero_add]
  | succ n hmn ih =>
    have hn := h n hmn n.lt_succ_self
    have hih := ih fun k h1 h2 => h k h1 (Nat.lt_succ_of_lt h2)
    rw [count_split r kind hmn n.le_succ, count_one]
    omega

/-! ### A run that stays in one state of the acquisition machine -/

/-- From place `n` on the run never leaves the state of the acquisition machine it is in. -/
def Stays (r : Run) (n : Nat) : Prop := ∀ k, n ≤ k → (r.state (k + 1)).acqState = (r.state k).acqState

theorem Stays.mono {r : Run} {n k : Nat} (h : Stays r n) (hk : n ≤ k) : Stays r k := fun j hj => h j (hk.trans hj)

theorem Stays.acqState {r : Run} {n k : Nat} (h : Stays r n) (hk : n ≤ k) : (r.state k).acqState = (r.state n).acqState := by
  induction k, hk using Nat.le_induction with
  | base => rfl
  | succ k hk ih => exact (h k hk).trans ih

theorem Stays.flag {r : Run} (h0 : (r.state 0).Proper) {n k : Nat} (h : Stays r n) (hk : n ≤ k) {f : Flag}
    (hf : (r.state n).flag f = true) : (r.state k).flag f = true := by
  induction k, hk using Nat.le_induction with
  | base => exact hf
  | succ k hk ih => exact (run_move h0 k).flag (h k hk) ih

/-- Everything that is still owed. -/
def workLeft (s : State) : Nat := beatsLeft s .emit + beatsLeft s .cap0 + beatsLeft s .cap1 + ticksLeft s

/-- The steps that pay it. -/
def isWork (i : Instr) : Bool := isBeat .emit i || isBeat .cap0 i || isBeat .cap1 i || decide (i = .gtTick)

theorem isWork_of_isBeat {c : Chan} {i : Instr} (h : isBeat c i = true) : isWork i = true := by
  cases c <;> simp [isWork, h]

/-- A move inside a state takes nothing from the work or, if it is a step of work, something. -/
theorem Move.work {s t : State} {i : Instr} (hm : Move s i t) (ha : t.acqState = s.acqState) :
    workLeft t ≤ workLeft s ∧ (isWork i = true → workLeft t < workLeft s) := by
  have h0 := hm.beats ha .emit
  have h1 := hm.beats ha .cap0
  have h2 := hm.beats ha .cap1
  have h3 := hm.ticks ha
  unfold workLeft
  refine ⟨by omega, fun hw => ?_⟩
  simp only [isWork, Bool.or_eq_true, decide_eq_true_eq] at hw
  obtain ((hw | hw) | hw) | hw := hw <;> simp only [hw, if_true] at h0 h1 h2 h3 <;> omega

/-- A move that is no work leaves what each unit owes. -/
theorem Move.idle_work {s t : State} {i : Instr} (hm : Move s i t) (ha : t.acqState = s.acqState) (hi : isWork i = false) :
    (∀ c, beatsLeft t c = beatsLeft s c) ∧ ticksLeft t = ticksLeft s := by
  have hb : ∀ c, isBeat c i = false := fun c => by
    by_contra h
    simp [isWork_of_isBeat (Bool.not_eq_false _ ▸ h)] at hi
  have ht : i ≠ .gtTick := by rintro rfl; simp [isWork] at hi
  refine ⟨fun c => ?_, ?_⟩
  · have := hm.beats ha c
    simpa [hb c] using this.symm
  · have := hm.ticks ha
    simpa [ht] using this.symm

/-- A trigger of an ACTIVE channel is latched (R159). -/
theorem Move.triggered {s t : State} {c : Chan} (hm : Move s (.envTrigger c) t) (ha : (s.chan c).state = .active) :
    (t.chan c).state = .active ∧ (t.chan c).trig = true := by
  cases hm with
  | trigger => simp [ha]
  | triggerLost _ hn =>
    refine ⟨ha, ?_⟩
    by_contra hf
    exact hn ⟨ha, by simpa using hf⟩
  | done d he => cases d <;> cases he

theorem beatsLeft_pos {s : State} {c : Chan} (h : s.Proper) : 0 < beatsLeft s c ↔ (s.chan c).state = .active := by
  have := (h.chan c).count.1
  unfold beatsLeft
  split
  · rename_i ha
    exact ⟨fun _ => ha, fun _ => by omega⟩
  · rename_i ha
    exact ⟨fun hz => absurd hz (by omega), fun hs => absurd hs ha⟩

theorem Stays.work_antitone {r : Run} (h0 : (r.state 0).Proper) {n k : Nat} (h : Stays r n) (hk : n ≤ k) :
    workLeft (r.state k) ≤ workLeft (r.state n) := by
  induction k, hk using Nat.le_induction with
  | base => exact le_rfl
  | succ k hk ih => exact ((run_move h0 k).work (h k hk)).1.trans ih

/-- While there is work in a state that a fair run never leaves, a step of work is taken. -/
theorem exists_work {r : Run} (h0 : (r.state 0).Proper) (hr : r.Fair) {n : Nat} (h : Stays r n) (hw : 0 < workLeft (r.state n)) :
    ∃ m, n ≤ m ∧ isWork (r.op m) = true := by
  by_contra hno
  have idle : ∀ m, n ≤ m → isWork (r.op m) = false := fun m hm => by
    by_contra hm'
    exact hno ⟨m, hm, by simpa using hm'⟩
  have same : ∀ m, n ≤ m → (∀ c, beatsLeft (r.state m) c = beatsLeft (r.state n) c) ∧
      ticksLeft (r.state m) = ticksLeft (r.state n) := by
    intro m hm
    induction m, hm using Nat.le_induction with
    | base => exact ⟨fun _ => rfl, rfl⟩
    | succ m hm ih =>
      obtain ⟨hb, ht⟩ := (run_move h0 m).idle_work (h m hm) (idle m hm)
      exact ⟨fun c => (hb c).trans (ih.1 c), ht.trans ih.2⟩
  have nobeats : ∀ c, beatsLeft (r.state n) c = 0 := by
    intro c
    by_contra hc
    have active : ∀ m, n ≤ m → ((r.state m).chan c).state = .active := fun m hm =>
      (beatsLeft_pos (run_proper h0 m)).1 (by rw [(same m hm).1 c]; omega)
    obtain ⟨m, hm, ht⟩ : ∃ m, n ≤ m ∧ ((r.state m).chan c).trig = true := by
      obtain ⟨m, hm, hop | hn⟩ := hr.trig c n
      · exact ⟨m + 1, by omega, ((hop ▸ run_move h0 m).triggered (active m hm)).2⟩
      · exact ⟨m, hm, by simpa [active m hm] using hn⟩
    have hcand : (r.state m).candidate c = true := by simp [State.candidate, State.chState, active m hm, ht]
    obtain ⟨d, hd⟩ : ∃ d, (r.state m).grant = some d := by
      cases hg : (r.state m).grant with
      | none => simp [State.grant_none hg c] at hcand
      | some d => exact ⟨d, rfl⟩
    obtain ⟨k, hk, hb⟩ := hr.beat m d hd
    exact hno ⟨k, hm.trans hk, isWork_of_isBeat hb⟩
  have noticks : ticksLeft (r.state n) = 0 := by
    obtain ⟨m, hm, hop | hn⟩ := hr.guard n
    · have := idle m hm
      simp [hop, isWork] at this
    · rw [← (same m hm).2]
      simp [ticksLeft, hn]
  simp [workLeft, nobeats, noticks] at hw

/-- In a state that a fair run never leaves the work comes to its end. -/
theorem exists_work_done {r : Run} (h0 : (r.state 0).Proper) (hr : r.Fair) {n : Nat} (h : Stays r n) :
    ∃ m, n ≤ m ∧ workLeft (r.state m) = 0 := by
  induction hk : workLeft (r.state n) using Nat.strong_induction_on generalizing n with
  | _ w ih =>
    rcases Nat.eq_zero_or_pos w with hz | hpos
    · exact ⟨n, le_rfl, hk.trans hz⟩
    · obtain ⟨m, hm, hop⟩ := exists_work h0 hr h (hk ▸ hpos)
      have hle := h.work_antitone h0 hm
      have hlt := ((run_move h0 m).work (h m hm)).2 hop
      obtain ⟨k, hmk, hdone⟩ := ih _ (by omega) (h.mono (show n ≤ m + 1 by omega)) rfl
      exact ⟨k, by omega, hdone⟩

/-! ### The flag that ends a state -/

theorem doneHandler_inj {c d : Chan} (h : doneHandler c = doneHandler d) : c = d := by
  revert h
  cases c <;> cases d <;> decide

/-- A handler's step sets its flag (R263). -/
theorem Move.handled {s t : State} {c : Chan} (hm : Move s (doneHandler c) t) : t.flag (doneFlag c) = true := by
  generalize hi : doneHandler c = i at hm
  cases hm with
  | done d hd =>
    obtain rfl : c = d := doneHandler_inj (hi.trans hd)
    simp
  | _ => cases c <;> cases hi

theorem Move.guardHandled {s t : State} (hm : Move s .hGuardOvf t) : t.flag .waitStop = true := by
  cases hm with
  | guardDone => simp
  | done c he => cases c <;> cases he

/-- The handler of a pending line is enabled after boot (R50). -/
theorem enabled_doneHandler {s : State} (h : s.Proper) {c : Chan} (hp : s.pending (completionEvent c) = true) :
    s.enabled (doneHandler c) = true := by
  have he : s.mayHandle (completionEvent c) = true := by simp [State.mayHandle, h.booted, hp]
  cases c <;> exact he

/-- In a state that a fair run never leaves every channel at work there sets its flag. -/
theorem exists_doneFlag {r : Run} (h0 : (r.state 0).Proper) (hr : r.Fair) {n : Nat} (h : Stays r n) {c : Chan}
    (hc : busyState c = (r.state n).acqState) : ∃ m, n ≤ m ∧ (r.state m).flag (doneFlag c) = true := by
  obtain ⟨m, hm, hw⟩ := exists_work_done h0 hr h
  have hleft : beatsLeft (r.state m) c = 0 := by cases c <;> simp only [workLeft] at hw <;> omega
  have hb := (run_row h0 m).busy c (by rw [hc, h.acqState hm])
  have hna : ((r.state m).chan c).state ≠ .active := fun ha => by
    have := (beatsLeft_pos (run_proper h0 m)).2 ha
    omega
  obtain ⟨ha, -, -⟩ | ⟨-, hp⟩ := hb
  · exact absurd ha hna
  · cases hf : (r.state m).flag (doneFlag c) with
    | true => exact ⟨m, hm, hf⟩
    | false =>
      have he := enabled_doneHandler (run_proper h0 m) (hp.trans (by simp [hf]))
      obtain ⟨k, hk, hop⟩ := hr.handler m (doneHandler c) (by cases c <;> rfl) he
      exact ⟨k + 1, by omega, (hop ▸ run_move h0 k).handled⟩

/-- In Wait, if a fair run never leaves it, the guard timer sets its flag. -/
theorem exists_waitStop {r : Run} (h0 : (r.state 0).Proper) (hr : r.Fair) {n : Nat} (h : Stays r n)
    (hc : (r.state n).acqState = .wait) : ∃ m, n ≤ m ∧ (r.state m).flag .waitStop = true := by
  obtain ⟨m, hm, hw⟩ := exists_work_done h0 hr h
  have hset := (run_proper h0 m).guardTimer.running
  have hnr : (r.state m).gt.run ≠ true := fun hrun => by
    have := (hset hrun).1
    simp only [workLeft, ticksLeft, hrun, if_true] at hw
    omega
  obtain ⟨hrun, -, -⟩ | ⟨-, hp⟩ := (run_row h0 m).counting ((h.acqState hm).trans hc)
  · exact absurd hrun hnr
  · cases hf : (r.state m).flag .waitStop with
    | true => exact ⟨m, hm, hf⟩
    | false =>
      have he : (r.state m).enabled .hGuardOvf = true := by
        simp [State.enabled, State.mayHandle, (run_proper h0 m).booted, hp, hf]
      obtain ⟨k, hk, hop⟩ := hr.handler m .hGuardOvf rfl he
      exact ⟨k + 1, by omega, (hop ▸ run_move h0 k).guardHandled⟩

theorem Stays.guardHolds {r : Run} (h0 : (r.state 0).Proper) {n k : Nat} (h : Stays r n) (hk : n ≤ k)
    (hg : (r.state n).guardHolds = true) : (r.state k).guardHolds = true := by
  have keep : ∀ f, (r.state n).flag f = true → (r.state k).flag f = true := fun f => h.flag h0 hk
  have ha := h.acqState hk
  unfold State.guardHolds at hg ⊢
  rw [ha]
  cases he : (r.state n).acqState <;> simp only [he] at hg ⊢
  case idle | emit | wait => exact keep _ hg
  case listen =>
    obtain ⟨h1, h2⟩ := Bool.and_eq_true_iff.1 hg
    simp [keep _ h1, keep _ h2]

/-- Outside Idle the guard of a state that a fair run never leaves comes to hold. -/
theorem exists_guardHolds {r : Run} (h0 : (r.state 0).Proper) (hr : r.Fair) {n : Nat} (h : Stays r n)
    (hi : (r.state n).acqState ≠ .idle) : ∃ m, n ≤ m ∧ (r.state m).guardHolds = true := by
  cases ha : (r.state n).acqState with
  | idle => exact absurd ha hi
  | emit =>
    obtain ⟨m, hm, hf⟩ := exists_doneFlag h0 hr h (c := .emit) ha.symm
    exact ⟨m, hm, by simpa [State.guardHolds, h.acqState hm, ha, doneFlag] using hf⟩
  | wait =>
    obtain ⟨m, hm, hf⟩ := exists_waitStop h0 hr h ha
    exact ⟨m, hm, by simpa [State.guardHolds, h.acqState hm, ha] using hf⟩
  | listen =>
    obtain ⟨m, hm, hf⟩ := exists_doneFlag h0 hr h (c := .cap0) ha.symm
    obtain ⟨k, hk, hf'⟩ := exists_doneFlag h0 hr (h.mono hm) (c := .cap1) ((h.acqState hm).trans ha).symm
    refine ⟨k, hm.trans hk, ?_⟩
    have hf0 := (h.mono hm).flag h0 hk hf
    simp only [State.guardHolds, h.acqState (hm.trans hk), ha]
    exact Bool.and_eq_true_iff.2 ⟨hf0, hf'⟩

/-- A fair run never stays in a state whose guard holds: the main loop evaluates it (R318, FAIR_LOOP). -/
theorem not_stays_of_guard {r : Run} (h0 : (r.state 0).Proper) (hr : r.Fair) {n : Nat}
    (hg : (r.state n).guardHolds = true) : ¬Stays r n := by
  intro h
  obtain ⟨-, m, hm, hop⟩ := hr.loop n
  exact (hop ▸ run_move h0 m).leaves (h.guardHolds h0 hm hg) (h m hm)

/-- A fair run stays for ever in no state but Idle without a job. -/
theorem not_stays {r : Run} (h0 : (r.state 0).Proper) (hr : r.Fair) {n : Nat}
    (hn : (r.state n).acqState ≠ .idle ∨ (r.state n).guardHolds = true) : ¬Stays r n := by
  intro h
  obtain hi | hg := hn
  · obtain ⟨m, hm, hg⟩ := exists_guardHolds h0 hr h hi
    exact not_stays_of_guard h0 hr hg (h.mono hm)
  · exact not_stays_of_guard h0 hr hg h

end Sys2Proof.Proofs
end

section
/-! PROOF. A job of a fair run, state by state (70_reset_and_hazards.md R318, R319). -/

namespace Sys2Proof.Proofs

open Sys2Proof Sys2Proof.Machine

/-! ### One state of the acquisition machine, from its first place to its last -/

/-- From place `m` to place `k` the run is in state `x`, and the step at `k` leaves it. -/
structure Stage (r : Run) (x : AcqState) (m k : Nat) : Prop where
  le : m ≤ k
  stays : ∀ j, m ≤ j → j ≤ k → (r.state j).acqState = x
  leaves : (r.state (k + 1)).acqState ≠ x

/-- A state in which a fair run has work ends. -/
theorem exists_stage {r : Run} (h0 : (r.state 0).Proper) (hr : r.Fair) {x : AcqState} {m : Nat} (hm : (r.state m).acqState = x)
    (hx : x ≠ .idle ∨ (r.state m).guardHolds = true) : ∃ k, Stage r x m k := by
  classical
  have hleave : ∃ k, m ≤ k ∧ (r.state (k + 1)).acqState ≠ (r.state k).acqState := by
    by_contra hno
    refine not_stays h0 hr (n := m) (hm ▸ hx) fun k hk => ?_
    by_contra hk'
    exact hno ⟨k, hk, hk'⟩
  have hfirst : ∀ j, m ≤ j → j ≤ Nat.find hleave → (r.state j).acqState = x := by
    intro j hj
    induction j, hj using Nat.le_induction with
    | base => exact fun _ => hm
    | succ j hj ih =>
      intro hle
      have hmin := Nat.find_min hleave (m := j) (by omega)
      have hstay : (r.state (j + 1)).acqState = (r.state j).acqState := by
        by_contra hne
        exact hmin ⟨hj, hne⟩
      exact hstay.trans (ih (by omega))
  obtain ⟨hmk, hne⟩ := Nat.find_spec hleave
  exact ⟨_, hmk, hfirst, hfirst _ hmk le_rfl ▸ hne⟩

theorem Stage.departure {r : Run} (h0 : (r.state 0).Proper) {x : AcqState} {m k : Nat} (h : Stage r x m k) :
    Departure (r.state k) (r.op k) (r.state (k + 1)) :=
  (run_move h0 k).departs (run_proper h0 k) (h.stays k h.le le_rfl ▸ h.leaves)

/-- The state that follows. -/
theorem Stage.next {r : Run} (h0 : (r.state 0).Proper) {x : AcqState} {m k : Nat} (h : Stage r x m k) :
    (r.state (k + 1)).acqState = nextAcq x :=
  (h.departure h0).next.trans (congrArg nextAcq (h.stays k h.le le_rfl))

/-! ### Steps of a kind and what they take off -/

/-- `left` is what is owed in steps of a kind: a step of the kind takes one off, no other step changes it inside a state, and where a state's
guard holds nothing is owed. On entry of a state `due` is owed, and in Idle nothing. No half of the main loop is of the kind. -/
structure Measures (kind : Instr → Bool) (left : State → Nat) (due : Params → AcqState → Nat) : Prop where
  step : ∀ {s t : State} {i : Instr}, Move s i t → t.acqState = s.acqState → left s = left t + if kind i then 1 else 0
  done : ∀ {s : State}, s.Proper → s.guardHolds = true → left s = 0
  enter : ∀ {s t : State} {i : Instr}, Departure s i t → left t = due s.cfg t.acqState
  idle : ∀ {s : State}, s.Proper → s.acqState = .idle → left s = 0
  poll : kind .hlPoll = false
  eval : kind .asEval = false

/-- The beats due on entry of a state (R163). -/
def dueBeats (c : Chan) (p : Params) (x : AcqState) : Nat := if busyState c = x then blockCount p c else 0

/-- The guard ticks due on entry of a state (R202). -/
def dueTicks (p : Params) (x : AcqState) : Nat := if x = .wait then p.guardPeriod else 0

theorem measures_beats (c : Chan) : Measures (isBeat c) (beatsLeft · c) (dueBeats c) where
  step hm ha := hm.beats ha c
  done h hg := (work_done_of_guard h hg).1 c
  enter hd := hd.beats c
  idle h ha := ((row_iff _).1 h.row).beatsLeft_resting (ha ▸ busyState_ne_idle c)
  poll := rfl
  eval := rfl

theorem measures_ticks : Measures (fun i => i = .gtTick) ticksLeft dueTicks where
  step hm ha := by simpa using hm.ticks ha
  done h hg := (work_done_of_guard h hg).2
  enter hd := hd.ticks
  idle h ha := ((row_iff _).1 h.row).ticksLeft_stopped (by rw [ha]; nofun)
  poll := rfl
  eval := rfl

/-- From the step before a state to the step that leaves it, the steps of a kind are what was owed on entry. -/
theorem Stage.count {r : Run} (h0 : (r.state 0).Proper) {kind : Instr → Bool} {left : State → Nat}
    {due : Params → AcqState → Nat} (hk : Measures kind left due) {x : AcqState} {p k : Nat} (h : Stage r x (p + 1) k)
    (hp : kind (r.op p) = false) :
    r.count kind p k = left (r.state (p + 1)) := by
  have hle := h.le
  have hsum := count_add (r := r) (kind := kind) (left := left) hle fun j h1 h2 =>
    hk.step (run_move h0 j) ((h.stays (j + 1) (by omega) (by omega)).trans (h.stays j h1 (by omega)).symm)
  have hend := hk.done (run_proper h0 k) (h.departure h0).guard
  rw [count_split r kind (show p ≤ p + 1 by omega) hle, count_one, hp]
  simp only [Bool.false_eq_true, if_false]
  omega

/-! ### A whole job -/

/-- The four states of the job accepted at place `n`. -/
structure Job (r : Run) (n a b c d : Nat) : Prop where
  poll : r.op n = .hlPoll
  start : (r.state n).acqState = .idle
  idle : Stage r .idle (n + 1) a
  emit : Stage r .emit (a + 1) b
  wait : Stage r .wait (b + 1) c
  listen : Stage r .listen (c + 1) d

/-- A poll that finds byte 0x10 in Idle sets EMIT_START (R242). -/
theorem Move.accepted {s t : State} (hm : Move s .hlPoll t) (ha : s.acqState = .idle) (hq : s.rxq.head? = some 0x10) :
    t.acqState = .idle ∧ t.guardHolds = true := by
  cases hm with
  | poll q a _ hn => exact absurd hq (hn ha)
  | start =>
    have hf : (s.setFlag .emitStart).flag .emitStart = true := by simp
    refine ⟨ha, ?_⟩
    simp only [State.guardHolds, State.setFlag_acqState, ha]
    exact hf
  | done c he => cases c <;> cases he

/-- An accepted start-job of a fair run goes through the four states. -/
theorem exists_job {r : Run} (h0 : (r.state 0).Proper) (hr : r.Fair) {n : Nat} (h : r.Accepts n) :
    ∃ a b c d, Job r n a b c d := by
  obtain ⟨hop, hi, hq⟩ := h
  obtain ⟨hi', hg⟩ := (hop ▸ run_move h0 n).accepted hi hq
  obtain ⟨a, ha⟩ := exists_stage h0 hr hi' (.inr hg)
  obtain ⟨b, hb⟩ := exists_stage h0 hr (ha.next h0) (.inl nofun)
  obtain ⟨c, hc⟩ := exists_stage h0 hr (hb.next h0) (.inl nofun)
  obtain ⟨d, hd⟩ := exists_stage h0 hr (hc.next h0) (.inl nofun)
  exact ⟨a, b, c, d, hop, hi, ha, hb, hc, hd⟩

section

variable {r : Run} {n a b c d : Nat}

/-- The places of the four transitions rise. -/
theorem Job.order (h : Job r n a b c d) : n < a ∧ a < b ∧ b < c ∧ c < d :=
  ⟨h.idle.le, h.emit.le, h.wait.le, h.listen.le⟩

/-- Idle from the acceptance on. -/
theorem Job.idle_from (h : Job r n a b c d) {k : Nat} (h1 : n ≤ k) (h2 : k ≤ a) : (r.state k).acqState = .idle := by
  rcases Nat.eq_or_lt_of_le h1 with rfl | hlt
  · exact h.start
  · exact h.idle.stays k hlt h2

/-- How many steps of a kind each of the four states of a job takes: what is due on its entry. -/
theorem Job.counts (h0 : (r.state 0).Proper) (h : Job r n a b c d) {kind : Instr → Bool} {left : State → Nat}
    {due : Params → AcqState → Nat} (hk : Measures kind left due) :
    r.count kind n a = 0 ∧ r.count kind a b = due (r.state n).cfg .emit ∧ r.count kind b c = due (r.state n).cfg .wait ∧
      r.count kind c d = due (r.state n).cfg .listen ∧
      r.count kind n (d + 1) = r.count kind n a + r.count kind a b + r.count kind b c + r.count kind c d := by
  obtain ⟨hna, hab, hbc, hcd⟩ := h.order
  have eval : ∀ {x m k}, Stage r x m k → kind (r.op k) = false := fun hs => (hs.departure h0).op ▸ hk.eval
  have entered : ∀ {x m k}, Stage r x m k → n ≤ k → left (r.state (k + 1)) = due (r.state n).cfg (nextAcq x) := fun hs hle => by
    rw [hk.enter (hs.departure h0), hs.next h0, run_cfg h0 hle]
  refine ⟨?_, ?_, ?_, ?_, ?_⟩
  · rw [h.idle.count h0 hk (h.poll ▸ hk.poll)]
    exact hk.idle (run_proper h0 _) (h.idle_from n.le_succ hna)
  · rw [h.emit.count h0 hk (eval h.idle), entered h.idle (by omega)]
    rfl
  · rw [h.wait.count h0 hk (eval h.emit), entered h.emit (by omega)]
    rfl
  · rw [h.listen.count h0 hk (eval h.wait), entered h.wait (by omega)]
    rfl
  · rw [count_split r kind (show n ≤ a by omega) (show a ≤ d + 1 by omega),
      count_split r kind hab.le (show b ≤ d + 1 by omega), count_split r kind hbc.le (show c ≤ d + 1 by omega),
      count_split r kind hcd.le d.le_succ, count_one, eval h.listen]
    simp only [Bool.false_eq_true, if_false]
    omega

/-- All beats of channel 0 lie in Emit, N_CHIRP of them. -/
theorem Job.emission (h0 : (r.state 0).Proper) (h : Job r n a b c d) :
    r.AllWithin (isBeat .emit) (r.state n).cfg.nChirp n a b (d + 1) := by
  obtain ⟨hi, he, hw, hl, htotal⟩ := h.counts h0 (measures_beats .emit)
  simp only [dueBeats, busyState, blockCount, if_true, reduceCtorEq, if_false] at he hw hl
  exact ⟨by omega, he⟩

/-- All guard ticks lie in Wait, GUARD_PERIOD of them. -/
theorem Job.guard (h0 : (r.state 0).Proper) (h : Job r n a b c d) :
    r.AllWithin (fun i => i = .gtTick) (r.state n).cfg.guardPeriod n b c (d + 1) := by
  obtain ⟨hi, he, hw, hl, htotal⟩ := h.counts h0 measures_ticks
  simp only [dueTicks, if_true, reduceCtorEq, if_false] at he hw hl
  exact ⟨by omega, hw⟩

/-- All beats of a capture channel lie in Listen, N_CAP of them. -/
theorem Job.capture (h0 : (r.state 0).Proper) (h : Job r n a b c d) {x : Chan} (hx : x ≠ .emit) :
    r.AllWithin (isBeat x) (r.state n).cfg.nCap n c d (d + 1) := by
  obtain ⟨hi, he, hw, hl, htotal⟩ := h.counts h0 (measures_beats x)
  obtain ⟨hbusy, hblock⟩ : busyState x = .listen ∧ blockCount (r.state n).cfg x = (r.state n).cfg.nCap := by
    cases x with
    | emit => exact absurd rfl hx
    | cap0 | cap1 => exact ⟨rfl, rfl⟩
  simp only [dueBeats, hbusy, hblock, if_true, reduceCtorEq, if_false] at he hw hl
  exact ⟨by omega, hl⟩

/-- Between the acceptance and the last transition no step is the one back to Idle. -/
theorem Job.not_back (h : Job r n a b c d) {k : Nat} (h1 : n ≤ k) (h2 : k + 1 ≤ d) :
    ¬((r.state k).acqState = .listen ∧ (r.state (k + 1)).acqState = .idle) := by
  rintro ⟨hl, hi⟩
  have hka : k + 1 ≤ a := by
    by_contra hka
    rcases Nat.lt_or_ge b (k + 1) with hb | hb
    · rcases Nat.lt_or_ge c (k + 1) with hc | hc
      · rw [h.listen.stays (k + 1) hc h2] at hi; cases hi
      · rw [h.wait.stays (k + 1) hb hc] at hi; cases hi
    · rw [h.emit.stays (k + 1) (by omega) hb] at hi; cases hi
  rw [h.idle_from h1 (by omega)] at hl
  cases hl

/-- Nothing is sent before the last transition. -/
theorem Job.silent (h0 : (r.state 0).Proper) (h : Job r n a b c d) {k : Nat} (h1 : n ≤ k) (h2 : k ≤ d) :
    (r.state k).txs = (r.state n).txs := by
  induction k, h1 using Nat.le_induction with
  | base => rfl
  | succ k hk ih =>
    rw [(run_move h0 k).txs, if_neg (h.not_back hk h2), List.append_nil]
    exact ih (by omega)

/-- The last transition sends the payload (R247). -/
theorem Job.sends (h0 : (r.state 0).Proper) (h : Job r n a b c d) :
    (r.state (d + 1)).txs = (r.state n).txs ++ (r.state d).payload := by
  obtain ⟨hna, hab, hbc, hcd⟩ := h.order
  rw [(run_move h0 d).txs, if_pos ⟨h.listen.stays d h.listen.le le_rfl, h.listen.next h0⟩, h.silent h0 (by omega) le_rfl]

theorem Job.completes (h0 : (r.state 0).Proper) (h : Job r n a b c d) : r.CompletesJob n := by
  obtain ⟨hna, hab, hbc, hcd⟩ := h.order
  refine ⟨a, b, c, d, hna, hab, hbc, hcd, fun k => h.idle_from, h.emit.stays, h.wait.stays, h.listen.stays, h.listen.next h0,
    h.emission h0, h.guard h0, h.capture h0 nofun, h.capture h0 nofun, fun k => h.silent h0, (r.state d).payload,
    h.sends h0, ?_⟩
  rw [State.payload_length, run_cfg h0 (show n ≤ d by omega)]

end

/-- Settles O60: a fair run leaves each of the four states of an accepted job, since what is owed in it comes to its end and its flag to be set;
and what is owed on entry counts the steps in between. -/
theorem jobProgress : Obligations.JobProgress := by
  intro r h0 hr n hn
  obtain ⟨a, b, c, d, h⟩ := exists_job h0 hr hn
  exact h.completes h0

end Sys2Proof.Proofs
end

section
/-! PROOF. What one operation does to the parameters, ACQ_STATE, FLAGS and TXS, said once for every operation and every state
(10_state.md R21, R23, R35, R43). -/

namespace Sys2Proof.Proofs

open Sys2Proof Sys2Proof.Machine

/-- The part of a state that no control operation, timer, channel or environment step writes. -/
structure Control where
  cfg : Params
  acqState : AcqState
  flags : BitVec 5
  txs : List Byte

/-- The control part of a state. -/
def control (s : State) : Control := ⟨s.cfg, s.acqState, s.flags, s.txs⟩

@[simp] theorem control_flags (s : State) : (control s).flags = s.flags := rfl

@[simp] theorem control_txs (s : State) : (control s).txs = s.txs := rfl

theorem control_eq_iff {s t : State} :
    control t = control s ↔ t.cfg = s.cfg ∧ t.acqState = s.acqState ∧ t.flags = s.flags ∧ t.txs = s.txs := by
  simp [control]

@[simp] theorem control_setChan (s : State) (c : Chan) (r : ChanRegs) : control (s.setChan c r) = control s := by
  simp [control]

@[simp] theorem control_signal (s : State) (e : Event) : control (s.signal e) = control s := rfl

@[simp] theorem control_teResume (s : State) (c : Chan) : control (s.teResume c) = control s := by simp [control]

@[simp] theorem control_teSuspend (s : State) (c : Chan) : control (s.teSuspend c) = control s := by simp [control]

@[simp] theorem control_teDisable (s : State) (c : Chan) : control (s.teDisable c) = control s := by simp [control]

/-! ### Operations that keep the control part -/

/-- Where the operation answers a state, that state has the control part of `s`. -/
structure Keeps (s : State) (x : Except Refusal State) : Prop where
  control_eq : ∀ t, x = .ok t → control t = control s

theorem keeps_error (s : State) (e : Refusal) : Keeps s (.error e) := ⟨fun _ h => by cases h⟩

theorem keeps_ok {s u : State} (h : control u = control s) : Keeps s (.ok u) := ⟨fun _ ht => by cases ht; exact h⟩

/-- Operations in sequence, each keeping the control part. -/
theorem keeps_bind {s : State} {x : Except Refusal State} {f : State → Except Refusal State} (hx : Keeps s x)
    (hf : ∀ u, Keeps u (f u)) : Keeps s (x >>= f) := by
  cases x with
  | error e => exact keeps_error s e
  | ok u => exact ⟨fun t ht => ((hf u).control_eq t ht).trans (hx.control_eq u rfl)⟩

theorem Keeps.of_answer {s t : State} {x : Except Refusal State} (hx : Keeps s x) (h : answer x = .next t) :
    control t = control s := hx.control_eq t (answer_eq_next.1 h)

theorem keeps_memWrite (who : Master) (a : Word) (n : Size) (v : Word) (s : State) : Keeps s (memWrite who a n v s) := by
  refine ⟨fun t h => ?_⟩
  rw [memWrite_frame h]
  rfl

theorem keeps_placeDescriptor (s : State) (c : Chan) (d : Descriptor) : Keeps s (s.placeDescriptor c d) :=
  keeps_bind (keeps_memWrite ..) fun _ => keeps_bind (keeps_memWrite ..) fun _ =>
    keeps_bind (keeps_memWrite ..) fun _ => keeps_memWrite ..

theorem keeps_generateChirp (s : State) : Keeps s s.generateChirp := by
  unfold State.generateChirp
  split
  · exact keeps_error _ _
  · split
    · exact keeps_error _ _
    · exact keeps_ok rfl

theorem keeps_teConfigure (s : State) (c : Chan) (p t b : BitVec 2) : Keeps s (s.teConfigure c p t b) := by
  unfold State.teConfigure
  split
  · exact keeps_error _ _
  · split
    · exact keeps_error _ _
    · exact keeps_ok (by simp)

theorem keeps_teArm (s : State) (c : Chan) (a : Word) : Keeps s (s.teArm c a) := by
  unfold State.teArm
  split
  · exact keeps_error _ _
  · split
    · exact keeps_error _ _
    · exact keeps_ok (by simp)

theorem keeps_teEnable (s : State) (c : Chan) : Keeps s (s.teEnable c) := by
  unfold State.teEnable
  split
  · exact keeps_ok rfl
  · split
    · exact keeps_ok rfl
    · split
      · exact keeps_error _ _
      · exact keeps_ok rfl
      · exact keeps_ok (by simp)

theorem keeps_ctConfigure (s : State) (p d i : Half) : Keeps s (s.ctConfigure p d i) := by
  unfold State.ctConfigure
  split
  · exact keeps_error _ _
  · split
    · exact keeps_error _ _
    · exact keeps_ok rfl

theorem keeps_ctEnable (s : State) : Keeps s s.ctEnable := by
  unfold State.ctEnable
  split
  · exact keeps_error _ _
  · exact keeps_ok rfl

theorem keeps_gtConfigure (s : State) (p c : Word) : Keeps s (s.gtConfigure p c) := by
  unfold State.gtConfigure
  split
  · exact keeps_error _ _
  · split
    · exact keeps_error _ _
    · exact keeps_ok rfl

theorem keeps_gtRetrigger (s : State) : Keeps s s.gtRetrigger := by
  unfold State.gtRetrigger
  split
  · exact keeps_error _ _
  · exact keeps_ok rfl

theorem keeps_bootChannel (s : State) (c : Chan) : Keeps s (s.bootChannel c) :=
  keeps_bind (keeps_teConfigure ..) fun _ => keeps_bind (keeps_teArm ..) fun _ =>
    keeps_bind (keeps_teEnable ..) fun _ => keeps_ok (by simp)

theorem keeps_bootUnits (s : State) : Keeps s s.bootUnits :=
  keeps_bind (keeps_generateChirp _) fun _ => keeps_bind (keeps_placeDescriptor ..) fun _ =>
    keeps_bind (keeps_placeDescriptor ..) fun _ => keeps_bind (keeps_placeDescriptor ..) fun _ =>
    keeps_bind (keeps_bootChannel ..) fun _ => keeps_bind (keeps_bootChannel ..) fun _ =>
    keeps_bind (keeps_bootChannel ..) fun _ => keeps_bind (keeps_ctConfigure ..) fun _ =>
    keeps_bind (keeps_ctEnable _) fun _ => keeps_gtConfigure ..

theorem keeps_moveElement (s : State) (c : Chan) (v : Half) : Keeps s (s.moveElement c v) := by
  refine ⟨fun t h => ?_⟩
  obtain ⟨n, w, u, -, -, hw, rfl⟩ := State.moveElement_ok h
  rw [control_setChan]
  exact (keeps_memWrite ..).control_eq u hw

theorem keeps_blockComplete (s : State) (c : Chan) : Keeps s (s.blockComplete c) := by
  refine ⟨fun t h => ?_⟩
  obtain ⟨e, r, rfl, -⟩ := State.blockComplete_ok h
  rw [control_setChan]
  rfl

theorem keeps_teBeat (s : State) (c : Chan) (v : Half) : Keeps s (s.teBeat c v) := by
  unfold State.teBeat
  split
  · exact keeps_error _ _
  · refine keeps_bind (keeps_moveElement ..) fun u => ?_
    split
    · exact keeps_blockComplete ..
    · exact keeps_ok rfl

theorem control_guardCount (s : State) : control s.guardCount = control s := by
  unfold State.guardCount
  dsimp only
  split
  · rfl
  · split <;> rfl

theorem control_execGtTick {s t : State} (h : execGtTick s = .next t) : control t = control s := by
  unfold execGtTick at h
  split at h
  · cases h
    exact control_guardCount s
  · cases h

theorem control_execCtTick {s t : State} (h : execCtTick s = .next t) : control t = control s := by
  unfold execCtTick at h
  split at h <;> cases h
  rfl

theorem control_execDescriptor {s t : State} {c : Chan} {d : Descriptor} (h : execDescriptor c d s = .next t) :
    control t = control s := by
  unfold execDescriptor at h
  split at h
  · cases h
  · exact (keeps_placeDescriptor ..).of_answer h

theorem control_execBoot {s t : State} (h : execBoot s = .next t) : control t = control s := by
  unfold execBoot at h
  split at h
  · cases h
  · split at h
    · cases h
    · split at h
      · cases h
      · rename_i u hu
        cases h
        exact (keeps_bootUnits s).control_eq u hu

theorem control_execEnvTrigger {s t : State} {c : Chan} (h : execEnvTrigger c s = .next t) : control t = control s := by
  unfold execEnvTrigger at h
  split at h
  · cases h; rfl
  · split at h
    · cases h; rfl
    · split at h <;> cases h <;> simp

theorem control_execEnvAltEdge {s t : State} (h : execEnvAltEdge s = .next t) : control t = control s := by
  unfold execEnvAltEdge at h
  split at h <;> cases h <;> simp

/-! ### Operations that set a flag (R242, R263 to R268) -/

/-- The operations by which the one source of a flag sets it (R23): the host decoder, by itself or in a poll, and the alternate
trigger for EMIT_START, the handlers for the others. -/
def isSource : Flag → Instr → Prop
  | .emitStart, i => i = .startJob ∨ i = .hlPoll ∨ i = .hAltTrig
  | .emitStop, i => i = .hEmitDone
  | .waitStop, i => i = .hGuardOvf
  | .cap0Done, i => i = .hCap0Done
  | .cap1Done, i => i = .hCap1Done

theorem control_startJob (s : State) :
    control s.startJob = control s ∨ control s.startJob = control (s.setFlag .emitStart) := by
  unfold State.startJob
  split
  · exact .inr rfl
  · exact .inl rfl

theorem control_handle {s t : State} {e : Event} {f : Flag} {name : String} (h : answer (s.handle e f name) = .next t) :
    control t = control (s.setFlag f) := by
  unfold State.handle at h
  split at h <;> cases h
  rfl

theorem control_countEdge (s : State) :
    control s.countEdge = control s ∨ control s.countEdge = control (s.setFlag .emitStart) := by
  unfold State.countEdge
  dsimp only
  split
  · exact .inr rfl
  · exact .inl rfl

theorem control_execHAltTrig {s t : State} (h : execHAltTrig s = .next t) :
    control t = control s ∨ control t = control (s.setFlag .emitStart) := by
  unfold execHAltTrig at h
  split at h <;> cases h
  exact control_countEdge (s.ack .altEdge)

theorem control_execHlPoll {s t : State} (h : execHlPoll s = .next t) :
    control t = control s ∨ control t = control (s.setFlag .emitStart) := by
  have hp : s.phase = .poll := by
    by_contra hp
    simp [execHlPoll, hp] at h
  obtain ⟨u, hu, hm⟩ := execHlPoll_move hp
  cases hu.symm.trans h
  cases hm with
  | poll => exact .inl rfl
  | start => exact .inr rfl
  | done c hi => cases c <;> cases hi

/-! ### The transitions (R216 to R221) -/

/-- The operation that is the transition of a state. -/
def transitionOf : AcqState → Instr
  | .idle => .tIdleEmit
  | .emit => .tEmitWait
  | .wait => .tWaitListen
  | .listen => .tListenIdle

/-- The control part that the transition of a state leaves. -/
def departed (s : State) : Control :=
  match s.acqState with
  | .idle => { control (s.clearFlag .emitStart) with acqState := .emit }
  | .emit => { control (s.clearFlag .emitStop) with acqState := .wait }
  | .wait => { control (s.clearFlag .waitStop) with acqState := .listen }
  | .listen =>
    { control ((s.clearFlag .cap0Done).clearFlag .cap1Done) with acqState := .idle, txs := s.txs ++ s.payload }

theorem idleToEmit_ok {s t : State} (h : s.idleToEmit = .ok t) : s.acqState = .idle ∧ control t = departed s := by
  unfold State.idleToEmit at h
  split at h <;> cases h
  rename_i hg
  exact ⟨hg.1, by simp [departed, hg.1, control]⟩

theorem emitToWait_ok {s t : State} (h : s.emitToWait = .ok t) : s.acqState = .emit ∧ control t = departed s := by
  unfold State.emitToWait at h
  split at h
  · rename_i hg
    split at h <;> cases h
    rename_i u hu
    obtain ⟨hcfg, -, hflags, htxs⟩ := control_eq_iff.1 ((keeps_gtRetrigger _).control_eq u hu)
    exact ⟨hg.1, by simp [departed, hg.1, control, hcfg, hflags, htxs]⟩
  · cases h

theorem waitToListen_ok {s t : State} (h : s.waitToListen = .ok t) : s.acqState = .wait ∧ control t = departed s := by
  unfold State.waitToListen at h
  split at h <;> cases h
  rename_i hg
  exact ⟨hg.1, by simp [departed, hg.1, control]⟩

/-- A drain that completes appends the payload (R247). -/
theorem drain_ok {s t : State} (h : s.drain = .ok t) : t = { s with txs := s.txs ++ s.payload } := by
  unfold State.drain at h
  split at h <;> cases h
  rfl

theorem listenToIdle_ok {s t : State} (h : s.listenToIdle = .ok t) : s.acqState = .listen ∧ control t = departed s := by
  unfold State.listenToIdle at h
  split at h
  · rename_i hg
    split at h <;> cases h
    rename_i u hu
    rw [drain_ok hu]
    exact ⟨hg.1, by simp only [departed, hg.1]; rfl⟩
  · cases h

theorem leave_ok {s t : State} (h : leave s = .ok t) : control t = departed s := by
  unfold leave at h
  split at h
  · exact (idleToEmit_ok h).2
  · exact (emitToWait_ok h).2
  · exact (waitToListen_ok h).2
  · exact (listenToIdle_ok h).2

theorem control_execTNone {s t : State} (v : BitVec 7) (h : execTNone v s = .next t) : control t = control s := by
  unfold execTNone State.noTransition at h
  split at h <;> cases h
  rfl

theorem control_execAsEval {s t : State} (h : execAsEval s = .next t) : control t = control s ∨ control t = departed s := by
  unfold execAsEval at h
  split at h
  · cases h
  · cases hg : ({ s with phase := .poll } : State).guardHolds with
    | false =>
      rw [transition_of_not_guard hg] at h
      cases h
      exact .inl rfl
    | true =>
      rw [transition_of_guard hg] at h
      exact .inr (leave_ok (s := { s with phase := .poll }) (answer_eq_next.1 h))

/-! ### Every operation -/

/-- What an operation does to the control part; `exec_effect` ties it to `exec`. -/
inductive Effect (s t : State) (i : Instr) : Prop
  /-- it stands -/
  | stands : control t = control s → Effect s t i
  /-- the source of a flag sets it -/
  | sets (f : Flag) : isSource f i → control t = control (s.setFlag f) → Effect s t i
  /-- the state machine leaves its state -/
  | departs : i = .asEval ∨ i = transitionOf s.acqState → control t = departed s → Effect s t i
  /-- bytes go out -/
  | sends (sent : List Byte) : i = .hlDrain ∨ (∃ v, i = .sample v) →
      control t = { control s with txs := s.txs ++ sent } → Effect s t i

theorem Effect.of_start {s t : State} {i : Instr} (hi : isSource .emitStart i)
    (h : control t = control s ∨ control t = control (s.setFlag .emitStart)) : Effect s t i :=
  h.elim .stands (.sets .emitStart hi)

theorem Effect.of_transition {s t : State} {a : AcqState} (h : s.acqState = a ∧ control t = departed s) :
    Effect s t (transitionOf a) :=
  .departs (.inr (by rw [h.1])) h.2

/-- Everything an operation that is taken can do to the control part. -/
theorem exec_effect {i : Instr} {s t : State} (h : exec i s = .next t) : Effect s t i := by
  cases i with
  | startJob => cases h; exact .of_start (.inl rfl) (control_startJob s)
  | ampEnable => cases h; exact .stands rfl
  | ampDisable => cases h; exact .stands rfl
  | rsvdLow low => cases h; exact .stands rfl
  | ignored b => cases h; exact .stands rfl
  | tIdleEmit => exact .of_transition (idleToEmit_ok (answer_eq_next.1 h))
  | tEmitWait => exact .of_transition (emitToWait_ok (answer_eq_next.1 h))
  | tWaitListen => exact .of_transition (waitToListen_ok (answer_eq_next.1 h))
  | tListenIdle => exact .of_transition (listenToIdle_ok (answer_eq_next.1 h))
  | tNone v => exact .stands (control_execTNone v h)
  | hEmitDone => exact .sets .emitStop rfl (control_handle h)
  | hGuardOvf => exact .sets .waitStop rfl (control_handle h)
  | hCap0Done => exact .sets .cap0Done rfl (control_handle h)
  | hCap1Done => exact .sets .cap1Done rfl (control_handle h)
  | hAltTrig => exact .of_start (.inr (.inr rfl)) (control_execHAltTrig h)
  | csGenerate => exact .stands ((keeps_generateChirp s).of_answer h)
  | teConfigure c prio trigsrc burst => exact .stands ((keeps_teConfigure ..).of_answer h)
  | teArm c a => exact .stands ((keeps_teArm ..).of_answer h)
  | teEnable c => exact .stands ((keeps_teEnable ..).of_answer h)
  | teSuspend c => cases h; exact .stands (control_teSuspend s c)
  | teResume c => cases h; exact .stands (control_teResume s c)
  | teDisable c => cases h; exact .stands (control_teDisable s c)
  | ctConfigure per duty ind => exact .stands ((keeps_ctConfigure ..).of_answer h)
  | ctEnable => exact .stands ((keeps_ctEnable s).of_answer h)
  | gtConfigure per cmp => exact .stands ((keeps_gtConfigure ..).of_answer h)
  | gtRetrigger => exact .stands ((keeps_gtRetrigger s).of_answer h)
  | descriptor c d => exact .stands (control_execDescriptor h)
  | sample v => cases h; exact .sends (sampleBytes v) (.inr ⟨v, rfl⟩) rfl
  | hlPoll => exact .of_start (.inr (.inl rfl)) (control_execHlPoll h)
  | asEval => exact (control_execAsEval h).elim .stands (.departs (.inl rfl))
  | hlDrain => exact .sends s.payload (.inl rfl) (by rw [drain_ok (answer_eq_next.1 h)]; rfl)
  | teBeat c v => exact .stands ((keeps_teBeat ..).of_answer h)
  | ctTick => exact .stands (control_execCtTick h)
  | gtTick => exact .stands (control_execGtTick h)
  | boot => exact .stands (control_execBoot h)
  | envHostSend b => cases h; exact .stands rfl
  | envTrigger c => exact .stands (control_execEnvTrigger h)
  | envAltEdge => exact .stands (control_execEnvAltEdge h)

end Sys2Proof.Proofs
end

section
/-! PROOF. Who sets and who clears each flag (10_state.md R22, R23, R276), and what TXS does (R35, R43). -/

namespace Sys2Proof.Proofs

open Sys2Proof Sys2Proof.Machine

/-! ### Flags by number -/

/-- The bit of FLAGS that a flag is (R22). -/
def bitOf : Flag → Nat
  | .emitStart => 0
  | .emitStop => 1
  | .waitStop => 2
  | .cap0Done => 3
  | .cap1Done => 4

theorem flag_eq_getLsbD (s : State) (f : Flag) : s.flag f = s.flags.getLsbD (bitOf f) := by
  simp only [State.flag]
  generalize s.flags = x
  cases f <;> revert x <;> decide

/-- A bit of FLAGS that is 1 is a flag's. -/
theorem exists_bitOf {x : BitVec 5} {k : Nat} (h : x.getLsbD k = true) : ∃ f, bitOf f = k := by
  have hk : k < 5 := BitVec.lt_of_getLsbD h
  interval_cases k
  exacts [⟨.emitStart, rfl⟩, ⟨.emitStop, rfl⟩, ⟨.waitStop, rfl⟩, ⟨.cap0Done, rfl⟩, ⟨.cap1Done, rfl⟩]

/-! ### What each effect does to a flag -/

theorem flag_of_control {s t : State} (h : control t = control s) (f : Flag) : t.flag f = s.flag f :=
  flag_congr (congrArg Control.flags h) f

/-- The state of the acquisition machine whose transition consumes a flag (R23). -/
def consumedIn : Flag → AcqState
  | .emitStart => .idle
  | .emitStop => .emit
  | .waitStop => .wait
  | .cap0Done => .listen
  | .cap1Done => .listen

/-- A transition clears the flags its state consumes and no other (R217 to R220). -/
theorem flag_departed {s t : State} (h : control t = departed s) (f : Flag) :
    t.flag f = (!decide (consumedIn f = s.acqState) && s.flag f) := by
  have hx : t.flags = (departed s).flags := congrArg Control.flags h
  cases ha : s.acqState
  all_goals
    simp only [departed, ha, control_flags] at hx
    rw [flag_congr hx f]
    cases f <;> simp [consumedIn]

theorem flag_sends {s t : State} {sent : List Byte} (h : control t = { control s with txs := s.txs ++ sent }) (f : Flag) :
    t.flag f = s.flag f :=
  flag_congr (congrArg Control.flags h) f

/-- A flag goes from 0 to 1 by its source alone (R23). -/
theorem Effect.source_of_rise {s t : State} {i : Instr} {f : Flag} (h : Effect s t i) (h0 : s.flag f = false)
    (h1 : t.flag f = true) : isSource f i := by
  cases h with
  | stands hc => simp [flag_of_control hc, h0] at h1
  | sets g hi hc =>
    have hg : g = f := by simpa [flag_of_control hc, h0] using h1
    exact hg ▸ hi
  | departs _ hc => simp [flag_departed hc, h0] at h1
  | sends sent _ hc => simp [flag_sends hc, h0] at h1

/-- A flag goes from 1 to 0 in the state that consumes it, by that state's transition (R23, R276). -/
theorem Effect.consumer_of_fall {s t : State} {i : Instr} {f : Flag} (h : Effect s t i) (h1 : s.flag f = true)
    (h0 : t.flag f = false) : s.acqState = consumedIn f ∧ (i = .asEval ∨ i = transitionOf (consumedIn f)) := by
  cases h with
  | stands hc => simp [flag_of_control hc, h1] at h0
  | sets g hi hc => simp [flag_of_control hc, h1] at h0
  | departs hi hc =>
    have ha : consumedIn f = s.acqState := by simpa [flag_departed hc, h1] using h0
    exact ⟨ha.symm, ha ▸ hi⟩
  | sends sent _ hc => simp [flag_sends hc, h1] at h0

/-- Settles O21: a bit of FLAGS that changes is a flag's, and each effect of an operation raises a flag only as its source and
lowers one only as the transition that consumes it. -/
theorem flagOwnership : Obligations.FlagOwnership := by
  intro i s t h
  refine ⟨fun k h0 h1 => ?_, fun k h1 h0 => ?_⟩
  · obtain ⟨f, rfl⟩ := exists_bitOf h1
    rw [← flag_eq_getLsbD] at h0 h1
    have hi := (exec_effect h).source_of_rise h0 h1
    cases f <;> simpa [isSource, bitOf] using hi
  · obtain ⟨f, rfl⟩ := exists_bitOf h1
    rw [← flag_eq_getLsbD] at h0 h1
    have hi := (exec_effect h).consumer_of_fall h1 h0
    cases f <;> simpa [consumedIn, transitionOf, bitOf] using hi

/-! ### The stream -/

/-- The bytes a transition puts on TXS: the drain's in Listen, none elsewhere (R217 to R220). -/
theorem departed_txs (s : State) : (departed s).txs = s.txs ++ if s.acqState = .listen then s.payload else [] := by
  unfold departed
  split <;> simp [control, *]

theorem departed_cfg (s : State) : (departed s).cfg = s.cfg := by
  unfold departed
  split <;> rfl

theorem Effect.cfg {s t : State} {i : Instr} (h : Effect s t i) : t.cfg = s.cfg := by
  cases h with
  | stands hc => exact congrArg Control.cfg hc
  | sets f _ hc => exact congrArg Control.cfg hc
  | departs _ hc => exact (congrArg Control.cfg hc).trans (departed_cfg s)
  | sends sent _ hc => exact congrArg Control.cfg hc

/-- TXS grows by some bytes, and by none where the operation is not one that sends. -/
theorem Effect.txs {s t : State} {i : Instr} (h : Effect s t i) :
    ∃ sent, t.txs = s.txs ++ sent ∧
      (sent ≠ [] → i = .asEval ∨ i = .tListenIdle ∨ i = .hlDrain ∨ ∃ v, i = .sample v) := by
  cases h with
  | stands hc => exact ⟨[], by simpa using congrArg Control.txs hc, nofun⟩
  | sets f _ hc => exact ⟨[], by simpa using congrArg Control.txs hc, nofun⟩
  | departs hi hc =>
    refine ⟨_, (congrArg Control.txs hc).trans (departed_txs s), fun hsent => ?_⟩
    have hl : s.acqState = .listen := by
      by_contra hl
      exact hsent (if_neg hl)
    rw [hl] at hi
    exact hi.imp_right .inl
  | sends sent hi hc => exact ⟨sent, congrArg Control.txs hc, fun _ => .inr (.inr hi)⟩

/-- Settles O58: what an operation does to TXS and the parameters is read off its effect. -/
theorem streamGrows : Obligations.StreamGrows := by
  intro i s t h
  have he := exec_effect h
  obtain ⟨sent, htxs, hi⟩ := he.txs
  refine ⟨⟨sent, htxs.symm⟩, he.cfg, fun hne => hi ?_⟩
  rintro rfl
  exact hne (by simpa using htxs)

end Sys2Proof.Proofs
end

section
/-! PROOF. The environment's inputs (10_state.md R52), a record placed in DESC (30_encoding.md R96), and the state BOOT leaves
(70_reset_and_hazards.md R304, R305). -/

namespace Sys2Proof.Proofs

open Sys2Proof Sys2Proof.Machine

/-! ### The environment -/

theorem exec_envAltEdge (s : State) :
    exec .envAltEdge s = .next (if s.cfg.altEnable then s.signal .altEdge else s) := by
  change execEnvAltEdge s = _
  unfold execEnvAltEdge
  split <;> rfl

/-- Settles O10: the send is its own equation, and a signalled edge is bit 4 of the latch. -/
theorem environmentInputs : Obligations.EnvironmentInputs :=
  fun s _ => ⟨rfl, exec_envAltEdge s⟩

/-! ### Records -/

theorem execDescriptor_of_usable {s : State} {d : Descriptor} (hd : d.valid = false ∨ d.reservedValue = false) (c : Chan) :
    execDescriptor c d s = answer (s.placeDescriptor c d) :=
  if_neg (by obtain h | h := hd <;> simp [h])

/-- The CTRL word as R96 draws it. -/
theorem ctrl_eq_append (d : Descriptor) :
    d.ctrl = d.count ++ d.reserved ++ BitVec.ofBool d.dstInc ++ BitVec.ofBool d.srcInc ++ d.elemSize ++ d.blockAct ++
      BitVec.ofBool d.valid :=
  BitVec.setWidth_eq _

/-- During boot the words of a record are stored at its place, and nothing else changes (R39). -/
theorem exec_descriptor_boot {s : State} (hl : s.cfg.Legal) (hp : s.phase = .boot) (c : Chan) {d : Descriptor}
    (hd : d.valid = false ∨ d.reservedValue = false) :
    exec (.descriptor c d) s = .next { s with
      mem := Memory.storeRecord s.mem (s.cfg.descBase + 16 * c.code.toNat) d.ctrl d.src d.dst d.next } := by
  change execDescriptor c d s = _
  rw [execDescriptor_of_usable hd, State.placeDescriptor_boot hl hp, answer_ok]

theorem exec_descriptor_reserved (s : State) (c : Chan) {d : Descriptor} (hv : d.valid = true) (hr : d.reservedValue = true) :
    exec (.descriptor c d) s = .refused .reservedDescriptor := by
  change execDescriptor c d s = _
  simp [execDescriptor, hv, hr]

/-- Settles O35: a usable record, or one with VALID 0, is stored whole, and its words are read back; any other is declined before
the store. -/
theorem descriptorPlaced : Obligations.DescriptorPlaced := by
  rintro s c d a hl hp rfl
  refine ⟨fun hd => ?_, exec_descriptor_reserved s c⟩
  have hexec := exec_descriptor_boot hl hp c hd
  obtain ⟨hctrl, hsrc, hdst, hnext⟩ :=
    Memory.storeRecord_words s.mem (s.cfg.descBase + 16 * c.code.toNat) d.ctrl d.src d.dst d.next
  have hframe := fun b =>
    Memory.storeRecord_outside s.mem (s.cfg.descBase + 16 * c.code.toNat) b d.ctrl d.src d.dst d.next
  -- from here on the record's bytes are known by these equations alone
  generalize Memory.storeRecord s.mem _ _ _ _ _ = m at *
  exact ⟨_, hexec, rfl, hctrl.trans (ctrl_eq_append d), hsrc, hdst, hnext, hframe⟩

/-! ### BOOT -/

/-- The carrier's parameters are operands `CT_CONFIGURE` takes (R9, R191). -/
theorem carrierOperands_legal {p : Params} (h : p.LegalTimers) :
    carrierOperands (BitVec.ofNat 16 p.carrierPeriod) (BitVec.ofNat 16 p.carrierDuty)
      (BitVec.ofNat 16 p.carrierIndDuty) = true := by
  obtain ⟨⟨h1, h2, h3, h4, h5, h6⟩, -⟩ := h
  simp only [carrierOperands, BitVec.toNat_ofNat, Bool.and_eq_true, decide_eq_true_eq]
  omega

theorem ofNat_carrierPeriod_ne_zero {p : Params} (h : p.LegalTimers) : BitVec.ofNat 16 p.carrierPeriod ≠ 0 := by
  obtain ⟨⟨h1, h2, -⟩, -⟩ := h
  intro hz
  have := congrArg BitVec.toNat hz
  simp only [BitVec.toNat_ofNat, BitVec.ofNat_eq_ofNat] at this
  omega

/-- The guard timer's parameters are operands `GT_CONFIGURE` takes (R9, R201). -/
theorem guardOperands_legal {p : Params} (h : p.LegalTimers) :
    guardOperands (BitVec.ofNat 32 p.guardPeriod) (BitVec.ofNat 32 p.guardCompare) = true := by
  obtain ⟨-, ⟨h1, h2⟩, h3, -⟩ := h
  have hper : (BitVec.ofNat 32 p.guardPeriod).toNat = p.guardPeriod := by
    rw [BitVec.toNat_ofNat]; omega
  simp only [guardOperands, hper, Bool.and_eq_true, Bool.or_eq_true, decide_eq_true_eq]
  refine ⟨h1, ?_⟩
  split at h3
  · right
    rw [BitVec.toNat_ofNat]
    omega
  · exact .inl (by simp [h3])

theorem ctConfigure_ok {s : State} {per duty ind : Half} (ho : carrierOperands per duty ind = true) (he : s.ct.en = false) :
    s.ctConfigure per duty ind = .ok { s with ct := ⟨false, 0, per, duty, ind⟩ } := by
  simp [State.ctConfigure, ho, he]

theorem ctEnable_ok {s : State} (hp : s.ct.per ≠ 0) : s.ctEnable = .ok { s with ct := { s.ct with en := true } } := if_neg hp

theorem gtConfigure_ok {s : State} {per cmp : Word} (ho : guardOperands per cmp = true) (hr : s.gt.run = false) :
    s.gtConfigure per cmp = .ok { s with gt := ⟨false, 0, per, cmp, false⟩ } := by
  simp [State.gtConfigure, ho, hr]

theorem bind_of_ok {x : Except Refusal State} {u : State} (h : x = .ok u) (f : State → Except Refusal State) :
    (x >>= f) = f u := by
  rw [h]
  rfl

/-- Line 2 of R304, whatever comes after it: the three records are stored in order. -/
theorem placeRecords_bind {s : State} (hl : s.cfg.Legal) (hp : s.phase = .boot) (f : State → Except Refusal State) :
    (s.placeDescriptor .emit (bootDescriptor s.cfg .emit) >>= fun s1 =>
      s1.placeDescriptor .cap0 (bootDescriptor s.cfg .cap0) >>= fun s2 =>
        s2.placeDescriptor .cap1 (bootDescriptor s.cfg .cap1) >>= f) = f { s with mem := bootMemory s.cfg s.mem } := by
  rw [bind_of_ok (State.placeDescriptor_record hl hp .emit),
    bind_of_ok (State.placeDescriptor_record (s := { s with mem := Memory.storeBootRecord s.cfg s.mem .emit }) hl hp .cap0),
    bind_of_ok (State.placeDescriptor_record
      (s := { s with mem := Memory.storeBootRecord s.cfg (Memory.storeBootRecord s.cfg s.mem .emit) .cap0 }) hl hp .cap1),
    bootMemory]

/-- Line 3 of R304, whatever comes after it: the three channels are brought to SUSPENDED. -/
theorem bootChannels_bind {s : State} (hl : s.cfg.Legal) (hi : ∀ c, (s.chan c).state = .idle)
    (hd : ∀ c, s.HoldsDescriptor c) (f : State → Except Refusal State) :
    (s.bootChannel .emit >>= fun s1 => s1.bootChannel .cap0 >>= fun s2 => s2.bootChannel .cap1 >>= f) =
      f { s with ch0 := bootedChan s.cfg .emit, ch1 := bootedChan s.cfg .cap0, ch2 := bootedChan s.cfg .cap1 } := by
  have boot : ∀ (u : State) (c : Chan), u.HoldsDescriptor c → u.cfg = s.cfg → (u.chan c).state = .idle →
      u.bootChannel c = .ok (u.setChan c (bootedChan s.cfg c)) := by
    intro u c hr hc hu
    rw [← hc] at hl ⊢
    exact State.bootChannel_ok hl c hu hr
  have hd1 := fun c => holdsDescriptor_setChan (hd c) .emit (bootedChan s.cfg .emit)
  have hd2 := fun c => holdsDescriptor_setChan (hd1 c) .cap0 (bootedChan s.cfg .cap0)
  rw [bind_of_ok (boot s .emit (hd .emit) rfl (hi .emit)), bind_of_ok (boot _ .cap0 (hd1 .cap0) rfl (hi .cap0)),
    bind_of_ok (boot _ .cap1 (hd2 .cap1) rfl (hi .cap1))]
  rfl

/-- Lines 4 to 6 of R304: the timers are configured and the carrier starts. -/
theorem bootTimers_ok {s : State} {p : Params} (hl : p.LegalTimers) (he : s.ct.en = false) (hr : s.gt.run = false) :
    (s.ctConfigure (BitVec.ofNat 16 p.carrierPeriod) (BitVec.ofNat 16 p.carrierDuty)
        (BitVec.ofNat 16 p.carrierIndDuty) >>= fun s1 => s1.ctEnable >>= fun s2 =>
      s2.gtConfigure (BitVec.ofNat 32 p.guardPeriod) (BitVec.ofNat 32 p.guardCompare)) =
    .ok { s with
      ct := ⟨true, 0, BitVec.ofNat 16 p.carrierPeriod, BitVec.ofNat 16 p.carrierDuty, BitVec.ofNat 16 p.carrierIndDuty⟩
      gt := ⟨false, 0, BitVec.ofNat 32 p.guardPeriod, BitVec.ofNat 32 p.guardCompare, false⟩ } := by
  rw [bind_of_ok (ctConfigure_ok (carrierOperands_legal hl) he)]
  rw [bind_of_ok (ctEnable_ok (ofNat_carrierPeriod_ne_zero hl))]
  exact gtConfigure_ok (guardOperands_legal hl) hr

/-- Lines 2 to 6 of R304, from the state that line 1 leaves, its channels and timers as reset left them. -/
theorem bootUnits_of_chirp {s u : State} (hg : s.generateChirp = .ok u) (hc : s.cfg = u.cfg) (hl : u.cfg.Legal)
    (hp : u.phase = .boot) (hi : ∀ c, (u.chan c).state = .idle) (he : u.ct.en = false) (hr : u.gt.run = false) :
    s.bootUnits = .ok { u with
      mem := bootMemory u.cfg u.mem
      ch0 := bootedChan u.cfg .emit
      ch1 := bootedChan u.cfg .cap0
      ch2 := bootedChan u.cfg .cap1
      ct := ⟨true, 0, BitVec.ofNat 16 u.cfg.carrierPeriod, BitVec.ofNat 16 u.cfg.carrierDuty,
        BitVec.ofNat 16 u.cfg.carrierIndDuty⟩
      gt := ⟨false, 0, BitVec.ofNat 32 u.cfg.guardPeriod, BitVec.ofNat 32 u.cfg.guardCompare, false⟩ } := by
  unfold State.bootUnits
  rw [bind_of_ok hg, hc, placeRecords_bind hl hp]
  -- from here on the memory is known by the records it holds alone
  generalize hm : bootMemory u.cfg u.mem = m
  have hd := State.holds_bootMemory (s := { u with mem := m }) hl u.mem hm.symm
  have hidle : ∀ c, (({ u with mem := m } : State).chan c).state = .idle := forall_chan.2 ⟨hi .emit, hi .cap0, hi .cap1⟩
  rw [bootChannels_bind (s := { u with mem := m }) hl hidle hd]
  exact bootTimers_ok hl.2.1 he hr

theorem exec_boot_ok {s t : State} (hp : s.phase = .boot) (hl : s.cfg.Legal) (h : s.bootUnits = .ok t) :
    exec .boot s = .next { t with phase := .poll } := by
  change execBoot s = _
  rw [execBoot, if_neg (not_not.2 hp), if_neg (not_not.2 hl), h]

/-- Settles O51: reset leaves what lines 1 to 6 of R304 need, whatever the environment did before; the two refusals are BOOT's
own. -/
theorem bootState : Obligations.BootState := by
  refine ⟨fun p q e l hl => ?_, fun s hp hl => ?_, fun s hp => if_pos hp⟩
  · have hg := State.generateChirp_legal (s := { State.resetWith p with rxq := q, evtPending := e, script := l }) hl rfl
    exact exec_boot_ok rfl hl (bootUnits_of_chirp hg rfl hl rfl (forall_chan.2 ⟨rfl, rfl, rfl⟩) rfl rfl)
  · change execBoot s = _
    rw [execBoot, if_neg (not_not.2 hp), if_pos hl]

end Sys2Proof.Proofs
end

section
/-! PROOF. What one operation does to memory, said once for every operation and every state (20_memory.md R60, R61, R68, R79). -/

namespace Sys2Proof.Proofs

open Sys2Proof Sys2Proof.Machine

/-- Two operations in sequence: where the sequence answers a state, the first answered the state the second starts in. -/
theorem exists_of_bind_ok {x : Except Refusal State} {f : State → Except Refusal State} {t : State}
    (h : (x >>= f) = .ok t) : ∃ u, x = .ok u ∧ f u = .ok t := by
  cases x with
  | error e => cases h
  | ok u => exact ⟨u, rfl, h⟩

/-! ### The channel operations write the channel's registers (R152 to R154) -/

theorem teConfigure_setChan {s t : State} {c : Chan} {p b d : BitVec 2} (h : s.teConfigure c p b d = .ok t) :
    ∃ r, t = s.setChan c r := by
  unfold State.teConfigure at h
  split at h
  · cases h
  · split at h <;> cases h
    exact ⟨_, rfl⟩

theorem teArm_setChan {s t : State} {c : Chan} {a : Word} (h : s.teArm c a = .ok t) : ∃ r, t = s.setChan c r := by
  unfold State.teArm at h
  split at h
  · cases h
  · split at h <;> cases h
    exact ⟨_, rfl⟩

theorem teEnable_setChan {s t : State} {c : Chan} (h : s.teEnable c = .ok t) : ∃ r, t = s.setChan c r := by
  have stays : ∃ r, s = s.setChan c r := ⟨_, (s.setChan_chan c).symm⟩
  unfold State.teEnable at h
  split at h
  · cases h; exact stays
  · split at h
    · cases h; exact stays
    · split at h <;> cases h
      · exact stays
      · exact ⟨_, rfl⟩

theorem teSuspend_setChan (s : State) (c : Chan) : ∃ r, s.teSuspend c = s.setChan c r := by
  unfold State.teSuspend
  split
  · exact ⟨_, rfl⟩
  · exact ⟨_, (s.setChan_chan c).symm⟩

/-- Line 3 of R304 writes the registers of its channel. -/
theorem bootChannel_setChan {s t : State} {c : Chan} (h : s.bootChannel c = .ok t) : ∃ r, t = s.setChan c r := by
  obtain ⟨s1, h1, h⟩ := exists_of_bind_ok h
  obtain ⟨s2, h2, h⟩ := exists_of_bind_ok h
  obtain ⟨s3, h3, h⟩ := exists_of_bind_ok h
  cases h
  obtain ⟨r1, rfl⟩ := teConfigure_setChan h1
  obtain ⟨r2, rfl⟩ := teArm_setChan h2
  obtain ⟨r3, rfl⟩ := teEnable_setChan h3
  obtain ⟨r4, h4⟩ := teSuspend_setChan (((s.setChan c r1).setChan c r2).setChan c r3) c
  exact ⟨r4, by rw [h4, State.setChan_setChan, State.setChan_setChan, State.setChan_setChan]⟩

/-! ### The timer operations write the timer's registers (R191, R192, R201, R202) -/

theorem ctConfigure_ct {s t : State} {p d i : Half} (h : s.ctConfigure p d i = .ok t) : ∃ x, t = { s with ct := x } := by
  unfold State.ctConfigure at h
  split at h
  · cases h
  · split at h <;> cases h
    exact ⟨_, rfl⟩

theorem ctEnable_ct {s t : State} (h : s.ctEnable = .ok t) : ∃ x, t = { s with ct := x } := by
  unfold State.ctEnable at h
  split at h <;> cases h
  exact ⟨_, rfl⟩

theorem gtConfigure_gt {s t : State} {p c : Word} (h : s.gtConfigure p c = .ok t) : ∃ x, t = { s with gt := x } := by
  unfold State.gtConfigure at h
  split at h
  · cases h
  · split at h <;> cases h
    exact ⟨_, rfl⟩

theorem gtRetrigger_gt {s t : State} (h : s.gtRetrigger = .ok t) : ∃ x, t = { s with gt := x } := by
  unfold State.gtRetrigger at h
  split at h <;> cases h
  exact ⟨_, rfl⟩

/-! ### Operations that leave memory -/

theorem mem_of_setChan {s t : State} {c : Chan} (h : ∃ r, t = s.setChan c r) : t.mem = s.mem := by
  obtain ⟨r, rfl⟩ := h
  exact s.setChan_mem c r

theorem mem_of_ct {s t : State} (h : ∃ x, t = { s with ct := x }) : t.mem = s.mem := by
  obtain ⟨x, rfl⟩ := h
  rfl

theorem mem_of_gt {s t : State} (h : ∃ x, t = { s with gt := x }) : t.mem = s.mem := by
  obtain ⟨x, rfl⟩ := h
  rfl

theorem startJob_mem (s : State) : s.startJob.mem = s.mem := by
  unfold State.startJob
  split <;> rfl

theorem guardCount_mem (s : State) : s.guardCount.mem = s.mem := by
  unfold State.guardCount
  dsimp only
  split
  · rfl
  · split <;> rfl

theorem countEdge_mem (s : State) : s.countEdge.mem = s.mem := by
  unfold State.countEdge
  dsimp only
  split <;> rfl

theorem handle_mem {s t : State} {e : Event} {f : Flag} {name : String} (h : s.handle e f name = .ok t) : t.mem = s.mem := by
  unfold State.handle at h
  split at h <;> cases h
  rfl

theorem execHAltTrig_mem {s t : State} (h : execHAltTrig s = .next t) : t.mem = s.mem := by
  unfold execHAltTrig at h
  split at h <;> cases h
  exact countEdge_mem _

theorem execGtTick_mem {s t : State} (h : execGtTick s = .next t) : t.mem = s.mem := by
  unfold execGtTick at h
  split at h <;> cases h
  exact guardCount_mem s

theorem execCtTick_mem {s t : State} (h : execCtTick s = .next t) : t.mem = s.mem := by
  unfold execCtTick at h
  split at h <;> cases h
  rfl

theorem execEnvTrigger_mem {s t : State} {c : Chan} (h : execEnvTrigger c s = .next t) : t.mem = s.mem := by
  unfold execEnvTrigger at h
  split at h
  · cases h; rfl
  · split at h
    · cases h; rfl
    · split at h <;> cases h
      · rfl
      · exact s.setChan_mem c _

theorem execEnvAltEdge_mem {s t : State} (h : execEnvAltEdge s = .next t) : t.mem = s.mem := by
  unfold execEnvAltEdge at h
  split at h <;> cases h <;> rfl

theorem execHlPoll_mem {s t : State} (h : execHlPoll s = .next t) : t.mem = s.mem := by
  have hp : s.phase = .poll := by
    by_contra hp
    simp [execHlPoll, hp] at h
  obtain ⟨u, hu, hm⟩ := execHlPoll_move hp
  cases hu.symm.trans h
  cases hm with
  | poll => rfl
  | start => rfl
  | done c hi => cases c <;> cases hi

/-! ### The transitions leave memory (R217 to R221) -/

theorem idleToEmit_mem {s t : State} (h : s.idleToEmit = .ok t) : t.mem = s.mem := by
  unfold State.idleToEmit at h
  split at h <;> cases h
  exact State.teResume_mem _ _

theorem emitToWait_mem {s t : State} (h : s.emitToWait = .ok t) : t.mem = s.mem := by
  unfold State.emitToWait at h
  split at h
  · split at h <;> cases h
    rename_i u hu
    exact (mem_of_gt (gtRetrigger_gt hu) :)
  · cases h

theorem waitToListen_mem {s t : State} (h : s.waitToListen = .ok t) : t.mem = s.mem := by
  unfold State.waitToListen at h
  split at h <;> cases h
  exact (State.teResume_mem _ _).trans (State.teResume_mem _ _)

theorem listenToIdle_mem {s t : State} (h : s.listenToIdle = .ok t) : t.mem = s.mem := by
  unfold State.listenToIdle at h
  split at h
  · split at h <;> cases h
    rename_i u hu
    rw [drain_ok hu]
    rfl
  · cases h

theorem leave_mem {s t : State} (h : leave s = .ok t) : t.mem = s.mem := by
  unfold leave at h
  split at h
  · exact idleToEmit_mem h
  · exact emitToWait_mem h
  · exact waitToListen_mem h
  · exact listenToIdle_mem h

theorem execTNone_mem {s t : State} (v : BitVec 7) (h : execTNone v s = .next t) : t.mem = s.mem := by
  unfold execTNone State.noTransition at h
  split at h <;> cases h
  rfl

theorem execAsEval_mem {s t : State} (h : execAsEval s = .next t) : t.mem = s.mem := by
  unfold execAsEval at h
  split at h
  · cases h
  · cases hg : ({ s with phase := .poll } : State).guardHolds with
    | false =>
      rw [transition_of_not_guard hg] at h
      cases h
      rfl
    | true =>
      rw [transition_of_guard hg] at h
      exact (leave_mem (answer_eq_next.1 h) :)

/-! ### Operations that write memory during boot (R68, R79, R304) -/

/-- A write by boot is a write during boot: DESC is the one region boot writes (R61, R68). -/
theorem phase_of_memWrite_bootCode {a : Word} {n : Size} {v : Word} {s t : State} (h : memWrite .bootCode a n v s = .ok t) :
    s.phase = .boot := by
  obtain ⟨-, r, -, hm, hi, -⟩ := memWrite_ok h
  cases r <;> cases hm
  exact hi rfl

/-- A record is placed during boot only, and keeps the canonical form (R68). -/
theorem placeDescriptor_wf {s t : State} {c : Chan} {d : Descriptor} (h : s.placeDescriptor c d = .ok t) :
    s.phase = .boot ∧ (Memory.Wf s.mem → Memory.Wf t.mem) := by
  obtain ⟨s1, h1, h⟩ := exists_of_bind_ok h
  obtain ⟨s2, h2, h⟩ := exists_of_bind_ok h
  obtain ⟨s3, h3, h4⟩ := exists_of_bind_ok h
  exact ⟨phase_of_memWrite_bootCode h1,
    fun hw => memWrite_wf h4 (memWrite_wf h3 (memWrite_wf h2 (memWrite_wf h1 hw)))⟩

/-- CHIRP is generated during boot only, and that keeps the canonical form (R79). -/
theorem generateChirp_wf {s t : State} (h : s.generateChirp = .ok t) :
    s.phase = .boot ∧ (Memory.Wf s.mem → Memory.Wf t.mem) := by
  unfold State.generateChirp at h
  split at h
  · cases h
  · rename_i hl
    split at h <;> cases h
    rename_i hp
    have hl : s.cfg.Legal := not_not.1 hl
    obtain ⟨hmin, hmax, -⟩ := hl.1
    obtain ⟨-, -, -, -, hwf⟩ := generate_spec s.cfg s.mem hmin hmax
    exact ⟨not_not.1 hp, hwf (Region.in_space hl.2.2 .chirp)⟩

/-- Lines 1 to 6 of R304 keep the canonical form: line 1 and line 2 store, the others leave memory. -/
theorem bootUnits_wf {s t : State} (h : s.bootUnits = .ok t) (hw : Memory.Wf s.mem) : Memory.Wf t.mem := by
  obtain ⟨s1, h1, h⟩ := exists_of_bind_ok h
  obtain ⟨s2, h2, h⟩ := exists_of_bind_ok h
  obtain ⟨s3, h3, h⟩ := exists_of_bind_ok h
  obtain ⟨s4, h4, h⟩ := exists_of_bind_ok h
  obtain ⟨s5, h5, h⟩ := exists_of_bind_ok h
  obtain ⟨s6, h6, h⟩ := exists_of_bind_ok h
  obtain ⟨s7, h7, h⟩ := exists_of_bind_ok h
  obtain ⟨s8, h8, h⟩ := exists_of_bind_ok h
  obtain ⟨s9, h9, h10⟩ := exists_of_bind_ok h
  have stored : Memory.Wf s4.mem :=
    (placeDescriptor_wf h4).2 ((placeDescriptor_wf h3).2 ((placeDescriptor_wf h2).2 ((generateChirp_wf h1).2 hw)))
  have stands : t.mem = s4.mem := calc
    t.mem = s9.mem := mem_of_gt (gtConfigure_gt h10)
    _ = s8.mem := mem_of_ct (ctEnable_ct h9)
    _ = s7.mem := mem_of_ct (ctConfigure_ct h8)
    _ = s6.mem := mem_of_setChan (bootChannel_setChan h7)
    _ = s5.mem := mem_of_setChan (bootChannel_setChan h6)
    _ = s4.mem := mem_of_setChan (bootChannel_setChan h5)
  rwa [stands]

theorem execBoot_wf {s t : State} (h : execBoot s = .next t) :
    s.phase = .boot ∧ (Memory.Wf s.mem → Memory.Wf t.mem) := by
  unfold execBoot at h
  split at h
  · cases h
  · rename_i hp
    split at h
    · cases h
    · split at h <;> cases h
      rename_i u hu
      exact ⟨not_not.1 hp, fun hw => (bootUnits_wf hu hw :)⟩

theorem execDescriptor_wf {s t : State} {c : Chan} {d : Descriptor} (h : execDescriptor c d s = .next t) :
    s.phase = .boot ∧ (Memory.Wf s.mem → Memory.Wf t.mem) := by
  unfold execDescriptor at h
  split at h
  · cases h
  · exact placeDescriptor_wf (answer_eq_next.1 h)

/-! ### A beat writes once (R160) -/

theorem blockComplete_mem {s t : State} {c : Chan} (h : s.blockComplete c = .ok t) : t.mem = s.mem := by
  obtain ⟨e, r, rfl, -⟩ := State.blockComplete_ok h
  exact State.setChan_mem _ c r

/-- A beat that is taken leaves the memory that one write of its channel leaves. -/
theorem teBeat_mem {s t : State} {c : Chan} {draw : Half} (h : s.teBeat c draw = .ok t) :
    ∃ a n v u, memWrite (.beat c) a n v s = .ok u ∧ t.mem = u.mem := by
  unfold State.teBeat at h
  split at h
  · cases h
  · obtain ⟨s1, h1, h⟩ := exists_of_bind_ok h
    obtain ⟨n, v, u, -, -, hu, hs1⟩ := State.moveElement_ok h1
    have moved : s1.mem = u.mem := mem_of_setChan ⟨_, hs1⟩
    refine ⟨_, n, v, u, hu, ?_⟩
    split at h
    · exact (blockComplete_mem h).trans moved
    · cases h
      exact moved

/-- A channel writes the region of its destination and no other (R61). -/
theorem mayWrite_beat {c : Chan} {r : Region} : r.mayWrite (.beat c) = true ↔ r = dstRegion c := by
  cases c <;> cases r <;> decide

/-- A byte that a beat's write changes lies in the buffer of the beat's channel, a capture channel (R61, R76). -/
theorem memWrite_beat_changes {c : Chan} {a v : Word} {n : Size} {s t : State} {b : Nat}
    (h : memWrite (.beat c) a n v s = .ok t) (hb : Memory.read t.mem b ≠ Memory.read s.mem b) :
    c ≠ .emit ∧ (dstRegion c).base s.cfg ≤ b ∧ b < (dstRegion c).base s.cfg + (dstRegion c).size s.cfg := by
  have inside : a.toNat ≤ b ∧ b < a.toNat + n.bytes := by
    by_contra hout
    exact hb (memWrite_read_outside h (by omega))
  obtain ⟨-, r, hr, hm, -, hport | ⟨hmem, -⟩⟩ := memWrite_ok h
  · obtain ⟨-, -, rfl⟩ := hport
    exact absurd rfl hb
  · obtain rfl := mayWrite_beat.1 hm
    obtain ⟨hlo, hhi⟩ := regionOf_some hr
    exact ⟨by rintro rfl; exact hmem rfl, by omega, by omega⟩

/-! ### Every operation -/

/-- What an operation does to memory; `exec_memEffect` ties it to `exec`. -/
inductive MemEffect (s t : State) (i : Instr) : Prop
  /-- it stands -/
  | stands : t.mem = s.mem → MemEffect s t i
  /-- boot, or an operation that is taken during boot only, fills CHIRP or DESC -/
  | boots : s.phase = .boot ∧ (Memory.Wf s.mem → Memory.Wf t.mem) → MemEffect s t i
  /-- a beat writes once -/
  | beats (c : Chan) (draw : Half) : i = .teBeat c draw →
      (∃ a n v u, memWrite (.beat c) a n v s = .ok u ∧ t.mem = u.mem) → MemEffect s t i

/-- Everything an operation that is taken can do to memory. -/
theorem exec_memEffect {i : Instr} {s t : State} (h : exec i s = .next t) : MemEffect s t i := by
  cases i with
  | startJob => cases h; exact .stands (startJob_mem s)
  | ampEnable => cases h; exact .stands rfl
  | ampDisable => cases h; exact .stands rfl
  | rsvdLow low => cases h; exact .stands rfl
  | ignored b => cases h; exact .stands rfl
  | tIdleEmit => exact .stands (idleToEmit_mem (answer_eq_next.1 h))
  | tEmitWait => exact .stands (emitToWait_mem (answer_eq_next.1 h))
  | tWaitListen => exact .stands (waitToListen_mem (answer_eq_next.1 h))
  | tListenIdle => exact .stands (listenToIdle_mem (answer_eq_next.1 h))
  | tNone v => exact .stands (execTNone_mem v h)
  | hEmitDone => exact .stands (handle_mem (answer_eq_next.1 h))
  | hGuardOvf => exact .stands (handle_mem (answer_eq_next.1 h))
  | hCap0Done => exact .stands (handle_mem (answer_eq_next.1 h))
  | hCap1Done => exact .stands (handle_mem (answer_eq_next.1 h))
  | hAltTrig => exact .stands (execHAltTrig_mem h)
  | csGenerate => exact .boots (generateChirp_wf (answer_eq_next.1 h))
  | teConfigure c prio trigsrc burst => exact .stands (mem_of_setChan (teConfigure_setChan (answer_eq_next.1 h)))
  | teArm c a => exact .stands (mem_of_setChan (teArm_setChan (answer_eq_next.1 h)))
  | teEnable c => exact .stands (mem_of_setChan (teEnable_setChan (answer_eq_next.1 h)))
  | teSuspend c => cases h; exact .stands (s.teSuspend_mem c)
  | teResume c => cases h; exact .stands (s.teResume_mem c)
  | teDisable c => cases h; exact .stands (s.teDisable_mem c)
  | ctConfigure per duty ind => exact .stands (mem_of_ct (ctConfigure_ct (answer_eq_next.1 h)))
  | ctEnable => exact .stands (mem_of_ct (ctEnable_ct (answer_eq_next.1 h)))
  | gtConfigure per cmp => exact .stands (mem_of_gt (gtConfigure_gt (answer_eq_next.1 h)))
  | gtRetrigger => exact .stands (mem_of_gt (gtRetrigger_gt (answer_eq_next.1 h)))
  | descriptor c d => exact .boots (execDescriptor_wf h)
  | sample v => cases h; exact .stands rfl
  | hlPoll => exact .stands (execHlPoll_mem h)
  | asEval => exact .stands (execAsEval_mem h)
  | hlDrain => exact .stands (by rw [drain_ok (answer_eq_next.1 h)])
  | teBeat c v => exact .beats c v rfl (teBeat_mem (answer_eq_next.1 h))
  | ctTick => exact .stands (execCtTick_mem h)
  | gtTick => exact .stands (execGtTick_mem h)
  | boot => exact .boots (execBoot_wf h)
  | envHostSend b => cases h; exact .stands rfl
  | envTrigger c => exact .stands (execEnvTrigger_mem h)
  | envAltEdge => exact .stands (execEnvAltEdge_mem h)

/-! ### The canonical form and who writes memory -/

theorem MemEffect.wf {s t : State} {i : Instr} (h : MemEffect s t i) (hw : Memory.Wf s.mem) : Memory.Wf t.mem := by
  cases h with
  | stands h => rwa [h]
  | boots h => exact h.2 hw
  | beats c draw hi h =>
    obtain ⟨a, n, v, u, hu, ht⟩ := h
    rw [ht]
    exact memWrite_wf hu hw

/-- A fetch takes a line off the script at most (R104). -/
theorem fetch_mem (s : State) : s.fetch.2.mem = s.mem := by
  unfold State.fetch
  split <;> rfl

/-- A step that is taken is an operation, on the memory the fetch left. -/
theorem exec_of_step {s t : State} (h : step s = .next t) : ∃ i, exec i s.fetch.2 = .next t := by
  unfold step at h
  split at h
  · exact ⟨_, h⟩
  · cases h

/-- Settles O54: the fetch leaves memory, and no operation spoils the canonical form. -/
theorem canonicalMemoryKept : Obligations.CanonicalMemoryKept := by
  intro s t hw h
  obtain ⟨i, hi⟩ := exec_of_step h
  exact (exec_memEffect hi).wf (by rwa [fetch_mem])

/-- After boot a byte that changes is one that a beat of a capture channel writes, in the channel's own buffer. -/
theorem MemEffect.owner {s t : State} {i : Instr} {a : Nat} (h : MemEffect s t i) (hp : s.phase ≠ .boot)
    (ha : Memory.read t.mem a ≠ Memory.read s.mem a) :
    ∃ c draw, i = .teBeat c draw ∧ c ≠ .emit ∧ (dstRegion c).base s.cfg ≤ a ∧
      a < (dstRegion c).base s.cfg + (dstRegion c).size s.cfg := by
  cases h with
  | stands h => exact absurd (by rw [h]) ha
  | boots h => exact absurd h.1 hp
  | beats c draw hi h =>
    obtain ⟨b, n, v, u, hu, ht⟩ := h
    rw [ht] at ha
    exact ⟨c, draw, hi, memWrite_beat_changes hu ha⟩

/-- Settles O56: the owner of a byte that changes is channel 1 or channel 2. -/
theorem memoryOwnership : Obligations.MemoryOwnership := by
  intro i s t hp h a ha
  obtain ⟨c, draw, rfl, hc, hlo, hhi⟩ := (exec_memEffect h).owner hp ha
  cases c with
  | emit => exact absurd rfl hc
  | cap0 => exact .inl ⟨hlo, hhi, draw, rfl⟩
  | cap1 => exact .inr ⟨hlo, hhi, draw, rfl⟩

end Sys2Proof.Proofs
end

section
/-! PROOF. A granted beat that is not the last of its block: one element from CHIRP to the output converter's port, or from an
input converter's port into a capture buffer (20_memory.md R66, R67, R69, R70; 41_transfer_engine.md R160). -/

namespace Sys2Proof.Proofs

open Sys2Proof Sys2Proof.Machine

/-! ### Elements of two bytes -/

/-- ELEMSIZE 1 is two bytes, and no other code is (R96). -/
theorem elemSize_eq_b2 {ctrl : Word} : elemSize ctrl = some .b2 ↔ ctrl.extractLsb' 3 2 = 1 := by
  unfold elemSize
  generalize ctrl.extractLsb' 3 2 = k
  revert k
  decide

/-- The low and the high byte of a 16-bit value, as a store of the widened value finds them. -/
theorem byteOf_setWidth (v : Half) {k : Nat} (hk : k < 2) : byteOf (v.setWidth 32) k = v.extractLsb' (8 * k) 8 := by
  apply BitVec.eq_of_getLsbD_eq
  intro j hj
  have hin : 8 * k + j < 32 := by omega
  simp [byteOf, hin]

/-- A 16-bit read, as a 16-bit value, is its two bytes, the high one first. -/
theorem readLE_b2_setWidth (m : Memory) (a : Nat) :
    (m.readLE a .b2).setWidth 16 = Memory.read m (a + 1) ++ Memory.read m a := by
  simp [Memory.readLE, le16]

/-! ### A beat -/

/-- The channel registers after a beat of two bytes that is not the last of its block (R160 lines 4 to 7). -/
theorem beat_b2 {r : ChanRegs} (h : 2 ≤ r.wCnt.toNat) :
    r.beat .b2 = { r with
      wSrc := if r.wCtrl.getLsbD 5 then r.wSrc + 2 else r.wSrc
      wDst := if r.wCtrl.getLsbD 6 then r.wDst + 2 else r.wDst
      wCnt := r.wCnt - 1
      trig := false } := by
  have hne : r.wCnt ≠ 0 := by rintro hz; simp [hz] at h
  unfold ChanRegs.beat
  rw [blockDown_of_ne hne]
  rfl

/-- A granted beat of two bytes that is not the last of its block ends with its element move (R160). -/
theorem exec_teBeat_of_move {s u : State} {c : Chan} {draw : Half} (hg : s.grant = some c) (hn : 2 ≤ (s.chan c).wCnt.toNat)
    (hm : s.moveElement c draw = .ok (u.setChan c ((s.chan c).beat .b2))) :
    exec (.teBeat c draw) s = .next (u.setChan c ((s.chan c).beat .b2)) := by
  have hleft : ((s.chan c).beat .b2).wCnt ≠ 0 := by
    have hcnt : (blockDown (s.chan c).wCnt).toNat = (s.chan c).wCnt.toNat - 1 := blockDown_toNat (by omega)
    intro hz
    rw [show blockDown (s.chan c).wCnt = 0 from hz] at hcnt
    simp at hcnt
    omega
  change answer (s.teBeat c draw) = _
  rw [teBeat_of_move hg hm, if_neg hleft, answer_ok]

/-- A granted beat whose element cannot be moved is declined. -/
theorem exec_teBeat_refused {s : State} {c : Chan} {draw : Half} (hg : s.grant = some c)
    (hm : ∀ t, s.moveElement c draw ≠ .ok t) : ∃ reason, exec (.teBeat c draw) s = .refused reason := by
  cases h : s.moveElement c draw with
  | ok t => exact absurd h (hm t)
  | error e =>
    refine ⟨e, ?_⟩
    change answer (s.teBeat c draw) = _
    simp [State.teBeat, hg, h, bind, Except.bind]

/-! ### Channel 0 -/

/-- Channel 0 writes the port of the output converter, in 16 bits only (R61, R66, R70). -/
theorem size_of_memWrite_emit {a v : Word} {n : Size} {s t : State} (h : memWrite (.beat .emit) a n v s = .ok t) : n = .b2 := by
  obtain ⟨-, r, -, hm, -, ⟨-, hn, -⟩ | ⟨hr, -⟩⟩ := memWrite_ok h
  · exact hn
  · exact absurd (mayWrite_beat.1 hm) hr

/-- Settles O38: the move reads CHIRP and writes the port; in another size the port takes no write. -/
theorem emissionBeat : Obligations.EmissionBeat := by
  refine ⟨?_, fun s draw _ hg he _ => exec_teBeat_refused hg fun t ht => ?_⟩
  · rintro s draw v r hl rfl hg he hal hlo hhi hdst hn rfl
    have hr := memRead_memory (who := .beat .emit) (draw := draw) (a := s.ch0.wSrc) (n := .b2) (r := .chirp) hl.2.2 hal
      ⟨hlo, hhi⟩ rfl rfl
    have hw := memWrite_dac (v := s.mem.readLE s.ch0.wSrc.toNat .b2) hl.2.2 hdst
    have hx := exec_teBeat_of_move hg hn (State.moveElement_of (elemSize_eq_b2.2 he) hr hw)
    have hregs : (s.chan .emit).beat .b2 = _ := beat_b2 (r := s.ch0) hn
    rw [hx, hregs, readLE_b2_setWidth]
    rfl
  · obtain ⟨n, w, u, hsize, -, hw, -⟩ := State.moveElement_ok ht
    rw [size_of_memWrite_emit hw] at hsize
    exact he (elemSize_eq_b2.1 hsize)

/-! ### The capture channels -/

/-- A channel reads the region of its source and no other (R61). -/
theorem mayRead_beat {c : Chan} {r : Region} : r.mayRead (.beat c) = true ↔ r = srcRegion c := by
  cases c <;> cases r <;> decide

theorem isPort_srcRegion {c : Chan} : (srcRegion c).isPort = true ↔ c ≠ .emit := by
  cases c <;> decide

/-- A capture channel reads the port of its converter, in 16 bits only (R61, R67, R69). -/
theorem size_of_memRead_capture {c : Chan} {draw : Half} {a v : Word} {n : Size} {s : State} (hc : c ≠ .emit)
    (h : memRead (.beat c) draw a n s = .ok v) : n = .b2 := by
  obtain ⟨-, r, -, hm, ⟨-, hn, -⟩ | ⟨hp, -⟩⟩ := memRead_ok h
  · exact hn
  · rw [mayRead_beat.1 hm, isPort_srcRegion.2 hc] at hp
    cases hp

/-- The element move of a capture channel stores the value drawn at W_DST (R160 lines 1 to 7). -/
theorem moveElement_capture {s : State} {c : Chan} {draw : Half} (hl : s.cfg.LegalMap) (hc : c ≠ .emit)
    (he : (s.chan c).wCtrl.extractLsb' 3 2 = 1) (hsrc : (s.chan c).wSrc.toNat = (srcRegion c).base s.cfg)
    (hal : (s.chan c).wDst.toNat % 2 = 0) (hdst : (dstRegion c).Holds s.cfg (s.chan c).wDst.toNat 2) :
    s.moveElement c draw =
      .ok (({ s with mem := s.mem.writeLE (s.chan c).wDst.toNat .b2 (draw.setWidth 32) } : State).setChan c
        ((s.chan c).beat .b2)) := by
  have heven : (s.chan c).wSrc.toNat % 2 = 0 := by rw [hsrc]; exact Region.base_even hl _
  have hport : (srcRegion c).Holds s.cfg (s.chan c).wSrc.toNat 2 := by
    rw [hsrc]
    cases c with
    | emit => exact absurd rfl hc
    | cap0 => exact ⟨le_rfl, le_rfl⟩
    | cap1 => exact ⟨le_rfl, le_rfl⟩
  have hr : memRead (.beat c) draw (s.chan c).wSrc .b2 s = .ok (draw.setWidth 32) :=
    memRead_port hl hport heven (mayRead_beat.2 rfl) (isPort_srcRegion.2 hc)
  have hmem : dstRegion c ≠ .dacData := by revert hc; cases c <;> decide
  have hfree : (dstRegion c).immutable = false := by cases c <;> rfl
  have hw := memWrite_memory (who := .beat c) (n := .b2) (v := draw.setWidth 32) hl hal hdst (mayWrite_beat.2 rfl) hmem
    (by simp [hfree])
  exact State.moveElement_of (elemSize_eq_b2.2 he) hr hw

theorem exec_captureBeat {s : State} {c : Chan} {draw : Half} (hl : s.cfg.LegalMap) (hc : c ≠ .emit) (hg : s.grant = some c)
    (he : (s.chan c).wCtrl.extractLsb' 3 2 = 1) (hsrc : (s.chan c).wSrc.toNat = (srcRegion c).base s.cfg)
    (hal : (s.chan c).wDst.toNat % 2 = 0) (hdst : (dstRegion c).Holds s.cfg (s.chan c).wDst.toNat 2)
    (hn : 2 ≤ (s.chan c).wCnt.toNat) :
    exec (.teBeat c draw) s =
      .next (({ s with mem := s.mem.writeLE (s.chan c).wDst.toNat .b2 (draw.setWidth 32) } : State).setChan c
        ((s.chan c).beat .b2)) :=
  exec_teBeat_of_move hg hn (moveElement_capture hl hc he hsrc hal hdst)

/-- Settles O39: the move draws from the port and stores in the buffer; in another size the port answers no read. -/
theorem captureBeat : Obligations.CaptureBeat := by
  refine ⟨?_, fun s c draw _ hg he hport => exec_teBeat_refused hg fun t ht => ?_⟩
  · rintro s c draw r port base hl rfl hown hg he hsrc hal hlo hhi hn
    have hc : c ≠ .emit := by rintro rfl; simp at hown
    have hsrc' : (s.chan c).wSrc.toNat = (srcRegion c).base s.cfg := by
      obtain ⟨rfl, rfl, -⟩ | ⟨rfl, rfl, -⟩ := hown <;> exact hsrc
    have hdst : (dstRegion c).Holds s.cfg (s.chan c).wDst.toNat 2 := by
      obtain ⟨rfl, -, rfl⟩ | ⟨rfl, -, rfl⟩ := hown <;> exact ⟨hlo, hhi⟩
    refine ⟨_, exec_captureBeat hl.2.2 hc hg he hsrc' hal hdst hn, ?_, ?_, ?_, fun a ha => ?_⟩
    · rw [State.setChan_mem, beat_b2 hn]
    · rw [State.setChan_mem, Memory.read_writeLE_b2]
      simp [byteOf_setWidth]
    · rw [State.setChan_mem, Memory.read_writeLE_b2]
      simp [byteOf_setWidth]
    · rw [State.setChan_mem]
      exact Memory.read_writeLE_outside _ _ _ .b2 _ ha
  · have hc : c ≠ .emit := by rintro rfl; simp at hport
    obtain ⟨n, w, u, hsize, hr, -, -⟩ := State.moveElement_ok ht
    rw [size_of_memRead_capture hc hr] at hsize
    exact he (elemSize_eq_b2.1 hsize)

end Sys2Proof.Proofs
end

section
/-! PROOF. Fields and bytes of a word as numbers, so that a layout is a fact of arithmetic: bytes put together and taken apart, and
the operands of each row packed and unpacked (30_encoding.md R71, R94, R100; the places of operands beside a code are the model's,
log 6, 8, 9). -/

namespace Sys2Proof.Proofs

open Sys2Proof Sys2Proof.Machine

/-! ### Fields and bytes as numbers -/

theorem toNat_append_eq {n m : Nat} (x : BitVec n) (y : BitVec m) : (x ++ y).toNat = x.toNat * 2 ^ m + y.toNat := by
  rw [BitVec.toNat_append, ← Nat.shiftLeft_add_eq_or_of_lt y.isLt, Nat.shiftLeft_eq]

theorem toNat_field {n : Nat} (x : BitVec n) (start len : Nat) :
    (x.extractLsb' start len).toNat = x.toNat / 2 ^ start % 2 ^ len := by
  rw [BitVec.extractLsb'_toNat, Nat.shiftRight_eq_div_pow]

theorem toNat_byteOf {n : Nat} (x : BitVec n) (k : Nat) : (byteOf x k).toNat = x.toNat / 2 ^ (8 * k) % 2 ^ 8 :=
  toNat_field x (8 * k) 8

theorem toNat_le16 (b0 b1 : Byte) : (le16 b0 b1).toNat = b0.toNat + 2 ^ 8 * b1.toNat := by
  rw [le16, BitVec.toNat_setWidth, toNat_append_eq]
  have := b0.isLt
  have := b1.isLt
  omega

theorem toNat_le32 (b0 b1 b2 b3 : Byte) :
    (le32 b0 b1 b2 b3).toNat = b0.toNat + 2 ^ 8 * b1.toNat + 2 ^ 16 * b2.toNat + 2 ^ 24 * b3.toNat := by
  rw [le32, BitVec.toNat_setWidth, toNat_append_eq, toNat_append_eq, toNat_append_eq]
  have := b0.isLt
  have := b1.isLt
  have := b2.isLt
  have := b3.isLt
  omega

theorem toNat_le64 (b0 b1 b2 b3 b4 b5 b6 b7 : Byte) :
    (le64 b0 b1 b2 b3 b4 b5 b6 b7).toNat = (le32 b0 b1 b2 b3).toNat + 2 ^ 32 * (le32 b4 b5 b6 b7).toNat := by
  rw [le64, BitVec.toNat_setWidth, toNat_append_eq]
  have := (le32 b0 b1 b2 b3).isLt
  have := (le32 b4 b5 b6 b7).isLt
  omega

/-- The eight operand bytes of a code of format K (log 8). -/
def operandBytes (o : BitVec 64) : List Byte :=
  [byteOf o 0, byteOf o 1, byteOf o 2, byteOf o 3, byteOf o 4, byteOf o 5, byteOf o 6, byteOf o 7]

theorem le64_bytes (o : BitVec 64) :
    le64 (byteOf o 0) (byteOf o 1) (byteOf o 2) (byteOf o 3) (byteOf o 4) (byteOf o 5) (byteOf o 6) (byteOf o 7) = o := by
  apply BitVec.eq_of_toNat_eq
  simp only [toNat_le64, toNat_le32, toNat_byteOf]
  have := o.isLt
  omega

theorem bytes_le16 (b0 b1 : Byte) : [byteOf (le16 b0 b1) 0, byteOf (le16 b0 b1) 1] = [b0, b1] := by
  have h0 := b0.isLt
  have h1 := b1.isLt
  simp only [List.cons.injEq, and_true, ← BitVec.toNat_inj, toNat_byteOf, toNat_le16]
  omega

theorem wordBytes_le32 (b0 b1 b2 b3 : Byte) : wordBytes (le32 b0 b1 b2 b3) = [b0, b1, b2, b3] := by
  have h0 := b0.isLt
  have h1 := b1.isLt
  have h2 := b2.isLt
  have h3 := b3.isLt
  simp only [wordBytes, List.cons.injEq, and_true, ← BitVec.toNat_inj, toNat_byteOf, toNat_le32]
  omega

theorem operandBytes_le64 (b0 b1 b2 b3 b4 b5 b6 b7 : Byte) :
    operandBytes (le64 b0 b1 b2 b3 b4 b5 b6 b7) = [b0, b1, b2, b3, b4, b5, b6, b7] := by
  have h0 := b0.isLt
  have h1 := b1.isLt
  have h2 := b2.isLt
  have h3 := b3.isLt
  have h4 := b4.isLt
  have h5 := b5.isLt
  have h6 := b6.isLt
  have h7 := b7.isLt
  simp only [operandBytes, List.cons.injEq, and_true, ← BitVec.toNat_inj, toNat_byteOf, toNat_le64, toNat_le32]
  omega

/-! ### The layouts of operands -/

/-- The first byte of format K: the operation above the channel, zeros above both (R100). -/
theorem eq_opByte_iff {k : Byte} {op : BitVec 4} {c : BitVec 2} :
    k = (op ++ c).setWidth 8 ↔ k.extractLsb' 6 2 = 0 ∧ k.extractLsb' 2 4 = op ∧ k.extractLsb' 0 2 = c := by
  have := k.isLt
  have := op.isLt
  have := c.isLt
  simp only [← BitVec.toNat_inj, toNat_field, BitVec.toNat_setWidth, toNat_append_eq, BitVec.ofNat_eq_ofNat,
    BitVec.toNat_ofNat]
  omega

/-- The operand of TE_ARM in its eight bytes. -/
theorem eq_setWidth_iff {o : BitVec 64} {x : Word} :
    o = x.setWidth 64 ↔ o.extractLsb' 32 32 = 0 ∧ o.extractLsb' 0 32 = x := by
  have := o.isLt
  have := x.isLt
  simp only [← BitVec.toNat_inj, toNat_field, BitVec.toNat_setWidth, BitVec.ofNat_eq_ofNat, BitVec.toNat_ofNat]
  omega

/-- The operands of GT_CONFIGURE. -/
theorem eq_words_iff {o : BitVec 64} {x y : Word} :
    o = (y ++ x).setWidth 64 ↔ o.extractLsb' 0 32 = x ∧ o.extractLsb' 32 32 = y := by
  have := o.isLt
  have := x.isLt
  have := y.isLt
  simp only [← BitVec.toNat_inj, toNat_field, BitVec.toNat_setWidth, toNat_append_eq]
  omega

/-- The operands of CT_CONFIGURE. -/
theorem eq_halves_iff {o : BitVec 64} {x y z : Half} :
    o = (z ++ y ++ x).setWidth 64 ↔
      o.extractLsb' 48 16 = 0 ∧ o.extractLsb' 0 16 = x ∧ o.extractLsb' 16 16 = y ∧ o.extractLsb' 32 16 = z := by
  have := o.isLt
  have := x.isLt
  have := y.isLt
  have := z.isLt
  simp only [← BitVec.toNat_inj, toNat_field, BitVec.toNat_setWidth, toNat_append_eq, BitVec.ofNat_eq_ofNat,
    BitVec.toNat_ofNat]
  omega

/-- The operands of TE_CONFIGURE. -/
theorem eq_pairs_iff {o : BitVec 64} {x y z : BitVec 2} :
    o = (z ++ y ++ x).setWidth 64 ↔
      o.extractLsb' 6 58 = 0 ∧ o.extractLsb' 0 2 = x ∧ o.extractLsb' 2 2 = y ∧ o.extractLsb' 4 2 = z := by
  have := o.isLt
  have := x.isLt
  have := y.isLt
  have := z.isLt
  simp only [← BitVec.toNat_inj, toNat_field, BitVec.toNat_setWidth, toNat_append_eq, BitVec.ofNat_eq_ofNat,
    BitVec.toNat_ofNat]
  omega

/-- A channel number in a byte of its own (log 6, 9). -/
theorem eq_chanByte_iff {a : Byte} {c : Chan} :
    a = chanByte c ↔ a.extractLsb' 2 6 = 0 ∧ a.extractLsb' 0 2 = c.code := by
  have := a.isLt
  have := c.code.isLt
  simp only [chanByte, ← BitVec.toNat_inj, toNat_field, BitVec.toNat_setWidth, BitVec.ofNat_eq_ofNat, BitVec.toNat_ofNat]
  omega

end Sys2Proof.Proofs
end

section
/-! PROOF. What the encoder writes the decoder reads, and outside format T a code that decodes is the one its operation is written
as (30_encoding.md R90 to R103). -/

namespace Sys2Proof.Proofs

open Sys2Proof Sys2Proof.Machine

/-! ### Channel numbers -/

@[simp] theorem ofCode_code (c : Chan) : Chan.ofCode c.code = some c := by cases c <;> rfl

theorem ofCode_eq_some {x : BitVec 2} {c : Chan} : Chan.ofCode x = some c ↔ x = c.code := by
  refine ⟨fun h => ?_, fun h => h ▸ ofCode_code c⟩
  unfold Chan.ofCode at h
  split_ifs at h with h0 h1 h2 <;> cases h <;> assumption

/-! ### Format H -/

/-- The mask of RSVD_LOW keeps the upper half of a byte. -/
theorem rsvdLow_mask (b : Byte) : b &&& 0xF0 = 0x00 ↔ b.toNat ≤ 0x0F := by
  revert b
  decide

/-- The host opcode map by number (R92). -/
theorem decodeByte_eq (b : Byte) :
    decodeByte b =
      if b.toNat = 0x10 then .startJob
      else if b.toNat = 0xFE then .ampEnable
      else if b.toNat = 0xFF then .ampDisable
      else if b.toNat ≤ 0x0F then .rsvdLow (b.extractLsb' 0 4)
      else .ignored b := by
  simp only [decodeByte, rsvdLow_mask]
  simp only [← BitVec.toNat_inj]
  rfl

/-- A byte that no exact row takes is kept in the operand (R92). -/
theorem encode_decodeByte (b : Byte) : encode (decodeByte b) = ⟨.h, [b]⟩ := by
  rw [decodeByte_eq]
  have exact_row : ∀ {n : Nat} (i : Instr), b.toNat = n → encode i = ⟨.h, [BitVec.ofNat 8 n]⟩ →
      encode i = ⟨.h, [b]⟩ := fun i hn hi => by rw [hi, ← hn, BitVec.ofNat_toNat, BitVec.setWidth_eq]
  split_ifs with h0 h1 h2 h3
  · exact exact_row _ h0 rfl
  · exact exact_row _ h1 rfl
  · exact exact_row _ h2 rfl
  · have hlow : (b.extractLsb' 0 4).setWidth 8 = b := by
      simp only [← BitVec.toNat_inj, BitVec.toNat_setWidth, toNat_field]
      omega
    rw [encode, hlow]
  · rfl

/-! ### Format T -/

theorem tIdleEmit_mask (v : BitVec 7) : v &&& 0x07 = 0x04 ↔ v.extractLsb' 0 2 = 0 ∧ v.getLsbD 2 = true := by
  revert v
  decide

theorem tEmitWait_mask (v : BitVec 7) : v &&& 0x0B = 0x09 ↔ v.extractLsb' 0 2 = 1 ∧ v.getLsbD 3 = true := by
  revert v
  decide

theorem tWaitListen_mask (v : BitVec 7) : v &&& 0x13 = 0x12 ↔ v.extractLsb' 0 2 = 2 ∧ v.getLsbD 4 = true := by
  revert v
  decide

theorem tListenIdle_mask (v : BitVec 7) :
    v &&& 0x63 = 0x63 ↔ v.extractLsb' 0 2 = 3 ∧ v.getLsbD 5 = true ∧ v.getLsbD 6 = true := by
  revert v
  decide

/-- The rows of R101: the state and the flags it waits for. -/
theorem selectT_eq (v : BitVec 7) :
    selectT v =
      if v.extractLsb' 0 2 = 0 ∧ v.getLsbD 2 = true then .tIdleEmit
      else if v.extractLsb' 0 2 = 1 ∧ v.getLsbD 3 = true then .tEmitWait
      else if v.extractLsb' 0 2 = 2 ∧ v.getLsbD 4 = true then .tWaitListen
      else if v.extractLsb' 0 2 = 3 ∧ v.getLsbD 5 = true ∧ v.getLsbD 6 = true then .tListenIdle
      else .tNone v := by
  simp only [selectT, tIdleEmit_mask, tEmitWait_mask, tWaitListen_mask, tListenIdle_mask]

/-- The default row carries the vectors that no other row takes (R101). -/
theorem selectT_of_encodable {v : BitVec 7} (h : (Instr.tNone v).encodable = true) : selectT v = .tNone v := by
  have hcases : ∀ e : BitVec 2, e = 0 ∨ e = 1 ∨ e = 2 ∨ e = 3 := by decide
  obtain hs | hs | hs | hs := hcases (v.extractLsb' 0 2) <;> simp only [Instr.encodable, hs] at h
  all_goals simpa [selectT_eq, hs, imp_iff_not_or] using h

theorem decodeT_setWidth (v : BitVec 7) : decodeT (v.setWidth 8) = .ok (selectT v) := by
  have hfield : (v.setWidth 8).extractLsb' 0 7 = v := by
    rw [BitVec.extractLsb'_setWidth_of_le (by decide), BitVec.extractLsb'_eq_self]
  rw [decodeT, hfield, if_neg (by simp)]

/-! ### Format E -/

/-- A word of one line is the word of its handler (R102). -/
theorem encode_of_decodeE {b : Byte} {i : Instr} (h : decodeE b = .ok i) : encode i = ⟨.e, [b]⟩ := by
  unfold decodeE at h
  split_ifs at h with _ h0 h1 h2 h3 h4 <;> cases h <;> subst b <;> rfl

/-! ### Format K -/

theorem plainOp_ok {c : BitVec 2} {stray : Bool} {i j : Instr} :
    plainOp c stray i = .ok j ↔ c = 0 ∧ stray = false ∧ i = j := by
  by_cases hc : c = 0
  · cases stray <;> simp [plainOp, hc]
  · rw [plainOp, if_pos (by simpa using .inl hc)]
    exact ⟨nofun, fun ⟨hzero, _⟩ => absurd hzero hc⟩

theorem chanOp_ok {c : BitVec 2} {stray : Bool} {f : Chan → Instr} {j : Instr} :
    chanOp c stray f = .ok j ↔ ∃ ch : Chan, c = ch.code ∧ stray = false ∧ f ch = j := by
  simp only [← ofCode_eq_some, chanOp]
  cases Chan.ofCode c <;> cases stray <;> simp

theorem decode_encodeOp (op : BitVec 4) (c : BitVec 2) (o : BitVec 64) : decode (encodeOp op c o) = decodeOp op c o := by
  obtain ⟨habove, hop, hc⟩ := eq_opByte_iff.1 (rfl : (op ++ c).setWidth 8 = _)
  change decodeK _ (le64 _ _ _ _ _ _ _ _) = _
  rw [le64_bytes, decodeK, habove, hop, hc, if_neg (by simp)]

theorem encode_of_plainOp {op : BitVec 4} {c : BitVec 2} {o : BitVec 64} {i j : Instr}
    (hj : encode j = encodeOp op 0 0) (h : plainOp c (o ≠ 0) j = .ok i) : encode i = encodeOp op c o := by
  obtain ⟨rfl, ho, rfl⟩ := plainOp_ok.1 h
  rw [hj, show o = 0 by simpa using ho]

theorem encode_of_chanOp {op : BitVec 4} {c : BitVec 2} {o : BitVec 64} {i : Instr} {f : Chan → Instr}
    (hf : ∀ ch, encode (f ch) = encodeOp op ch.code 0) (h : chanOp c (o ≠ 0) f = .ok i) : encode i = encodeOp op c o := by
  obtain ⟨ch, rfl, ho, rfl⟩ := chanOp_ok.1 h
  rw [hf, show o = 0 by simpa using ho]

theorem encode_teConfigure {c : BitVec 2} {o : BitVec 64} {i : Instr} (h : decodeOp 2 c o = .ok i) :
    encode i = encodeOp 2 c o := by
  obtain ⟨ch, rfl, ho, rfl⟩ := chanOp_ok.1 h
  exact congrArg (encodeOp 2 ch.code) (eq_pairs_iff.2 ⟨by simpa using ho, rfl, rfl, rfl⟩).symm

theorem encode_teArm {c : BitVec 2} {o : BitVec 64} {i : Instr} (h : decodeOp 3 c o = .ok i) :
    encode i = encodeOp 3 c o := by
  obtain ⟨ch, rfl, ho, rfl⟩ := chanOp_ok.1 h
  exact congrArg (encodeOp 3 ch.code) (eq_setWidth_iff.2 ⟨by simpa using ho, rfl⟩).symm

theorem encode_ctConfigure {c : BitVec 2} {o : BitVec 64} {i : Instr} (h : decodeOp 8 c o = .ok i) :
    encode i = encodeOp 8 c o := by
  obtain ⟨rfl, ho, rfl⟩ := plainOp_ok.1 h
  exact congrArg (encodeOp 8 0) (eq_halves_iff.2 ⟨by simpa using ho, rfl, rfl, rfl⟩).symm

theorem encode_gtConfigure {c : BitVec 2} {o : BitVec 64} {i : Instr} (h : decodeOp 10 c o = .ok i) :
    encode i = encodeOp 10 c o := by
  obtain ⟨rfl, -, rfl⟩ := plainOp_ok.1 h
  exact congrArg (encodeOp 10 0) (eq_words_iff.2 ⟨rfl, rfl⟩).symm

/-- The operation numbers of R100; any other is reserved. -/
theorem op_cases (op : BitVec 4) :
    op = 1 ∨ op = 2 ∨ op = 3 ∨ op = 4 ∨ op = 5 ∨ op = 6 ∨ op = 7 ∨ op = 8 ∨ op = 9 ∨ op = 10 ∨ op = 11 ∨
      ∀ c o, decodeOp op c o = .error .reservedOperation := by
  by_contra! h
  obtain ⟨h1, h2, h3, h4, h5, h6, h7, h8, h9, h10, h11, c, o, hx⟩ := h
  exact hx (by simp only [decodeOp, h1, h2, h3, h4, h5, h6, h7, h8, h9, h10, h11, if_false])

/-- An operation of format K is written with its number, its channel and its operands, and nothing else is 1. -/
theorem encode_of_decodeOp {op : BitVec 4} {c : BitVec 2} {o : BitVec 64} {i : Instr} (h : decodeOp op c o = .ok i) :
    encode i = encodeOp op c o := by
  obtain rfl | rfl | rfl | rfl | rfl | rfl | rfl | rfl | rfl | rfl | rfl | hres := op_cases op
  · exact encode_of_plainOp (j := .csGenerate) rfl h
  · exact encode_teConfigure h
  · exact encode_teArm h
  · exact encode_of_chanOp (f := .teEnable) (fun _ => rfl) h
  · exact encode_of_chanOp (f := .teSuspend) (fun _ => rfl) h
  · exact encode_of_chanOp (f := .teResume) (fun _ => rfl) h
  · exact encode_of_chanOp (f := .teDisable) (fun _ => rfl) h
  · exact encode_ctConfigure h
  · exact encode_of_plainOp (j := .ctEnable) rfl h
  · exact encode_gtConfigure h
  · exact encode_of_plainOp (j := .gtRetrigger) rfl h
  · rw [hres] at h
    cases h

theorem encode_of_decodeK {k : Byte} {o : BitVec 64} {i : Instr} (h : decodeK k o = .ok i) :
    encode i = ⟨.k, k :: operandBytes o⟩ := by
  unfold decodeK at h
  split_ifs at h with hk
  have hbyte : (k.extractLsb' 2 4 ++ k.extractLsb' 0 2).setWidth 8 = k :=
    (eq_opByte_iff.2 ⟨not_not.1 hk, rfl, rfl⟩).symm
  rw [encode_of_decodeOp h, encodeOp, hbyte, operandBytes]

/-! ### Format D -/

theorem decodeD_ok {ctrl src dst next : Word} {slot : Byte} {i : Instr} :
    decodeD ctrl src dst next slot = .ok i ↔
      ∃ c, slot = chanByte c ∧ .descriptor c (Descriptor.ofWords ctrl src dst next) = i := by
  simp only [eq_chanByte_iff, ← ofCode_eq_some, decodeD]
  split_ifs with hs
  · have hne : ¬slot.extractLsb' 2 6 = 0#6 := hs
    simp [hne]
  · cases Chan.ofCode (slot.extractLsb' 0 2) <;> simp [not_not.1 hs]

/-! ### The steps without an encoding -/

theorem bareStep_ok {a lo hi : Byte} {i j : Instr} :
    bareStep a lo hi i = .ok j ↔ a = 0 ∧ lo = 0 ∧ hi = 0 ∧ i = j := by
  by_cases hz : a = 0 ∧ lo = 0 ∧ hi = 0
  · obtain ⟨rfl, rfl, rfl⟩ := hz
    simp [bareStep]
  · have hstray : (a ≠ 0 || lo ≠ 0 || hi ≠ 0) = true := by
      simpa [imp_iff_not_or, or_assoc] using hz
    rw [bareStep, if_pos hstray]
    exact ⟨nofun, fun ⟨ha, hlo, hhi, _⟩ => absurd ⟨ha, hlo, hhi⟩ hz⟩

theorem chanStep_ok {a : Byte} {stray : Bool} {f : Chan → Instr} {j : Instr} :
    chanStep a stray f = .ok j ↔ ∃ c, a = chanByte c ∧ stray = false ∧ f c = j := by
  simp only [eq_chanByte_iff, chanStep]
  split_ifs with ha
  · have hne : ¬a.extractLsb' 2 6 = 0#6 := ha
    simp [hne]
  · simp [not_not.1 ha, chanOp_ok]

theorem encode_of_bareStep {n a lo hi : Byte} {i j : Instr} (hj : encode j = ⟨.n, [n, 0, 0, 0]⟩)
    (h : bareStep a lo hi j = .ok i) : encode i = ⟨.n, [n, a, lo, hi]⟩ := by
  obtain ⟨rfl, rfl, rfl, rfl⟩ := bareStep_ok.1 h
  exact hj

theorem encode_teBeat {a lo hi : Byte} {i : Instr} (h : decodeN 3 a lo hi = .ok i) :
    encode i = ⟨.n, [3, a, lo, hi]⟩ := by
  obtain ⟨c, rfl, -, rfl⟩ := chanStep_ok.1 h
  exact congrArg (fun bytes => Code.mk .n (3 :: chanByte c :: bytes)) (bytes_le16 lo hi)

theorem encode_envHostSend {a lo hi : Byte} {i : Instr} (h : decodeN 7 a lo hi = .ok i) :
    encode i = ⟨.n, [7, a, lo, hi]⟩ := by
  obtain ⟨-, rfl, rfl, rfl⟩ := bareStep_ok.1 h
  rfl

theorem encode_envTrigger {a lo hi : Byte} {i : Instr} (h : decodeN 8 a lo hi = .ok i) :
    encode i = ⟨.n, [8, a, lo, hi]⟩ := by
  obtain ⟨c, rfl, hstray, rfl⟩ := chanStep_ok.1 h
  obtain ⟨rfl, rfl⟩ : lo = 0 ∧ hi = 0 := by simpa using hstray
  rfl

/-- The step numbers of log 9; any other is no step. -/
theorem step_cases (n : Byte) :
    n = 0 ∨ n = 1 ∨ n = 2 ∨ n = 3 ∨ n = 4 ∨ n = 5 ∨ n = 6 ∨ n = 7 ∨ n = 8 ∨ n = 9 ∨
      ∀ a lo hi, decodeN n a lo hi = .error .unknownStep := by
  by_contra! h
  obtain ⟨h0, h1, h2, h3, h4, h5, h6, h7, h8, h9, a, lo, hi, hx⟩ := h
  exact hx (by simp only [decodeN, h0, h1, h2, h3, h4, h5, h6, h7, h8, h9, if_false])

theorem encode_of_decodeN {n a lo hi : Byte} {i : Instr} (h : decodeN n a lo hi = .ok i) :
    encode i = ⟨.n, [n, a, lo, hi]⟩ := by
  obtain rfl | rfl | rfl | rfl | rfl | rfl | rfl | rfl | rfl | rfl | hnone := step_cases n
  · exact encode_of_bareStep (j := .hlPoll) rfl h
  · exact encode_of_bareStep (j := .asEval) rfl h
  · exact encode_of_bareStep (j := .hlDrain) rfl h
  · exact encode_teBeat h
  · exact encode_of_bareStep (j := .ctTick) rfl h
  · exact encode_of_bareStep (j := .gtTick) rfl h
  · exact encode_of_bareStep (j := .boot) rfl h
  · exact encode_envHostSend h
  · exact encode_envTrigger h
  · exact encode_of_bareStep (j := .envAltEdge) rfl h
  · rw [hnone] at h
    cases h

/-! ### The obligations -/

/-- Settles O2: format by format, the operands a decoder takes out of a code are put back where it found them. -/
theorem encodeOfDecode : Obligations.EncodeOfDecode := by
  rintro ⟨f, bytes⟩ i hf h
  unfold decode at h
  split at h
  case h_8 => cases h
  all_goals
    rename_i hformat hbytes
    obtain rfl : f = _ := hformat
    obtain rfl : bytes = _ := hbytes
  case h_1 b =>
    cases h
    exact encode_decodeByte b
  case h_2 => exact absurd rfl hf
  case h_3 => exact encode_of_decodeE h
  case h_4 b0 b1 =>
    cases h
    exact congrArg (Code.mk .s) (bytes_le16 b0 b1)
  case h_5 k o0 o1 o2 o3 o4 o5 o6 o7 => rw [encode_of_decodeK h, operandBytes_le64]
  case h_6 c0 c1 c2 c3 s0 s1 s2 s3 d0 d1 d2 d3 n0 n1 n2 n3 slot =>
    obtain ⟨c, rfl, rfl⟩ := decodeD_ok.1 h
    rw [encode, Descriptor.ctrl_ofWords]
    simp only [Descriptor.ofWords, wordBytes_le32, List.cons_append, List.nil_append]
  case h_7 => exact encode_of_decodeN h

/-- The code of format N, number and operands as the decoder takes them. -/
theorem decode_n (n a lo hi : Byte) : decode ⟨.n, [n, a, lo, hi]⟩ = decodeN n a lo hi := rfl

/-- Settles O1: the rows of each format, every operand in its own bits. -/
theorem decodeOfEncode : Obligations.DecodeOfEncode := by
  intro i hi
  cases i with
  | startJob | ampEnable | ampDisable | tIdleEmit | tEmitWait | tWaitListen | tListenIdle | hEmitDone | hGuardOvf | hCap0Done
  | hCap1Done | hAltTrig | hlPoll | asEval | hlDrain | ctTick | gtTick | boot | envAltEdge => rfl
  | rsvdLow low =>
    have hle : (low.setWidth 8 : Byte).toNat ≤ 0x0F := by
      have := low.isLt
      rw [BitVec.toNat_setWidth]
      omega
    refine congrArg Except.ok ((decodeByte_eq _).trans ?_)
    rw [if_neg (by omega), if_neg (by omega), if_neg (by omega), if_pos hle, BitVec.extractLsb'_setWidth_of_le (by decide),
      BitVec.extractLsb'_eq_self]
  | ignored b =>
    obtain ⟨hlo, hhi⟩ : IgnoredByte b := by simpa [Instr.encodable] using hi
    refine congrArg Except.ok ((decodeByte_eq b).trans ?_)
    rw [if_neg (by omega), if_neg (by omega), if_neg (by omega), if_neg (by omega)]
  | tNone v => exact (decodeT_setWidth v).trans (congrArg Except.ok (selectT_of_encodable hi))
  | csGenerate | ctEnable | gtRetrigger => exact (decode_encodeOp _ _ _).trans (plainOp_ok.2 ⟨rfl, rfl, rfl⟩)
  | teEnable c | teSuspend c | teResume c | teDisable c =>
    exact (decode_encodeOp _ _ _).trans (chanOp_ok.2 ⟨c, rfl, rfl, rfl⟩)
  | teConfigure c prio trigsrc burst =>
    obtain ⟨hstray, hprio, htrig, hburst⟩ := eq_pairs_iff.1 (rfl : (burst ++ trigsrc ++ prio).setWidth 64 = _)
    exact (decode_encodeOp _ _ _).trans (chanOp_ok.2 ⟨c, rfl, by simp [hstray], by rw [hprio, htrig, hburst]⟩)
  | teArm c a =>
    obtain ⟨hstray, ha⟩ := eq_setWidth_iff.1 (rfl : a.setWidth 64 = _)
    exact (decode_encodeOp _ _ _).trans (chanOp_ok.2 ⟨c, rfl, by simp [hstray], by rw [ha]⟩)
  | ctConfigure per duty ind =>
    obtain ⟨hstray, hper, hduty, hind⟩ := eq_halves_iff.1 (rfl : (ind ++ duty ++ per).setWidth 64 = _)
    exact (decode_encodeOp _ _ _).trans (plainOp_ok.2 ⟨rfl, by simp [hstray], by rw [hper, hduty, hind]⟩)
  | gtConfigure per cmp =>
    obtain ⟨hper, hcmp⟩ := eq_words_iff.1 (rfl : (cmp ++ per).setWidth 64 = _)
    exact (decode_encodeOp _ _ _).trans (plainOp_ok.2 ⟨rfl, rfl, by rw [hper, hcmp]⟩)
  | descriptor c d =>
    change decodeD (le32 _ _ _ _) (le32 _ _ _ _) (le32 _ _ _ _) (le32 _ _ _ _) _ = _
    simp only [le32_bytes]
    exact decodeD_ok.2 ⟨c, rfl, by rw [Descriptor.ofWords_ctrl]⟩
  | sample v => exact congrArg (Except.ok ∘ Instr.sample) (le16_bytes v)
  | teBeat c v => exact (decode_n _ _ _ _).trans (chanStep_ok.2 ⟨c, rfl, rfl, by rw [le16_bytes]⟩)
  | envHostSend b => exact (decode_n _ _ _ _).trans (bareStep_ok.2 ⟨rfl, rfl, rfl, rfl⟩)
  | envTrigger c => exact (decode_n _ _ _ _).trans (chanStep_ok.2 ⟨c, rfl, rfl, rfl⟩)

/-- Settles O3: each outcome is one of the five ranges of the map. -/
theorem hostOpcodeMap : Obligations.HostOpcodeMap := by
  intro b
  have hb := b.isLt
  rw [decodeByte_eq]
  refine ⟨congrArg Except.ok (decodeByte_eq b), ?_⟩
  split_ifs <;> simp <;> omega

/-- Settles O4: each word is read by its format's row. -/
theorem writtenWordsDecode : Obligations.WrittenWordsDecode :=
  ⟨rfl, rfl, rfl, rfl, rfl, rfl⟩

/-! ### Format S on the link -/

/-- Settles O11: the two bytes are the sample modulo and divided by 256. -/
theorem sampleSent : Obligations.SampleSent := by
  intro s v
  refine ⟨byteOf v 0, byteOf v 1, rfl, rfl, rfl, ?_⟩
  rw [toNat_byteOf, toNat_byteOf]
  have := v.isLt
  omega

end Sys2Proof.Proofs
end

section
/-! PROOF. The rest of a block fed element by element (30_encoding.md R105, 41_transfer_engine.md R160, R162, R164): what one
trigger and beat leave, and by induction what all that remain leave, for any channel. -/

namespace Sys2Proof.Proofs

open Sys2Proof Sys2Proof.Machine

/-! ### One element -/

/-- What the element move of a booted channel writes when `k` elements of its block are done (`moveElement_deliver`): element `k` of
CHIRP to the port, or the value drawn to element `k` of the channel's buffer. -/
def deliver (c : Chan) (s : State) (k : Nat) (v : Half) : State :=
  match c with
  | .emit =>
    { s with dacOut := s.element s.cfg.chirpBase k, dacTrace := s.dacTrace ++ [s.element s.cfg.chirpBase k] }
  | c => { s with mem := s.mem.writeLE ((dstRegion c).base s.cfg + 2 * k) .b2 (v.setWidth 32) }

theorem chan_deliver (c d : Chan) (s : State) (k : Nat) (v : Half) : (deliver c s k v).chan d = s.chan d := by
  cases c <;> cases d <;> rfl

theorem deliver_cfg (c : Chan) (s : State) (k : Nat) (v : Half) : (deliver c s k v).cfg = s.cfg := by
  cases c <;> rfl

theorem deliver_setChan (c : Chan) (s : State) (r : ChanRegs) (k : Nat) (v : Half) :
    deliver c (s.setChan c r) k v = (deliver c s k v).setChan c r := by
  cases c <;> rfl

/-- An element of a buffer is the 16-bit read at its address (R247, R69). -/
theorem element_eq_readLE (s : State) (base k : Nat) : s.element base k = (s.mem.readLE (base + 2 * k) .b2).setWidth 16 := by
  simp [State.element, Memory.readLE]

theorem moveElement_deliver {s : State} {c : Chan} (hl : s.cfg.Legal) (h : ChanRegs.Booted s.cfg c (s.chan c)) (v : Half) :
    s.moveElement c v =
      .ok ((deliver c s (blockCount s.cfg c - (s.chan c).wCnt.toNat) v).setChan c ((s.chan c).beat .b2)) := by
  obtain ⟨u, hu, hcase⟩ := State.moveElement_boot hl h v
  obtain ⟨-, -, hsrc⟩ := h.src_holds hl
  obtain ⟨-, -, hdst⟩ := h.dst_holds hl
  rw [hu]
  obtain ⟨rfl, o, rfl, rfl⟩ | ⟨hc, rfl⟩ := hcase
  · rw [hsrc]
    simp only [deliver, element_eq_readLE]
    rfl
  · rw [hdst]
    cases c with
    | emit => exact absurd rfl hc
    | cap0 => rfl
    | cap1 => rfl

/-! ### A trigger and its beat -/

/-- A proper state in which the channel is ACTIVE and no trigger is pending on any channel. -/
structure Ready (s : State) (c : Chan) : Prop where
  proper : s.Proper
  active : (s.chan c).state = .active
  quiet : ∀ d, (s.chan d).trig = false

/-- The state with a trigger of channel `c` latched (R159). -/
def triggered (s : State) (c : Chan) : State := s.setChan c { s.chan c with trig := true }

theorem Ready.exec_envTrigger {s : State} {c : Chan} (h : Ready s c) : exec (.envTrigger c) s = .next (triggered s c) := by
  have hsrc : (s.chan c).trigSrc ≠ 0 := by rw [(h.proper.chan c).trigSrc]; cases c <;> decide
  change execEnvTrigger c s = _
  rw [execEnvTrigger, if_neg hsrc]
  simp [State.chState, h.active, h.quiet c, triggered]

theorem Ready.proper_triggered {s : State} {c : Chan} (h : Ready s c) : (triggered s c).Proper :=
  (Move.trigger c h.active).proper h.proper

/-- The arbiter grants the one candidate there is (R161). -/
theorem grant_eq_of_only {s : State} {c : Chan} (hc : s.candidate c = true) (h : ∀ d, d ≠ c → s.candidate d = false) :
    s.grant = some c := by
  cases hg : s.grant with
  | none => simp [State.grant_none hg c] at hc
  | some d =>
    have hd := (State.grant_spec hg).1
    by_contra hne
    simp [h d (by simpa using hne)] at hd

theorem Ready.grant_triggered {s : State} {c : Chan} (h : Ready s c) : (triggered s c).grant = some c := by
  refine grant_eq_of_only ?_ fun d hd => ?_
  · simp [State.candidate, State.chState, triggered, h.active]
  · simp [State.candidate, triggered, State.chan_setChan_other _ hd, h.quiet d]

/-- The element move after a trigger is the one before it, the trigger served. -/
theorem Ready.moveElement_triggered {s : State} {c : Chan} (h : Ready s c) (v : Half) :
    (triggered s c).moveElement c v =
      .ok ((deliver c s (blockCount s.cfg c - (s.chan c).wCnt.toNat) v).setChan c ((s.chan c).beat .b2)) := by
  have hp := h.proper_triggered
  rw [moveElement_deliver hp.legal (hp.chan c)]
  simp only [triggered, State.setChan_cfg, State.chan_setChan_same, deliver_setChan, State.setChan_setChan]
  rfl

theorem runAll_feed {s t u : State} {c : Chan} {v : Half} (ht : exec (.envTrigger c) s = .next t)
    (hu : exec (.teBeat c v) t = .next u) (rest : List Instr) : runAll (feed c v ++ rest) s = runAll rest u := by
  simp [feed, runAll, ht, hu]

/-- The state after an element that is not the block's last. -/
def afterFeed (s : State) (c : Chan) (v : Half) : State :=
  (deliver c s (blockCount s.cfg c - (s.chan c).wCnt.toNat) v).setChan c ((s.chan c).beat .b2)

theorem Ready.exec_teBeat {s : State} {c : Chan} (h : Ready s c) (hn : 2 ≤ (s.chan c).wCnt.toNat) (v : Half) :
    exec (.teBeat c v) (triggered s c) = .next (afterFeed s c v) := by
  have hmove := h.moveElement_triggered v
  have hbeat : ((triggered s c).chan c).beat .b2 = (s.chan c).beat .b2 := by
    rw [triggered, State.chan_setChan_same]
    rfl
  rw [← hbeat] at hmove
  rw [exec_teBeat_of_move h.grant_triggered (by simpa [triggered] using hn) hmove, hbeat, afterFeed]

theorem Ready.ready_afterFeed {s : State} {c : Chan} (h : Ready s c) (hn : 2 ≤ (s.chan c).wCnt.toNat) (v : Half) :
    Ready (afterFeed s c v) c where
  proper := by
    obtain ⟨t, ht, hp⟩ := proper_kept (i := .teBeat c v) h.proper_triggered (by simp [State.enabled, h.grant_triggered])
    rw [h.exec_teBeat hn v] at ht
    cases ht
    exact hp
  active := by
    rw [afterFeed, State.chan_setChan_same]
    exact h.active
  quiet d := by
    by_cases hd : d = c
    · rw [hd, afterFeed, State.chan_setChan_same]
      rfl
    · rw [afterFeed, State.chan_setChan_other _ hd, chan_deliver]
      exact h.quiet d

theorem wCnt_afterFeed {s : State} {c : Chan} (v : Half) (hn : 1 ≤ (s.chan c).wCnt.toNat) :
    ((afterFeed s c v).chan c).wCnt.toNat = (s.chan c).wCnt.toNat - 1 := by
  rw [afterFeed, State.chan_setChan_same]
  exact blockDown_toNat hn

/-- A channel back at the start of its block holds what boot left in it (R164). -/
theorem rewound_eq_bootedChan {p : Params} (hl : p.Legal) {c : Chan} {r : ChanRegs} (h : r.Booted p c) :
    rewound p c (r.beat .b2) = bootedChan p c := by
  have hctrl := bootDescriptor_ctrl hl.1 c
  have hnext := bootDescriptor_next p c
  have hcount : (bootDescriptor p c).count = BitVec.ofNat 16 (blockCount p c) := by cases c <;> rfl
  have hsrc : (bootDescriptor p c).src = BitVec.ofNat 32 (bootSrc p c) := by cases c <;> rfl
  have hdst : (bootDescriptor p c).dst = BitVec.ofNat 32 (bootDst p c) := by cases c <;> rfl
  rw [rewound, ChanRegs.load, ChanRegs.beat, hctrl, hnext, hcount, hsrc, hdst, h.prio, h.trigSrc, h.burst, h.descPtr]
  rfl

/-- The records of DESC stand while an element is delivered. -/
theorem holdsDescriptor_deliver {s : State} {c : Chan} (h : s.Proper) (v : Half) (d : Chan) :
    (deliver c s (blockCount s.cfg c - (s.chan c).wCnt.toNat) v).HoldsDescriptor d := by
  obtain ⟨m, o, l, hk, hm⟩ := moveElement_proper h c v
  rw [moveElement_deliver h.legal (h.chan c)] at hm
  have hmem := congrArg State.mem (Except.ok.inj hm)
  simp only [State.setChan_mem] at hmem
  have hd := hk.desc d
  simpa only [State.HoldsDescriptor, deliver_cfg, hmem] using hd

/-- The last element of a block: the event is signalled and the channel is as boot left it (R162, R164). -/
theorem Ready.exec_teBeat_last {s : State} {c : Chan} (h : Ready s c) (hn : (s.chan c).wCnt.toNat = 1) (v : Half) :
    exec (.teBeat c v) (triggered s c) =
      .next (((deliver c s (blockCount s.cfg c - 1) v).signal (completionEvent c)).setChan c (bootedChan s.cfg c)) := by
  have hl := h.proper.legal
  have hb := h.proper.chan c
  have hzero : ((s.chan c).beat .b2).wCnt = 0 := by
    apply BitVec.eq_of_toNat_eq
    have hcnt : (blockDown (s.chan c).wCnt).toNat = (s.chan c).wCnt.toNat - 1 := blockDown_toNat (by omega)
    simp [ChanRegs.beat, hcnt, hn]
  have hmove := h.moveElement_triggered v
  have hdesc := holdsDescriptor_deliver (c := c) h.proper v c
  rw [hn] at hmove hdesc
  have hblock := blockComplete_setChan (r := (s.chan c).beat .b2) (deliver_cfg c s _ v) hl hdesc hb.ctrl hb.next h.active
  change answer ((triggered s c).teBeat c v) = _
  rw [teBeat_of_move h.grant_triggered hmove, if_pos hzero, hblock, answer_ok, rewound_eq_bootedChan hl hb]

/-! ### All the elements that remain -/

/-- Elements `k`, `k + 1` and so on of a block delivered in order. -/
def deliverAll (c : Chan) : State → Nat → List Half → State
  | s, _, [] => s
  | s, k, v :: vs => deliverAll c (deliver c s k v) (k + 1) vs

theorem deliverAll_setChan (c : Chan) (s : State) (r : ChanRegs) (k : Nat) (vs : List Half) :
    deliverAll c (s.setChan c r) k vs = (deliverAll c s k vs).setChan c r := by
  induction vs generalizing s k with
  | nil => rfl
  | cons v vs ih => rw [deliverAll, deliver_setChan, ih, deliverAll]

/-- Fed the rest of its block, a channel delivers every element that remains, signals its event once, and is SUSPENDED at the start
of the same block (R162, R164). -/
theorem Ready.runAll_block {s : State} {c : Chan} {vs : List Half} (h : Ready s c) (hn : vs.length = (s.chan c).wCnt.toNat) :
    runAll (vs.map (feed c)).flatten s =
      .next (((deliverAll c s (blockCount s.cfg c - vs.length) vs).signal (completionEvent c)).setChan c
        (bootedChan s.cfg c)) := by
  induction vs generalizing s with
  | nil =>
    have hpos := (h.proper.chan c).count.1
    rw [← hn] at hpos
    exact absurd hpos (by decide)
  | cons v vs ih =>
    rw [List.map_cons, List.flatten_cons]
    rw [List.length_cons] at hn
    by_cases hlast : vs = []
    · subst hlast
      rw [runAll_feed h.exec_envTrigger (h.exec_teBeat_last hn.symm v)]
      rfl
    · have hpos : 1 ≤ vs.length := List.length_pos_iff.2 hlast
      have hcnt := wCnt_afterFeed (s := s) (c := c) v (by omega)
      have hle := (h.proper.chan c).count.2
      have hcfg : (afterFeed s c v).cfg = s.cfg := by rw [afterFeed, State.setChan_cfg, deliver_cfg]
      have hk : blockCount s.cfg c - (vs.length + 1) + 1 = blockCount s.cfg c - vs.length := by omega
      rw [runAll_feed h.exec_envTrigger (h.exec_teBeat (by omega) v), ih (h.ready_afterFeed (by omega) v) (by omega), hcfg,
        List.length_cons, deliverAll, hk, afterFeed, deliverAll_setChan, setChan_signal, State.setChan_setChan, hn]

/-! ### The emission block -/

theorem deliverAll_emit (s : State) (k : Nat) (v : Half) (vs : List Half) :
    deliverAll .emit s k (v :: vs) = { s with
      dacOut := s.element s.cfg.chirpBase (k + vs.length)
      dacTrace := s.dacTrace ++ (List.range' k (vs.length + 1)).map (s.element s.cfg.chirpBase) } := by
  induction vs generalizing s k v with
  | nil => rfl
  | cons w ws ih =>
    rw [deliverAll, ih]
    simp only [deliver, List.length_cons, List.range'_succ, List.map_cons]
    simp [State.element, Nat.add_assoc, Nat.add_comm 1]

/-- In Emit the lines of the other units are low, and so is channel 0's while it is ACTIVE (R224). -/
theorem evtPending_emit {s : State} (h : s.Proper) (ha : s.acqState = .emit) (h0 : s.ch0.state = .active) : s.evtPending = 0 := by
  have row := (row_iff s).1 h.row
  have hrest : ∀ c, busyState c ≠ .emit → s.pending (completionEvent c) = false :=
    fun c hc => (row.resting c (by rwa [ha])).event
  obtain ⟨-, hdone, -⟩ := row.active (c := .emit) h0
  obtain ⟨-, hguard, -⟩ := row.stopped (by simp [ha])
  rw [evtPending_eq_zero_iff, forall_event]
  exact ⟨hdone, hguard, hrest .cap0 (by decide), hrest .cap1 (by decide), row.noEdge⟩

/-- A channel that is not ACTIVE has no trigger pending (R159). -/
theorem trig_of_not_active {s : State} (h : s.Proper) {c : Chan} (hc : (s.chan c).state ≠ .active) : (s.chan c).trig = false := by
  by_contra ht
  exact hc ((h.chan c).trig (by simpa using ht))

/-- A channel that is not at work in this state has no trigger pending (R224). -/
theorem trig_of_resting {s : State} (h : s.Proper) {c : Chan} (hc : busyState c ≠ s.acqState) : (s.chan c).trig = false := by
  have hs := (((row_iff s).1 h.row).resting c hc).suspended
  exact trig_of_not_active h (by simp [hs])

/-- Settles O41: the block of channel 0, whose elements are CHIRP's in index order. -/
theorem emissionBlock : Obligations.EmissionBlock := by
  intro s hp ha h0 ht
  have hready : Ready s .emit :=
    ⟨hp, h0, forall_chan.2 ⟨ht, trig_of_resting (c := .cap0) hp (by simp [ha, busyState]),
      trig_of_resting (c := .cap1) hp (by simp [ha, busyState])⟩⟩
  obtain ⟨hpos, hle⟩ := (hp.chan .emit).count
  change 1 ≤ s.ch0.wCnt.toNat at hpos
  change s.ch0.wCnt.toNat ≤ s.cfg.nChirp at hle
  have hrun := hready.runAll_block (vs := List.replicate s.ch0.wCnt.toNat 0) List.length_replicate
  obtain ⟨n, hn⟩ : ∃ n, s.ch0.wCnt.toNat = n + 1 := ⟨s.ch0.wCnt.toNat - 1, by omega⟩
  rw [List.map_replicate, List.length_replicate] at hrun
  rw [hrun, hn, List.replicate_succ, deliverAll_emit, List.length_replicate]
  have hk : blockCount s.cfg .emit - (n + 1) + n = s.cfg.nChirp - 1 := by
    change s.cfg.nChirp - (n + 1) + n = _
    omega
  have hev := evtPending_emit hp ha h0
  rw [hk]
  simp [State.signal, State.setChan, hev, completionEvent, Event.mask, blockCount]

/-! ### A capture block -/

/-- A list of values stored as elements `k`, `k + 1` and so on of the buffer at `base`. -/
def storeElements (base : Nat) : Memory → Nat → List Half → Memory
  | m, _, [] => m
  | m, k, v :: vs => storeElements base (m.writeLE (base + 2 * k) .b2 (v.setWidth 32)) (k + 1) vs

theorem deliverAll_capture {c : Chan} (hc : c ≠ .emit) (s : State) (k : Nat) (vs : List Half) :
    deliverAll c s k vs = { s with mem := storeElements ((dstRegion c).base s.cfg) s.mem k vs } := by
  induction vs generalizing s k with
  | nil => rfl
  | cons v vs ih =>
    rw [deliverAll, ih, storeElements]
    cases c with
    | emit => exact absurd rfl hc
    | cap0 => rfl
    | cap1 => rfl

theorem read_storeElements_outside (base : Nat) (m : Memory) (k : Nat) (vs : List Half) {a : Nat}
    (h : a < base + 2 * k ∨ base + 2 * (k + vs.length) ≤ a) : Memory.read (storeElements base m k vs) a = Memory.read m a := by
  induction vs generalizing m k with
  | nil => rfl
  | cons v vs ih =>
    rw [List.length_cons] at h
    rw [storeElements, ih _ _ (by omega), Memory.read_writeLE_outside]
    simp only [Size.bytes]
    omega

/-- The values stored are the elements of the buffer, in order. -/
theorem element_storeElements (s : State) (base : Nat) (m : Memory) (k : Nat) (vs : List Half) {j : Nat} (hj : j < vs.length) :
    ({ s with mem := storeElements base m k vs } : State).element base (k + j) = vs.getD j 0 := by
  induction vs generalizing m k j with
  | nil => exact absurd hj (Nat.not_lt_zero j)
  | cons v vs ih =>
    rw [storeElements]
    cases j with
    | zero =>
      have hlow := read_storeElements_outside base (m.writeLE (base + 2 * k) .b2 (v.setWidth 32)) (k + 1) vs
        (a := base + 2 * k) (by omega)
      have hhigh := read_storeElements_outside base (m.writeLE (base + 2 * k) .b2 (v.setWidth 32)) (k + 1) vs
        (a := base + 2 * k + 1) (by omega)
      simp only [State.element, Nat.add_zero, hlow, hhigh, Memory.read_writeLE_b2]
      simp [le16_bytes_word]
    | succ j =>
      rw [List.getD_cons_succ, show k + (j + 1) = k + 1 + j by omega]
      exact ih _ _ (by simpa using hj)

/-- Settles O42: the block of a capture channel, whose elements are the values fed. -/
theorem captureBlock : Obligations.CaptureBlock := by
  intro s c vs base hp ha hown hact h1 h2 hlen
  have hc : c ≠ .emit := by rintro rfl; simp at hown
  have hbase : base = (dstRegion c).base s.cfg := by obtain ⟨rfl, rfl⟩ | ⟨rfl, rfl⟩ := hown <;> rfl
  have hcount : blockCount s.cfg c = s.cfg.nCap := by obtain ⟨rfl, -⟩ | ⟨rfl, -⟩ := hown <;> rfl
  have hmask : (completionEvent c).mask = if c = Chan.cap0 then 0b00100#5 else 0b01000#5 := by
    obtain ⟨rfl, -⟩ | ⟨rfl, -⟩ := hown <;> rfl
  have hready : Ready s c := ⟨hp, hact, forall_chan.2 ⟨trig_of_resting (c := .emit) hp (by simp [ha, busyState]), h1, h2⟩⟩
  have hle := (hp.chan c).count.2
  have hrun := hready.runAll_block hlen
  rw [deliverAll_capture hc, hcount, ← hbase] at hrun
  refine ⟨_, hrun, ?_, fun k hk => ?_, fun a h => ?_⟩
  · rw [State.setChan_mem, State.signal_mem, ← hmask, State.signal]
  · rw [← element_storeElements s base s.mem (s.cfg.nCap - vs.length) vs hk]
    simp [State.element]
  · rw [State.setChan_mem, State.signal_mem]
    exact read_storeElements_outside base s.mem _ vs (by omega)

end Sys2Proof.Proofs
end

section
/-! PROOF. What CS_GENERATE leaves in CHIRP and in its registers (40_chirp_synth.md R121 to R134): the state after it, the samples and
their range, the closed form of the phases, and the parameters that generation reads. -/

namespace Sys2Proof.Proofs

open Sys2Proof Sys2Proof.Machine

/-! ### The state after generation (R128) -/

/-- The registers when `k` samples are stored. -/
def synthRegs (p : Params) (k : Nat) : SynthRegs := (synthNext p)^[k] (synthStart p)

/-- The state CS_GENERATE answers during boot (`exec_csGenerate`). -/
def generated (s : State) : State := { s with cs := (generate s.cfg s.mem).1, mem := (generate s.cfg s.mem).2 }

theorem exec_csGenerate {s : State} (hl : s.cfg.Legal) (hp : s.phase = .boot) : exec .csGenerate s = .next (generated s) := by
  change answer s.generateChirp = _
  rw [State.generateChirp_legal hl hp]
  rfl

theorem nChirp_bounds {p : Params} (hl : p.Legal) : 2 ≤ p.nChirp ∧ p.nChirp ≤ 65535 := by
  obtain ⟨⟨hmin, hmax, -⟩, -⟩ := hl
  exact ⟨hmin, hmax⟩

theorem levels_le {p : Params} (hl : p.Legal) : p.levels ≤ 65535 := by
  obtain ⟨⟨-, -, -, -, hmax, -⟩, -⟩ := hl
  exact hmax

theorem legalWidths {p : Params} (hl : p.Legal) : p.LegalWidths := by
  obtain ⟨⟨-, -, -, -, -, -, -, -, -, hwidths⟩, -⟩ := hl
  exact hwidths

theorem generated_cs {s : State} (hl : s.cfg.Legal) :
    (generated s).cs = { synthRegs s.cfg s.cfg.nChirp with genDone := true } :=
  (generate_spec s.cfg s.mem (nChirp_bounds hl).1 (nChirp_bounds hl).2).1

theorem generated_element {s : State} (hl : s.cfg.Legal) {k : Nat} (hk : k < s.cfg.nChirp - 1) :
    (generated s).element s.cfg.chirpBase k = sampleAt s.cfg (synthRegs s.cfg k) := by
  obtain ⟨-, hread, -⟩ := generate_spec s.cfg s.mem (nChirp_bounds hl).1 (nChirp_bounds hl).2
  rw [element_eq_readLE]
  simp [generated, hread k hk, synthRegs]

/-- Line 9 of R128 forces the last sample (R122). -/
theorem generated_element_last {s : State} (hl : s.cfg.Legal) :
    (generated s).element s.cfg.chirpBase (s.cfg.nChirp - 1) = 0 := by
  obtain ⟨-, -, hlast, -⟩ := generate_spec s.cfg s.mem (nChirp_bounds hl).1 (nChirp_bounds hl).2
  rw [element_eq_readLE]
  simp [generated, hlast]

theorem generated_read_outside {s : State} (hl : s.cfg.Legal) {a : Nat}
    (ha : a < s.cfg.chirpBase ∨ s.cfg.chirpBase + 2 * s.cfg.nChirp ≤ a) :
    Memory.read (generated s).mem a = Memory.read s.mem a := by
  obtain ⟨-, -, -, hout, -⟩ := generate_spec s.cfg s.mem (nChirp_bounds hl).1 (nChirp_bounds hl).2
  exact hout a ha

/-! ### The registers of the loop (R124, R128) -/

theorem synthRegs_succ (p : Params) (k : Nat) : synthRegs p (k + 1) = synthNext p (synthRegs p k) :=
  Function.iterate_succ_apply' ..

theorem synthRegs_genIdx (p : Params) {k : Nat} (hk : k ≤ 65535) : (synthRegs p k).genIdx.toNat = k := by
  rw [synthRegs, synthNext_iterate_genIdx]
  have hstart : (synthStart p).genIdx.toNat = 0 := rfl
  rw [BitVec.toNat_add, hstart, BitVec.toNat_ofNat]
  omega

theorem synthRegs_winPh (p : Params) (k : Nat) : (synthRegs p k).winPh = BitVec.ofNat 48 k * wtw p := by
  rw [synthRegs, synthNext_iterate_winPh]
  exact BitVec.zero_add _

theorem synthRegs_ncoFr (p : Params) (k : Nat) : (synthRegs p k).ncoFr = ftw0 p + BitVec.ofNat 48 k * crw p :=
  synthNext_iterate_ncoFr p k (synthStart p)

/-- The second accumulator of R124 sums the first, so the rate counts `0 + 1 + ... + (k - 1)` times. -/
theorem synthRegs_ncoPh (p : Params) (k : Nat) :
    (synthRegs p k).ncoPh = ph0 p + BitVec.ofNat 48 k * ftw0 p + BitVec.ofNat 48 (k * (k - 1) / 2) * crw p := by
  induction k with
  | zero => simp [synthRegs, synthStart]
  | succ k ih =>
    have hnext : (synthRegs p (k + 1)).ncoPh = (synthRegs p k).ncoPh + (synthRegs p k).ncoFr := by rw [synthRegs_succ]; rfl
    rw [hnext, ih, synthRegs_ncoFr, Nat.triangle_succ]
    simp only [BitVec.ofNat_add, BitVec.add_mul, BitVec.one_mul]
    ac_rfl

/-! ### The rounding that R120 and R129 share

With `u` the square of the unit twice over, both are `floor((levels * (u + x) + u) / (2 * u))`, where `x` is the product of the two factors. -/

theorem rounding_range {n u x : Int} (hn : 0 ≤ n) (hu : 0 < u) (hx : -u ≤ x ∧ x ≤ u) :
    0 ≤ (n * (u + x) + u) / (2 * u) ∧ (n * (u + x) + u) / (2 * u) ≤ n := by
  have hlow : 0 ≤ n * (u + x) := mul_nonneg hn (by omega)
  have hhigh : n * (u + x) ≤ n * (2 * u) := mul_le_mul_of_nonneg_left (by omega) hn
  constructor
  · exact Int.ediv_nonneg (by omega) (by omega)
  · have hlt : n * (u + x) + u < (n + 1) * (2 * u) := by rw [add_mul]; omega
    have := Int.ediv_lt_of_lt_mul (by omega) hlt
    omega

/-- Where the product is 0 the sample is half of the levels, rounded half up. -/
theorem rounding_of_zero (n : Int) {u : Int} (hu : 0 < u) : (n * (u + 0) + u) / (2 * u) = (n + 1) / 2 := by
  have hfactor : n * (u + 0) + u = (n + 1) * u := by ring
  rw [hfactor, Int.mul_ediv_mul_of_pos_left _ _ hu]

/-- A cosine within one unit times a window within two units. -/
theorem abs_mul_window_le {v a w : Int} (ha : -v ≤ a ∧ a ≤ v) (hw : 0 ≤ w ∧ w ≤ 2 * v) :
    -(2 * (v * v)) ≤ a * w ∧ a * w ≤ 2 * (v * v) := by
  have hbound : v * w ≤ v * (2 * v) := mul_le_mul_of_nonneg_left hw.2 (by omega)
  have hlow : -v * w ≤ a * w := mul_le_mul_of_nonneg_right ha.1 hw.1
  have hhigh : a * w ≤ v * w := mul_le_mul_of_nonneg_right ha.2 hw.1
  constructor <;> linarith

/-! ### The sample of the datapath (R129) -/

theorem ampUnit_eq {p : Params} (h : p.LegalWidths) : ampUnit p = 2 ^ 30 := by
  obtain ⟨-, -, hamp, -⟩ := h
  simp [ampUnit, hamp]

theorem roundSample_eq {p : Params} (h : p.LegalWidths) (raw w2 : Int) :
    roundSample p raw w2 = ((p.levels : Int) * (2 ^ 61 + raw * w2) + 2 ^ 61) / (2 * 2 ^ 61) := by
  simp [roundSample, ampUnit_eq h]

theorem hwSample_range {p : Params} (h : p.LegalWidths) (ph win : Phase) :
    0 ≤ hwSample p ph win ∧ hwSample p ph win ≤ p.levels := by
  have hwin := cosq_range h win
  rw [hwSample, roundSample_eq h, ampUnit_eq h]
  exact rounding_range (Int.natCast_nonneg _) (by norm_num)
    (abs_mul_window_le (cosq_range h ph) (w := 2 ^ 30 - cosq p win) (by omega))

/-- At window phase 0 the window is 0, whatever the carrier is (R134). -/
theorem hwSample_window_zero {p : Params} (h : p.LegalWidths) (ph : Phase) : hwSample p ph 0 = ((p.levels : Int) + 1) / 2 := by
  obtain ⟨-, hone, -⟩ := cosineRange p h
  have hwindow : ampUnit p - cosq p 0 = 0 := by rw [ampUnit_eq h, hone]; rfl
  rw [hwSample, hwindow, roundSample_eq h, mul_zero]
  exact rounding_of_zero _ (by norm_num)

/-! ### The sample of the document's expression (R120) -/

/-- Both ends lie within one unit of 0. -/
def Bounded (unit : Nat) (e : Enclosure) : Prop := (-unit ≤ e.lo ∧ e.lo ≤ unit) ∧ -unit ≤ e.hi ∧ e.hi ≤ unit

theorem bounded_clamp (unit : Nat) (e : Enclosure) : Bounded unit (e.clamp unit) := by
  simp only [Bounded, Enclosure.clamp]
  omega

theorem bounded_exact {unit n : Nat} (h : n ≤ unit) : Bounded unit ⟨n, n⟩ := by
  simp only [Bounded]
  omega

theorem Bounded.neg {unit : Nat} {e : Enclosure} (h : Bounded unit e) : Bounded unit ⟨-e.hi, -e.lo⟩ := by
  obtain ⟨hlo, hhi⟩ := h
  simp only [Bounded]
  omega

theorem bounded_cosQuarter (bits : Nat) (q : Rat) : Bounded (2 ^ bits) (cosQuarter bits q) := by
  unfold cosQuarter
  dsimp only
  split
  · exact bounded_exact le_rfl
  split
  · exact bounded_exact (Nat.zero_le _)
  split
  · exact bounded_exact (Nat.div_le_self _ _)
  · exact bounded_clamp ..

theorem bounded_cosTurn (bits : Nat) (q : Rat) : Bounded (2 ^ bits) (cosTurn bits q) := by
  unfold cosTurn
  extract_lets f g
  split
  · exact bounded_cosQuarter ..
  · exact (bounded_cosQuarter ..).neg

theorem cosTurn_zero (bits : Nat) : cosTurn bits 0 = ⟨(2 ^ bits : Nat), (2 ^ bits : Nat)⟩ := by
  have hfloor : (0 : Rat).floor = 0 := by decide
  have hhalf : (0 : Rat) ≤ mkRat 1 2 := by decide
  have hquarter : (0 : Rat) ≤ mkRat 1 4 := by decide
  simp [cosTurn, cosQuarter, hfloor, hhalf, hquarter]

/-- The lower rounding is the shared one, at the least product of the two enclosures. -/
theorem refBounds_lo (bits : Nat) (p : Params) (i : Nat) {sq : Int} (hsq : sq = ((2 ^ bits : Nat) : Int) * (2 ^ bits : Nat))
    {raw c : Enclosure} (hraw : raw = cosTurn bits (refPhase p i)) (hc : c = cosTurn bits ((i : Rat) / ((p.nChirp : Rat) - 1))) :
    (refBounds bits p i).lo =
      ((p.levels : Int) * (2 * sq + raw.lo * ((2 ^ bits : Nat) - if 0 ≤ raw.lo then c.hi else c.lo)) + 2 * sq) /
        (2 * (2 * sq)) := by
  subst hsq hraw hc
  simp only [refBounds]
  split <;> ring_nf

theorem refBounds_lo_range (bits : Nat) (p : Params) (i : Nat) :
    0 ≤ (refBounds bits p i).lo ∧ (refBounds bits p i).lo ≤ p.levels := by
  obtain ⟨hraw, -⟩ := bounded_cosTurn bits (refPhase p i)
  obtain ⟨hclo, hchi⟩ := bounded_cosTurn bits ((i : Rat) / ((p.nChirp : Rat) - 1))
  have hpos : (0 : Int) < (2 ^ bits : Nat) := by positivity
  rw [refBounds_lo bits p i rfl rfl rfl]
  refine rounding_range (Int.natCast_nonneg _) (by positivity) (abs_mul_window_le hraw ?_)
  split <;> omega

theorem refBounds_lo_zero (bits : Nat) (p : Params) : (refBounds bits p 0).lo = ((p.levels : Int) + 1) / 2 := by
  have hwindow : (⟨(2 ^ bits : Nat), (2 ^ bits : Nat)⟩ : Enclosure) = cosTurn bits (((0 : Nat) : Rat) / ((p.nChirp : Rat) - 1)) := by
    rw [Nat.cast_zero, zero_div, cosTurn_zero]
  rw [refBounds_lo bits p 0 rfl rfl hwindow, ite_self, sub_self, mul_zero]
  exact rounding_of_zero _ (by positivity)

/-- However often the bits are doubled, the answer is a lower rounding. -/
theorem refRound_eq_lo (p : Params) (i n bits : Nat) : ∃ b, refRound p i n bits = (refBounds b p i).lo := by
  induction n generalizing bits with
  | zero => exact ⟨bits, rfl⟩
  | succ n ih =>
    simp only [refRound]
    split
    · exact ⟨bits, rfl⟩
    · exact ih (2 * bits)

theorem refSample_range (p : Params) (i : Nat) : 0 ≤ refSample p i ∧ refSample p i ≤ p.levels := by
  obtain ⟨b, hb⟩ := refRound_eq_lo p i (refDoublings p i) 160
  rw [refSample, hb]
  exact refBounds_lo_range b p i

theorem refSample_zero (p : Params) : refSample p 0 = ((p.levels : Int) + 1) / 2 := by
  obtain ⟨b, hb⟩ := refRound_eq_lo p 0 (refDoublings p 0) 160
  rw [refSample, hb, refBounds_lo_zero]

/-! ### The element stored (R128 line 3, R130) -/

/-- The number line 3 of R128 stores, under either implementation. -/
def sampleValue (p : Params) (r : SynthRegs) : Int :=
  match p.chirpImpl with
  | .nco => hwSample p r.ncoPh r.winPh
  | .reference => refSample p r.genIdx.toNat

theorem sampleAt_eq (p : Params) (r : SynthRegs) : sampleAt p r = BitVec.ofInt 16 (sampleValue p r) := by
  unfold sampleAt sampleValue
  cases p.chirpImpl <;> rfl

theorem sampleValue_range {p : Params} (h : p.LegalWidths) (r : SynthRegs) :
    0 ≤ sampleValue p r ∧ sampleValue p r ≤ p.levels := by
  unfold sampleValue
  split
  · exact hwSample_range h ..
  · exact refSample_range ..

theorem sampleValue_start {p : Params} (h : p.LegalWidths) : sampleValue p (synthStart p) = ((p.levels : Int) + 1) / 2 := by
  unfold sampleValue
  split
  · exact hwSample_window_zero h _
  · exact refSample_zero p

/-- With at most 65535 levels the element holds the number. -/
theorem sampleAt_toNat {p : Params} (hl : p.Legal) (r : SynthRegs) : ((sampleAt p r).toNat : Int) = sampleValue p r := by
  have hrange := sampleValue_range (legalWidths hl) r
  have hmax := levels_le hl
  rw [sampleAt_eq, BitVec.toNat_ofInt]
  omega

/-! ### What generation reads (R123) -/

/-- The parameters generation reads, with the DEFAULT set in every other field: count, frequencies, duration and levels, the phase form and
the implementation, and the widths of R10. -/
def waveform (p : Params) : Params :=
  { Params.default with
    nChirp := p.nChirp, chirpF0 := p.chirpF0, chirpF1 := p.chirpF1, chirpDuration := p.chirpDuration, levels := p.levels
    phaseForm := p.phaseForm, chirpImpl := p.chirpImpl
    phaseBits := p.phaseBits, angleBits := p.angleBits, ampBits := p.ampBits, cordicIter := p.cordicIter }

theorem refRound_waveform (p : Params) (i n bits : Nat) : refRound (waveform p) i n bits = refRound p i n bits := by
  have hbounds (b : Nat) : refBounds b (waveform p) i = refBounds b p i := rfl
  induction n generalizing bits with
  | zero => exact congrArg Enclosure.lo (hbounds bits)
  | succ n ih => simp only [refRound, hbounds, ih]

theorem sampleValue_waveform (p : Params) (r : SynthRegs) : sampleValue (waveform p) r = sampleValue p r := by
  have hhw : hwSample (waveform p) r.ncoPh r.winPh = hwSample p r.ncoPh r.winPh := rfl
  have href : refSample (waveform p) r.genIdx.toNat = refSample p r.genIdx.toNat := refRound_waveform ..
  have himpl : (waveform p).chirpImpl = p.chirpImpl := rfl
  simp only [sampleValue, hhw, href, himpl]

theorem sampleAt_waveform (p : Params) (r : SynthRegs) : sampleAt (waveform p) r = sampleAt p r := by
  rw [sampleAt_eq, sampleAt_eq, sampleValue_waveform]

theorem synthRegs_waveform (p : Params) (k : Nat) : synthRegs (waveform p) k = synthRegs p k := by
  have hnext : synthNext (waveform p) = synthNext p := rfl
  have hstart : synthStart (waveform p) = synthStart p := rfl
  rw [synthRegs, hnext, hstart, synthRegs]

theorem nChirp_congr {p q : Params} (h : waveform p = waveform q) : p.nChirp = q.nChirp :=
  show (waveform p).nChirp = (waveform q).nChirp from congrArg Params.nChirp h

theorem synthRegs_congr {p q : Params} (h : waveform p = waveform q) (k : Nat) : synthRegs p k = synthRegs q k := by
  rw [← synthRegs_waveform p, h, synthRegs_waveform]

theorem sampleAt_congr {p q : Params} (h : waveform p = waveform q) (r : SynthRegs) : sampleAt p r = sampleAt q r := by
  rw [← sampleAt_waveform p, h, sampleAt_waveform]

theorem generated_cs_congr {s u : State} (hs : s.cfg.Legal) (hu : u.cfg.Legal) (h : waveform s.cfg = waveform u.cfg) :
    (generated s).cs = (generated u).cs := by
  have hn := nChirp_congr h
  rw [generated_cs hs, generated_cs hu, hn, synthRegs_congr h]

theorem generated_element_congr {s u : State} (hs : s.cfg.Legal) (hu : u.cfg.Legal) (h : waveform s.cfg = waveform u.cfg) {k : Nat}
    (hk : k < s.cfg.nChirp) : (generated s).element s.cfg.chirpBase k = (generated u).element u.cfg.chirpBase k := by
  have hn := nChirp_congr h
  obtain hk | rfl : k < s.cfg.nChirp - 1 ∨ k = s.cfg.nChirp - 1 := by omega
  · rw [generated_element hs hk, generated_element hu (by omega), synthRegs_congr h, sampleAt_congr h]
  · rw [generated_element_last hs, hn, generated_element_last hu]

/-! ### The statements -/

/-- Settles O25: the answer is `generated`, whose other fields stand. -/
theorem generateFrame : Obligations.GenerateFrame := by
  intro s hl hp
  refine ⟨generated s, exec_csGenerate hl hp, rfl, ?_, ?_, fun a ha => generated_read_outside hl ha⟩
  · rw [generated_cs hl]
    exact synthRegs_genIdx s.cfg (nChirp_bounds hl).2
  · rw [generated_cs hl]

/-- Settles O26: at index 0 the window is 0 under either implementation, and the last element is forced. -/
theorem fixedSamples : Obligations.FixedSamples := by
  intro s hl hp
  have hmin := (nChirp_bounds hl).1
  refine ⟨generated s, exec_csGenerate hl hp, ?_, generated_element_last hl⟩
  have hfirst := sampleAt_toNat hl (synthStart s.cfg)
  rw [sampleValue_start (legalWidths hl)] at hfirst
  rw [generated_element hl (by omega)]
  change (sampleAt s.cfg (synthStart s.cfg)).toNat = _
  omega

/-- Settles O27: every element is a sample in range, or the last, which is 0. -/
theorem sampleRange : Obligations.SampleRange := by
  intro s hl hp
  refine ⟨generated s, exec_csGenerate hl hp, fun k hk => ?_⟩
  obtain hk | rfl : k < s.cfg.nChirp - 1 ∨ k = s.cfg.nChirp - 1 := by omega
  · have hvalue := sampleAt_toNat hl (synthRegs s.cfg k)
    have hrange := sampleValue_range (legalWidths hl) (synthRegs s.cfg k)
    rw [generated_element hl hk]
    omega
  · rw [generated_element_last hl]
    exact Nat.zero_le _

/-- Settles O28: the sample of the registers after `k` turns, whose phases have the closed forms. -/
theorem chirpClosedForm : Obligations.ChirpClosedForm := by
  intro s hl hp himpl
  have hw := legalWidths hl
  refine ⟨generated s, exec_csGenerate hl hp, fun k hk => ?_⟩
  calc (((generated s).element s.cfg.chirpBase k).toNat : Int)
      = sampleValue s.cfg (synthRegs s.cfg k) := by rw [generated_element hl hk, sampleAt_toNat hl]
    _ = hwSample s.cfg (synthRegs s.cfg k).ncoPh (synthRegs s.cfg k).winPh := by simp only [sampleValue, himpl]
    _ = _ := by rw [hwSample, roundSample_eq hw, ampUnit_eq hw, synthRegs_ncoPh, synthRegs_winPh]; rfl

/-- Settles O29: the two parameter sets have one `waveform`, the widths by legality. -/
theorem generateDeterministic : Obligations.GenerateDeterministic := by
  intro s u hs hu hps hpu hn hf0 hf1 hd hlev hform himpl
  obtain ⟨hs1, hs2, hs3, hs4, -⟩ := legalWidths hs
  obtain ⟨hu1, hu2, hu3, hu4, -⟩ := legalWidths hu
  have hwave : waveform s.cfg = waveform u.cfg := by
    simp only [waveform, hn, hf0, hf1, hd, hlev, hform, himpl, hs1, hs2, hs3, hs4, hu1, hu2, hu3, hu4]
  exact ⟨generated s, generated u, exec_csGenerate hs hps, exec_csGenerate hu hpu, generated_cs_congr hs hu hwave,
    fun _ hk => generated_element_congr hs hu hwave hk⟩

end Sys2Proof.Proofs
end

section
/-! PROOF. A step of a proper state, and the state BOOT leaves, are proper (44_acq_fsm.md R224; 70_reset_and_hazards.md R305). -/

namespace Sys2Proof.Proofs

open Sys2Proof Sys2Proof.Machine

/-! ### A step -/

/-- No clause reads the script. -/
theorem proper_withScript {s : State} (h : s.Proper) (l : List Code) : ({ s with script := l } : State).Proper :=
  { h with
    chan := booted_chan (s := s) h rfl rfl rfl
    carrier := carrierRuns_congr h.carrier rfl rfl
    guardTimer := guardSet_congr h.guardTimer rfl rfl }

/-- The fetch takes a line off the script at most, so it keeps a proper state proper (R104). -/
theorem proper_fetch {s : State} (h : s.Proper) : s.fetch.2.Proper := by
  cases hs : s.script with
  | nil => rwa [fetch_sequencer hs]
  | cons x rest =>
    rw [fetch_script hs]
    exact proper_withScript h rest

/-- Settles O53: the operation fetched is enabled in the state the fetch leaves, which is proper. -/
theorem properKept : Obligations.ProperKept := by
  rintro s h ⟨i, hi, he⟩
  obtain ⟨t, ht, hp⟩ := proper_kept (proper_fetch h) he
  exact ⟨t, (step_of_fetch_ok (Prod.ext hi rfl)).trans ht, hp⟩

/-! ### The state after BOOT -/

/-- The registers that R305 gives a channel are those of a channel at the start of its block. -/
theorem booted_bootedChan {p : Params} (hl : p.Legal) (c : Chan) : (bootedChan p c).Booted p c := by
  have hload := ChanRegs.booted_load hl (c := c) (r := bootedChan p c) rfl rfl rfl rfl .suspended false nofun
  have hctrl := bootDescriptor_ctrl hl.1 c
  have hnext := bootDescriptor_next p c
  have hcount : (bootDescriptor p c).count = BitVec.ofNat 16 (blockCount p c) := by cases c <;> rfl
  have hsrc : (bootDescriptor p c).src = BitVec.ofNat 32 (bootSrc p c) := by cases c <;> rfl
  have hdst : (bootDescriptor p c).dst = BitVec.ofNat 32 (bootDst p c) := by cases c <;> rfl
  rw [ChanRegs.load, hctrl, hnext, hcount, hsrc, hdst] at hload
  exact hload

theorem carrierRuns_boot {s : State} (hl : s.cfg.LegalTimers)
    (h : s.ct = ⟨true, 0, BitVec.ofNat 16 s.cfg.carrierPeriod, BitVec.ofNat 16 s.cfg.carrierDuty,
      BitVec.ofNat 16 s.cfg.carrierIndDuty⟩) : s.CarrierRuns := by
  obtain ⟨⟨hmin, hmax, hduty, hduty', hind, hind'⟩, -⟩ := hl
  constructor <;> simp only [h, BitVec.toNat_ofNat, BitVec.ofNat_eq_ofNat] <;> omega

theorem guardSet_boot {s : State} (hl : s.cfg.LegalTimers)
    (h : s.gt = ⟨false, 0, BitVec.ofNat 32 s.cfg.guardPeriod, BitVec.ofNat 32 s.cfg.guardCompare, false⟩) : s.GuardSet := by
  obtain ⟨-, ⟨hmin, hmax⟩, hcmp, -⟩ := hl
  have hlt : s.cfg.guardCompare < 2 ^ 32 := by split at hcmp <;> omega
  refine ⟨?_, ?_, ?_, ?_, ?_⟩
  · rw [h, BitVec.toNat_ofNat]; omega
  · rw [h, BitVec.toNat_ofNat]; omega
  · simp [h]
  · simp [h]
  · simp [h]

/-- The state of R305 is proper, whatever the host has sent, the generator left and the memory held before the three records. -/
theorem proper_of_bootMemory {p : Params} (hl : p.Legal) (halt : p.altEnable = false) (q : List Byte) (l : List Code) (x : SynthRegs)
    {m m' : Memory} (hm : m = bootMemory p m') (hw : Memory.Wf m) :
    ({ State.afterBoot p with rxq := q, script := l, cs := x, mem := m } : State).Proper where
  legal := hl
  altOff := halt
  altCount := rfl
  booted := nofun
  mem := hw
  desc := State.holds_bootMemory (s := { State.afterBoot p with rxq := q, script := l, cs := x, mem := m }) hl m' hm
  chan := forall_chan.2 ⟨booted_bootedChan hl .emit, booted_bootedChan hl .cap0, booted_bootedChan hl .cap1⟩
  carrier := carrierRuns_boot hl.2.1 rfl
  guardTimer := guardSet_boot hl.2.1 rfl
  row := ⟨forall_chan.2 ⟨rfl, rfl, rfl⟩, rfl, BitVec.zero_and, rfl⟩
  polled _ _ := rfl
  jobInd := by simp [State.afterBoot, State.resetWith, State.flag]
  txs := Nat.dvd_zero _

/-- Boot stores the three records over what the generator left of the empty memory. -/
theorem afterBoot_mem (p : Params) : (State.afterBoot p).mem = bootMemory p (generate p []).2 := by rw [State.afterBoot]

/-- The generator and the three records keep the canonical form. -/
theorem afterBoot_mem_wf {p : Params} (hl : p.Legal) : Memory.Wf (State.afterBoot p).mem := by
  obtain ⟨hmin, hmax, -⟩ := hl.1
  obtain ⟨-, -, -, -, hwf⟩ := generate_spec p [] hmin hmax
  rw [afterBoot_mem]
  exact (bootMemory_frame hl.2.2 _).1 (hwf (Region.in_space hl.2.2 .chirp) ⟨.nil, nofun⟩)

/-- Settles O52: BOOT leaves the state of R305. -/
theorem properAfterBoot : Obligations.ProperAfterBoot :=
  fun p q l hl halt => ⟨_, bootState.1 p q 0 l hl,
    proper_of_bootMemory hl halt q l (State.afterBoot p).cs (afterBoot_mem p) (afterBoot_mem_wf hl)⟩

end Sys2Proof.Proofs
end

section
/-! PROOF. The channel operations, the trigger and the arbiter (41_transfer_engine.md R152 to R157, R159, R161). -/

namespace Sys2Proof.Proofs

open Sys2Proof Sys2Proof.Machine

/-! ### Channel operations -/

/-- The code of an operation of a channel is `{op, c}` in its first byte. -/
theorem hasOp_of_encodeOp {i : Instr} {op : BitVec 4} {c : BitVec 2} {o : BitVec 64} (h : encode i = encodeOp op c o) :
    HasOp i op c := by
  rw [HasOp, h]
  exact ⟨rfl, rfl⟩

theorem armAddress_iff {a : Word} : armAddress a = true ↔ a ≠ 0 ∧ a.toNat % 16 = 0 := by
  simp [armAddress]

theorem teConfigure_busy {s : State} {c : Chan} (h : (s.chan c).state ≠ .idle) (prio trigsrc burst : BitVec 2) :
    s.teConfigure c prio trigsrc burst = .error (.channelNotIdle c) := if_pos h

theorem teConfigure_idle {s : State} {c : Chan} (h : (s.chan c).state = .idle) (prio trigsrc burst : BitVec 2) :
    s.teConfigure c prio trigsrc burst =
      if burst ≠ 0 then .error .reservedBurst
      else .ok (s.setChan c { s.chan c with prio := prio, trigSrc := trigsrc, burst := burst }) := if_neg (not_not.2 h)

/-- Settles O31: the state of the channel is tested before the burst policy. -/
theorem channelConfigure : Obligations.ChannelConfigure := by
  refine fun s c prio trigsrc burst => ⟨hasOp_of_encodeOp rfl, fun hi hb => ?_, fun hi => ?_, fun hi hb => ?_⟩ <;>
    change answer (s.teConfigure c prio trigsrc burst) = _
  · rw [teConfigure_idle hi, if_neg (not_not.2 hb), answer_ok]
  · rw [teConfigure_busy hi, answer_error]
  · rw [teConfigure_idle hi, if_pos hb, answer_error]

theorem teArm_badAddress {s : State} {a : Word} (h : armAddress a = false) (c : Chan) :
    s.teArm c a = .error (.badOperand "TE_ARM") := by
  simp [State.teArm, h]

theorem teArm_address {s : State} {a : Word} (h : armAddress a = true) (c : Chan) :
    s.teArm c a =
      if (s.chan c).state ≠ .idle then .error (.channelNotIdle c) else .ok (s.setChan c { s.chan c with descPtr := a }) := by
  simp [State.teArm, h]

/-- Settles O32: the address is tested before the state of the channel. -/
theorem channelArm : Obligations.ChannelArm := by
  refine fun s c a => ⟨hasOp_of_encodeOp rfl, fun hi h0 h16 => ?_, fun hi h0 h16 => ?_, fun h => ?_⟩ <;>
    change answer (s.teArm c a) = _
  · rw [teArm_address (armAddress_iff.2 ⟨h0, h16⟩), if_neg (not_not.2 hi), answer_ok]
  · rw [teArm_address (armAddress_iff.2 ⟨h0, h16⟩), if_pos hi, answer_error]
  · have hbad : armAddress a = false := by
      rw [← Bool.not_eq_true, armAddress_iff]
      tauto
    rw [teArm_badAddress hbad, answer_error]

/-- Settles O34: each answer is the operation's own update. -/
theorem channelControl : Obligations.ChannelControl :=
  fun _ _ => ⟨hasOp_of_encodeOp rfl, hasOp_of_encodeOp rfl, hasOp_of_encodeOp rfl, rfl, rfl, rfl⟩

/-! ### Triggers -/

/-- Settles O36: the trigger is latched past the three tests, and each of them alone loses it. -/
theorem triggerLatch : Obligations.TriggerLatch := by
  intro s c
  change execEnvTrigger c s = _
  unfold execEnvTrigger
  by_cases h : (s.chan c).trigSrc ≠ 0 ∧ (s.chan c).state = .active ∧ (s.chan c).trig = false
  · obtain ⟨hsrc, hact, htrig⟩ := h
    rw [if_neg hsrc, if_neg (not_not.2 hact), if_neg (by simp [htrig]), if_pos ⟨hsrc, hact, htrig⟩]
  · rw [if_neg h]
    split_ifs with hsrc hact htrig
    · rfl
    · rfl
    · rfl
    · exact absurd ⟨hsrc, not_not.1 hact, Bool.eq_false_iff.2 htrig⟩ h

/-! ### The arbiter -/

theorem candidate_iff {s : State} {c : Chan} : s.candidate c = true ↔ (s.chan c).state = .active ∧ (s.chan c).trig = true := by
  simp [State.candidate, State.chState]

theorem code_toNat_inj {c d : Chan} (h : c.code.toNat = d.code.toNat) : c = d := by
  revert h
  cases c <;> cases d <;> decide

/-- Channel `c` goes before channel `d`: the larger CH_PRIO, the smaller number among equals (R161). -/
def GoesBefore (s : State) (c d : Chan) : Prop :=
  (s.chan d).prio.toNat < (s.chan c).prio.toNat ∨ ((s.chan d).prio = (s.chan c).prio ∧ c.code.toNat < d.code.toNat)

theorem GoesBefore.asymm {s : State} {c d : Chan} (h : GoesBefore s c d) : ¬ GoesBefore s d c := by
  rintro (h' | ⟨hp', hc'⟩)
  · obtain h | ⟨hp, -⟩ := h
    · omega
    · rw [hp] at h'; omega
  · obtain h | ⟨-, hc⟩ := h
    · rw [hp'] at h; omega
    · omega

/-- The granted channel goes before every other candidate. -/
theorem goesBefore_of_grant {s : State} {c d : Chan} (h : s.grant = some c) (hne : d ≠ c) (hd : s.candidate d = true) :
    GoesBefore s c d := by
  obtain hlt | ⟨heq, hle⟩ := (State.grant_spec h).2 d hd
  · exact .inl hlt
  · exact .inr ⟨BitVec.eq_of_toNat_eq heq, lt_of_le_of_ne hle fun hc => hne (code_toNat_inj hc).symm⟩

/-- A candidate that goes before every other is granted: were another granted, that one would go before it. -/
theorem grant_of_goesBefore {s : State} {c : Chan} (hc : s.candidate c = true)
    (h : ∀ d, d ≠ c → s.candidate d = true → GoesBefore s c d) : s.grant = some c := by
  cases hg : s.grant with
  | none => simp [State.grant_none hg c] at hc
  | some d =>
    by_contra hne
    have hdc : d ≠ c := fun he => hne (congrArg some he)
    exact (h d hdc (State.grant_spec hg).1).asymm (goesBefore_of_grant hg hdc.symm hc)

theorem grant_eq_none_iff {s : State} : s.grant = none ↔ ∀ c, s.candidate c = false := by
  refine ⟨fun h c => State.grant_none h c, fun h => ?_⟩
  cases hg : s.grant with
  | none => rfl
  | some c =>
    have hc := (State.grant_spec hg).1
    simp [h c] at hc

/-- Settles O37: the granted channel is the candidate that goes before every other. -/
theorem arbiterGrant : Obligations.ArbiterGrant := by
  intro s
  refine ⟨fun c => ⟨fun h => ?_, fun ⟨hact, htrig, h⟩ => ?_⟩, ?_, fun c v h => ?_⟩
  · obtain ⟨hact, htrig⟩ := State.grant_active h
    exact ⟨hact, htrig, fun d hne hda hdt => goesBefore_of_grant h hne (candidate_iff.2 ⟨hda, hdt⟩)⟩
  · refine grant_of_goesBefore (candidate_iff.2 ⟨hact, htrig⟩) fun d hne hd => ?_
    obtain ⟨hda, hdt⟩ := candidate_iff.1 hd
    exact h d hne hda hdt
  · simp only [grant_eq_none_iff, ← Bool.not_eq_true, candidate_iff, not_and_or, ne_eq]
  · change answer (s.teBeat c v) = _
    rw [State.teBeat, if_pos h, answer_error]

end Sys2Proof.Proofs
end

section
/-! PROOF. The descriptor fetch, and the two operations that use it: TE_ENABLE and the last beat of a block (41_transfer_engine.md R154,
R158, R162; 20_memory.md R61, R69, R72; 30_encoding.md R97). -/

namespace Sys2Proof.Proofs

open Sys2Proof Sys2Proof.Machine

/-! ### Reads of DESC -/

/-- The fetch reads DESC and no other region (R61). -/
theorem mayRead_fetch {r : Region} : r.mayRead .fetch = true ↔ r = .desc := by
  cases r <;> decide

/-- The fetch of one word of a record. -/
theorem memRead_record {s : State} (hl : s.cfg.LegalMap) {a : Word} {j k : Nat} (hj : j < 3) (hk : k < 4)
    (ha : a.toNat = s.cfg.descBase + 16 * j) :
    memRead .fetch 0 (a + BitVec.ofNat 32 (4 * k)) .b4 s = .ok (s.mem.readLE (s.cfg.descBase + 16 * j + 4 * k) .b4) := by
  have hspace := Region.in_space hl .desc
  have halign := hl.2.2.1
  have hword : (a + BitVec.ofNat 32 (4 * k)).toNat = s.cfg.descBase + 16 * j + 4 * k := by
    simp only [Region.base, Region.size] at hspace
    rw [BitVec.toNat_add, BitVec.toNat_ofNat]
    omega
  have hholds : Region.Holds s.cfg .desc (s.cfg.descBase + 16 * j + 4 * k) 4 := by
    simp only [Region.Holds, Region.base, Region.size]
    omega
  rw [memRead_memory (r := .desc) hl (by rw [hword]; simp only [Size.bytes]; omega) (by rw [hword]; exact hholds) rfl rfl, hword]

/-- The fetch of an aligned address that is no record's has no access: four aligned bytes of DESC at a multiple of 16 begin a record. -/
theorem memRead_noRecord {s : State} (hl : s.cfg.LegalMap) {a : Word} (h16 : a.toNat % 16 = 0)
    (ha : ∀ k < 3, a.toNat ≠ s.cfg.descBase + 16 * k) : memRead .fetch 0 a .b4 s = .error (.noAccess a) := by
  have h4 : a.toNat % Size.bytes .b4 = 0 := by simp only [Size.bytes]; omega
  unfold memRead
  rw [if_neg (not_not.2 h4)]
  cases hr : regionOf s.cfg a.toNat (Size.bytes .b4) with
  | none => rfl
  | some r =>
    have hno : r.mayRead .fetch ≠ true := by
      rw [ne_eq, mayRead_fetch]
      rintro rfl
      have halign := hl.2.2.1
      obtain ⟨hlo, hhi⟩ := regionOf_some hr
      simp only [Region.base, Region.size, Size.bytes] at hlo hhi
      exact ha ((a.toNat - s.cfg.descBase) / 16) (by omega) (by omega)
    exact if_neg hno

theorem ne_zero_of_misaligned {a : Word} (h : a.toNat % 16 ≠ 0) : a ≠ 0 := by
  rintro rfl
  exact h rfl

/-! ### The fetch of a record (R158) -/

theorem loadDesc_misaligned {a : Word} (h : a.toNat % 16 ≠ 0) (s : State) (r : ChanRegs) :
    s.loadDesc r a = .error (.misaligned a) := if_pos h

theorem loadDesc_noRecord {s : State} (hl : s.cfg.LegalMap) {a : Word} (h16 : a.toNat % 16 = 0)
    (ha : ∀ k < 3, a.toNat ≠ s.cfg.descBase + 16 * k) (r : ChanRegs) : s.loadDesc r a = .error (.noAccess a) := by
  rw [State.loadDesc, if_neg (not_not.2 h16), memRead_noRecord hl h16 ha]
  rfl

/-- Four words that stand in the record at address `a` of DESC. -/
structure Record (s : State) (a : Word) (w : Nat → Word) : Prop where
  legal : s.cfg.LegalMap
  place : ∃ j < 3, a.toNat = s.cfg.descBase + 16 * j ∧ ∀ k < 4, w k = s.mem.readLE (s.cfg.descBase + 16 * j + 4 * k) .b4

theorem Record.fetch_word {s : State} {a : Word} {w : Nat → Word} (h : Record s a w) {k : Nat} (hk : k < 4) :
    memRead .fetch 0 (a + BitVec.ofNat 32 (4 * k)) .b4 s = .ok (w k) := by
  obtain ⟨j, hj, ha, hw⟩ := h.place
  rw [memRead_record h.legal hj hk ha, hw k hk]

/-- DESC_BASE is not 0 (R63). -/
theorem Record.ne_zero {s : State} {a : Word} {w : Nat → Word} (h : Record s a w) : a ≠ 0 := by
  obtain ⟨j, -, ha, -⟩ := h.place
  obtain ⟨-, -, -, hbase⟩ := h.legal
  rintro rfl
  simp at ha
  omega

theorem Record.aligned {s : State} {a : Word} {w : Nat → Word} (h : Record s a w) : a.toNat % 16 = 0 := by
  obtain ⟨j, -, ha, -⟩ := h.place
  have := h.legal.2.2.1
  omega

/-- The descriptor that four words hold. -/
def recordOf (w : Nat → Word) : Descriptor := Descriptor.ofWords (w 0) (w 1) (w 2) (w 3)

/-- The channel registers once a record is current (R158 lines 4 to 8). -/
def loaded (r : ChanRegs) (w : Nat → Word) : ChanRegs := r.load (recordOf w) (w 0)

theorem Record.fetch_descriptor {s : State} {a : Word} {w : Nat → Word} (h : Record s a w) :
    readDescriptor (w 0) a s = .ok (recordOf w) := by
  have h1 : memRead .fetch 0 (a + 4) .b4 s = .ok (w 1) := h.fetch_word (k := 1) (by decide)
  have h2 : memRead .fetch 0 (a + 8) .b4 s = .ok (w 2) := h.fetch_word (k := 2) (by decide)
  have h3 : memRead .fetch 0 (a + 12) .b4 s = .ok (w 3) := h.fetch_word (k := 3) (by decide)
  rw [readDescriptor, h1, h2, h3]
  rfl

/-- Everything the fetch of a record can answer: VALID is tested before the reserved values. -/
theorem Record.loadDesc {s : State} {a : Word} {w : Nat → Word} (h : Record s a w) (r : ChanRegs) :
    s.loadDesc r a =
      if (w 0).getLsbD 0 = false then .ok none
      else if (recordOf w).reservedValue then .error .reservedDescriptor
      else .ok (some (loaded r w)) := by
  have h0 : memRead .fetch 0 a .b4 s = .ok (w 0) := by simpa using h.fetch_word (k := 0) (by decide)
  simp only [State.loadDesc, h.aligned, ne_eq, not_true, if_false, h0, bind, Except.bind, h.fetch_descriptor]
  rfl

/-- The values that R97 reserves. -/
theorem reservedValue_iff (d : Descriptor) :
    d.reservedValue = true ↔ d.elemSize = 3 ∨ d.reserved ≠ 0 ∨ d.count = 0 ∨ d.next.toNat % 16 ≠ 0 ∨
      d.src.toNat % 2 ^ d.elemSize.toNat ≠ 0 ∨ d.dst.toNat % 2 ^ d.elemSize.toNat ≠ 0 := by
  simp only [Descriptor.reservedValue, Nat.one_shiftLeft, Bool.or_eq_true, decide_eq_true_eq]
  tauto

theorem not_reservedValue_iff (d : Descriptor) :
    d.reservedValue ≠ true ↔ d.elemSize ≠ 3 ∧ d.reserved = 0 ∧ d.count ≠ 0 ∧ d.next.toNat % 16 = 0 ∧
      d.src.toNat % 2 ^ d.elemSize.toNat = 0 ∧ d.dst.toNat % 2 ^ d.elemSize.toNat = 0 := by
  simp only [ne_eq, reservedValue_iff, not_or, not_not]

section

variable {s : State} {a : Word} {w : Nat → Word}

theorem Record.loadDesc_unusable (h : Record s a w) (hv : (w 0).getLsbD 0 = false) (r : ChanRegs) :
    s.loadDesc r a = .ok none := by
  rw [h.loadDesc, if_pos hv]

theorem Record.loadDesc_reserved (h : Record s a w) (hv : (w 0).getLsbD 0 = true) (hr : (recordOf w).reservedValue = true)
    (r : ChanRegs) : s.loadDesc r a = .error .reservedDescriptor := by
  rw [h.loadDesc, if_neg (by simp [hv]), if_pos hr]

theorem Record.loadDesc_usable (h : Record s a w) (hv : (w 0).getLsbD 0 = true) (hr : (recordOf w).reservedValue ≠ true)
    (r : ChanRegs) : s.loadDesc r a = .ok (some (loaded r w)) := by
  rw [h.loadDesc, if_neg (by simp [hv]), if_neg hr]

end

/-! ### TE_ENABLE (R154) -/

/-- The state TE_ENABLE leaves for what the fetch found: nothing usable, or the registers loaded. -/
def enabledWith (s : State) (c : Chan) : Option ChanRegs → State
  | none => s
  | some r => s.setChan c { r with state := .active, trig := false }

theorem exec_teEnable_stays {s : State} {c : Chan} (h : (s.chan c).state ≠ .idle ∨ (s.chan c).descPtr = 0) :
    exec (.teEnable c) s = .next s := by
  change answer (s.teEnable c) = _
  unfold State.teEnable
  by_cases hi : (s.chan c).state = .idle
  · rw [if_neg (not_not.2 hi), if_pos (h.resolve_left (not_not.2 hi)), answer_ok]
  · rw [if_pos hi, answer_ok]

/-- TE_ENABLE of an IDLE channel with something armed does what the fetch answers. -/
theorem exec_teEnable_armed {s : State} {c : Chan} (hi : (s.chan c).state = .idle) (ha : (s.chan c).descPtr ≠ 0)
    {x : Except Refusal (Option ChanRegs)} (h : s.loadDesc (s.chan c) (s.chan c).descPtr = x) :
    exec (.teEnable c) s = answer (x.map (enabledWith s c)) := by
  change answer (s.teEnable c) = _
  rw [State.teEnable, if_neg (not_not.2 hi), if_neg ha, h]
  obtain e | _ | r := x <;> rfl

/-- Settles O33: what TE_ENABLE does is what the fetch answers. -/
theorem channelEnable : Obligations.ChannelEnable := by
  refine fun s c j w hl => ⟨exec_teEnable_stays, fun hi hj ha hw => ?_, fun hi ha => ?_, fun hi h0 h16 ha => ?_⟩
  · have hrec : Record s (s.chan c).descPtr w := ⟨hl, j, hj, ha, hw⟩
    refine ⟨fun hv => ?_, fun hv h1 h2 h3 h4 h5 h6 => ?_, fun hv hr => ?_⟩
    · exact exec_teEnable_armed hi hrec.ne_zero (hrec.loadDesc_unusable hv _)
    · have hok : (recordOf w).reservedValue ≠ true := (not_reservedValue_iff (recordOf w)).2 ⟨h1, h2, h3, h4, h5, h6⟩
      exact exec_teEnable_armed hi hrec.ne_zero (hrec.loadDesc_usable hv hok _)
    · exact exec_teEnable_armed hi hrec.ne_zero (hrec.loadDesc_reserved hv ((reservedValue_iff (recordOf w)).2 hr) _)
  · have h0 := ne_zero_of_misaligned ha
    exact exec_teEnable_armed hi h0 (loadDesc_misaligned ha s _)
  · exact exec_teEnable_armed hi h0 (loadDesc_noRecord hl h16 ha _)

/-! ### Block completion (R162) -/

/-- The state once a block's completion has signalled, or not, as its BLOCKACT says (R162 line 2). -/
def signalled (u : State) (c : Chan) : State :=
  if notifies (u.chan c).wCtrl then u.signal (completionEvent c) else u

theorem signalled_cfg (u : State) (c : Chan) : (signalled u c).cfg = u.cfg := by
  unfold signalled; split <;> rfl

theorem signalled_mem (u : State) (c : Chan) : (signalled u c).mem = u.mem := by
  unfold signalled; split <;> rfl

theorem chan_signalled (u : State) (c d : Chan) : (signalled u c).chan d = u.chan d := by
  unfold signalled; split <;> simp

theorem notifies_iff (ctrl : Word) : notifies ctrl = true ↔ ctrl.extractLsb' 1 2 = 1 ∨ ctrl.extractLsb' 1 2 = 3 := by
  simp [notifies]

theorem suspends_iff (ctrl : Word) : suspends ctrl = true ↔ ctrl.extractLsb' 1 2 = 2 ∨ ctrl.extractLsb' 1 2 = 3 := by
  simp [suspends]

/-- What the completion finds to go on with: nothing where W_NEXT is 0, and else what the fetch answers (R162 lines 3 and 4). -/
def successor (u : State) (c : Chan) : Except Refusal (Option ChanRegs) :=
  if (u.chan c).wNext = 0 then .ok none else (signalled u c).loadDesc (u.chan c) (u.chan c).wNext

/-- The registers of a channel whose block is over: IDLE without a successor, and with one suspended as BLOCKACT says. -/
def completed (r : ChanRegs) : Option ChanRegs → ChanRegs
  | none => { r with state := .idle }
  | some q => if suspends r.wCtrl && q.state = .active then { q with state := .suspended } else q

/-- Completion signals, finds the successor, and writes the channel's registers. -/
theorem blockComplete_eq (u : State) (c : Chan) :
    u.blockComplete c = (successor u c).map fun o => (signalled u c).setChan c (completed (u.chan c) o) := by
  have hsig : (if notifies (u.chan c).wCtrl then u.signal (completionEvent c) else u) = signalled u c := rfl
  cases h : successor u c <;> unfold successor at h <;> simp only [State.blockComplete, hsig, chan_signalled, h]
  case error => rfl
  case ok o => cases o <;> rfl

theorem successor_none {u : State} {c : Chan} (h : (u.chan c).wNext = 0) : successor u c = .ok none := if_pos h

theorem successor_fetched {u : State} {c : Chan} (h : (u.chan c).wNext ≠ 0) {x : Except Refusal (Option ChanRegs)}
    (hx : (signalled u c).loadDesc (u.chan c) (u.chan c).wNext = x) : successor u c = x := (if_neg h).trans hx

/-- A record loaded over an ACTIVE channel leaves it ACTIVE, unless BLOCKACT suspends it. -/
theorem completed_loaded {r : ChanRegs} (h : r.state = .active) (w : Nat → Word) :
    completed r (some (loaded r w)) =
      { loaded r w with
        state := if r.wCtrl.extractLsb' 1 2 = 2 ∨ r.wCtrl.extractLsb' 1 2 = 3 then .suspended else .active } := by
  have hactive : (loaded r w).state = .active := h
  simp only [completed, hactive, decide_true, Bool.and_true, suspends_iff]
  split
  · rfl
  · rw [← hactive]

theorem moveElement_cfg {s u : State} {c : Chan} {draw : Half} (h : s.moveElement c draw = .ok u) : u.cfg = s.cfg := by
  obtain ⟨n, v, x, -, -, hw, rfl⟩ := State.moveElement_ok h
  rw [State.setChan_cfg, memWrite_frame hw]

/-- A move leaves CH_STATE. -/
theorem moveElement_state {s u : State} {c : Chan} {draw : Half} (h : s.moveElement c draw = .ok u) :
    (u.chan c).state = (s.chan c).state := by
  obtain ⟨n, v, x, -, -, -, rfl⟩ := State.moveElement_ok h
  rw [State.chan_setChan_same]
  rfl

/-- The beat that moves a block's last element answers what the successor found makes of it (R160 line 8, R162). -/
theorem exec_lastBeat {s u : State} {c : Chan} {draw : Half} (hg : s.grant = some c) (hm : s.moveElement c draw = .ok u)
    (hz : (u.chan c).wCnt = 0) {x : Except Refusal (Option ChanRegs)} (hx : successor u c = x) :
    exec (.teBeat c draw) s = answer (x.map fun o => (signalled u c).setChan c (completed (u.chan c) o)) := by
  change answer (s.teBeat c draw) = _
  rw [State.teBeat, if_neg (not_not.2 hg), bind_of_ok hm, if_pos hz, blockComplete_eq, hx]

/-- Settles O40: the successor is fetched in the state that the signal leaves, whose memory and parameters are the move's. -/
theorem blockCompletion : Obligations.BlockCompletion := by
  rintro s u v c draw r j w hl hg hm rfl hz hsignal
  have hact : (u.chan c).state = .active := (moveElement_state hm).trans (State.grant_active hg).1
  have hcfg : (signalled u c).cfg = s.cfg := (signalled_cfg u c).trans (moveElement_cfg hm)
  have hsig : v = signalled u c := by
    simp only [hsignal, signalled, notifies_iff]
    cases c <;> rfl
  have hbeat := fun {x} => exec_lastBeat (x := x) hg hm hz
  rw [← hcfg] at hl
  rw [hsig, ← hcfg]
  refine ⟨fun h0 => hbeat (successor_none h0), fun hj ha hw => ?_, fun ha => ?_, fun h0 h16 ha => ?_⟩
  · have hrec : Record (signalled u c) (u.chan c).wNext w := ⟨hl, j, hj, ha, by rwa [signalled_mem]⟩
    refine ⟨fun hv => ?_, fun hv h1 h2 h3 h4 h5 h6 => ?_, fun hv hr => ?_⟩
    · exact hbeat (successor_fetched hrec.ne_zero (hrec.loadDesc_unusable hv _))
    · have hok : (recordOf w).reservedValue ≠ true := (not_reservedValue_iff (recordOf w)).2 ⟨h1, h2, h3, h4, h5, h6⟩
      rw [hbeat (successor_fetched hrec.ne_zero (hrec.loadDesc_usable hv hok _)), Except.map, completed_loaded hact, answer_ok]
      rfl
    · exact hbeat (successor_fetched hrec.ne_zero (hrec.loadDesc_reserved hv ((reservedValue_iff (recordOf w)).2 hr) _))
  · exact hbeat (successor_fetched (ne_zero_of_misaligned ha) (loadDesc_misaligned ha _ _))
  · exact hbeat (successor_fetched h0 (loadDesc_noRecord hl h16 ha _))

end Sys2Proof.Proofs
end

section
/-! PROOF. The carrier timer by itself: its setup, its outputs and its ticks (42_carrier_timer.md R191 to R194). -/

namespace Sys2Proof.Proofs

open Sys2Proof Sys2Proof.Machine

/-! ### Setup (R191, R192) -/

theorem carrierOperands_iff {per duty ind : Half} :
    carrierOperands per duty ind = true ↔
      2 ≤ per.toNat ∧ 0 < duty.toNat ∧ duty.toNat < per.toNat ∧ 0 < ind.toNat ∧ ind.toNat < per.toNat := by
  simp [carrierOperands, and_assoc]

theorem ctConfigure_badOperand {per duty ind : Half} (h : ¬carrierOperands per duty ind = true) (s : State) :
    s.ctConfigure per duty ind = .error (.badOperand "CT_CONFIGURE") := by
  simp [State.ctConfigure, h]

theorem ctConfigure_operands {per duty ind : Half} (h : carrierOperands per duty ind = true) (s : State) :
    s.ctConfigure per duty ind =
      if s.ct.en then .error (.timerRunning "CT_CONFIGURE")
      else .ok { s with ct := { s.ct with per := per, duty := duty, indDuty := ind, cnt := 0 } } := by
  simp [State.ctConfigure, h]

/-- Settles O43: the operands are tested before CT_EN. -/
theorem carrierSetup : Obligations.CarrierSetup := by
  intro s per duty ind ok hok
  rw [← carrierOperands_iff] at hok
  refine ⟨hasOp_of_encodeOp rfl, hasOp_of_encodeOp rfl, fun h hen => ?_, fun h hen => ?_, fun h => ?_, fun h => ?_,
    fun h => ?_⟩
  · change answer (s.ctConfigure per duty ind) = _
    rw [ctConfigure_operands (hok.1 h), if_neg (by simp [hen]), answer_ok, ← hen]
  · change answer (s.ctConfigure per duty ind) = _
    rw [ctConfigure_operands (hok.1 h), if_pos hen, answer_error]
  · change answer (s.ctConfigure per duty ind) = _
    rw [ctConfigure_badOperand (mt hok.2 h), answer_error]
  · change answer s.ctEnable = _
    rw [State.ctEnable, if_neg h, answer_ok]
  · change answer s.ctEnable = _
    rw [State.ctEnable, if_pos h, answer_error]

/-! ### Outputs (R193) -/

/-- Settles O44: CT_EN gates the three comparisons, and CARR_N's is the opposite of CARR_P's. -/
theorem carrierOutputs : Obligations.CarrierOutputs := by
  intro s
  simp only [State.carrP, State.carrN, State.carrInd]
  refine ⟨fun hen => ?_, fun hen => ?_⟩ <;> rw [hen]
  · have hopposite : decide (s.ct.duty.toNat ≤ s.ct.cnt.toNat) = !decide (s.ct.cnt.toNat < s.ct.duty.toNat) := by
      simp only [← Nat.not_lt, decide_not]
    exact ⟨rfl, hopposite, rfl⟩
  · exact ⟨rfl, rfl, rfl⟩

/-! ### Ticks (R194) -/

/-- The state with another value in CT_CNT. -/
def withCtCnt (s : State) (n : Half) : State := { s with ct := { s.ct with cnt := n } }

theorem exec_ctTick {s : State} (hen : s.ct.en = true) :
    exec .ctTick s = .next (withCtCnt s (nextCount s.ct.cnt s.ct.per)) := if_pos hen

theorem exec_ctTick_disabled {s : State} (hen : s.ct.en = false) : exec .ctTick s = .refused (.notEnabled "CT_TICK") :=
  if_neg (by simp [hen])

/-- Inside the period the count stays in its register: below CT_PER - 1 it is below 0xFFFF (R32). -/
theorem nextCount_of_lt {cnt per : Half} (h : cnt.toNat < per.toNat) :
    nextCount cnt per = if cnt.toNat + 1 = per.toNat then 0 else cnt + 1 := by
  unfold nextCount
  split
  · rfl
  · rename_i hne
    have hper := per.isLt
    have hcnt : cnt ≠ 0xFFFF := by
      rintro rfl
      rw [show (0xFFFF : Half).toNat = 65535 from rfl] at h hne
      omega
    exact carrierUp_of_ne hcnt

/-- As a number the count goes up by one modulo CT_PER. -/
theorem nextCount_eq_mod {cnt per : Half} (h : cnt.toNat < per.toNat) :
    nextCount cnt per = BitVec.ofNat 16 ((cnt.toNat + 1) % per.toNat) := by
  rw [nextCount_of_lt h]
  split
  · rename_i heq
    rw [heq, Nat.mod_self]
    rfl
  · rename_i hne
    rw [Nat.mod_eq_of_lt (by omega), BitVec.ofNat_add, BitVec.ofNat_toNat, BitVec.setWidth_eq]
    rfl

theorem nextCount_toNat {cnt per : Half} (h : cnt.toNat < per.toNat) :
    (nextCount cnt per).toNat = (cnt.toNat + 1) % per.toNat := by
  have hmod : (cnt.toNat + 1) % per.toNat < per.toNat := Nat.mod_lt _ (by omega)
  rw [nextCount_eq_mod h, BitVec.toNat_ofNat, Nat.mod_eq_of_lt (hmod.trans per.isLt)]

/-- The counter a tick leaves is inside the period again, so the ticks that follow add to it modulo CT_PER. -/
theorem runAll_ctTick {s : State} (k : Nat) (hen : s.ct.en = true) (h : s.ct.cnt.toNat < s.ct.per.toNat) :
    runAll (List.replicate k .ctTick) s =
      .next (withCtCnt s (BitVec.ofNat 16 ((s.ct.cnt.toNat + k) % s.ct.per.toNat))) := by
  induction k generalizing s with
  | zero =>
    rw [Nat.add_zero, Nat.mod_eq_of_lt h, BitVec.ofNat_toNat, BitVec.setWidth_eq]
    rfl
  | succ k ih =>
    have hn := nextCount_toNat h
    generalize hnext : nextCount s.ct.cnt s.ct.per = n at hn
    have hlt : n.toNat < s.ct.per.toNat := by rw [hn]; exact Nat.mod_lt _ (by omega)
    calc runAll (List.replicate (k + 1) .ctTick) s
        = runAll (List.replicate k .ctTick) (withCtCnt s n) := by
          rw [List.replicate_succ, runAll, exec_ctTick hen, hnext]
      _ = .next (withCtCnt s (BitVec.ofNat 16 ((n.toNat + k) % s.ct.per.toNat))) := ih (s := withCtCnt s n) hen hlt
      _ = .next (withCtCnt s (BitVec.ofNat 16 ((s.ct.cnt.toNat + (k + 1)) % s.ct.per.toNat))) := by
          rw [hn, Nat.mod_add_mod, Nat.add_assoc, Nat.add_comm 1 k]

/-- Settles O45: the ticks add up modulo CT_PER, each from a counter inside the period. -/
theorem carrierTicks : Obligations.CarrierTicks := by
  refine ⟨fun s k hen h => runAll_ctTick k hen h, fun s hen h => ?_, fun s hen => exec_ctTick_disabled hen⟩
  rw [exec_ctTick hen, nextCount_of_lt h]
  rfl

end Sys2Proof.Proofs
end

section
/-! PROOF. The carrier timer stands alone: the operations of every other unit neither write its registers nor read them
(42_carrier_timer.md R195). Each operation commutes with replacing those registers: the replacement goes through its branches, and what a branch
tests, reads and answers is the same state but for them. -/

namespace Sys2Proof.Proofs

open Sys2Proof Sys2Proof.Machine

/-- The state with the registers `x` in its carrier timer. -/
def withCarrier (x : CarrierRegs) (s : State) : State := { s with ct := x }

/-- An answer with `f` done to its next state. -/
def mapNext (f : State → State) : Result → Result
  | .next t => .next (f t)
  | .fault e => .fault e
  | .refused r => .refused r

theorem answer_map {f : State → State} {a a' : Except Refusal State} (h : a' = a.map f) : answer a' = mapNext f (answer a) := by
  subst h
  cases a <;> rfl

/-- Operations in sequence commute with `f` where each does. -/
theorem bind_map {f : State → State} {a a' : Except Refusal State} {g g' : State → Except Refusal State} (ha : a' = a.map f)
    (hg : ∀ t, g' (f t) = (g t).map f) : a' >>= g' = (a >>= g).map f := by
  subst ha
  cases a with
  | error e => rfl
  | ok t => exact hg t

section

variable (x : CarrierRegs) (s : State)

/-! ### Updates of the state -/

theorem setChan_withCarrier (c : Chan) (r : ChanRegs) : (withCarrier x s).setChan c r = withCarrier x (s.setChan c r) := by
  cases c <;> rfl

theorem startJob_withCarrier : (withCarrier x s).startJob = withCarrier x s.startJob := by
  unfold State.startJob
  rw [apply_ite (withCarrier x)]
  rfl

theorem teSuspend_withCarrier (c : Chan) : (withCarrier x s).teSuspend c = withCarrier x (s.teSuspend c) := by
  unfold State.teSuspend
  rw [apply_ite (withCarrier x), ← setChan_withCarrier]
  rfl

theorem teResume_withCarrier (c : Chan) : (withCarrier x s).teResume c = withCarrier x (s.teResume c) := by
  unfold State.teResume
  rw [apply_ite (withCarrier x), ← setChan_withCarrier]
  rfl

theorem countEdge_withCarrier : (withCarrier x s).countEdge = withCarrier x s.countEdge := by
  unfold State.countEdge
  dsimp only
  rw [apply_ite (withCarrier x)]
  rfl

theorem guardCount_withCarrier : (withCarrier x s).guardCount = withCarrier x s.guardCount := by
  unfold State.guardCount
  dsimp only
  rw [apply_ite (withCarrier x), apply_ite (withCarrier x)]
  rfl

theorem signalled_withCarrier (c : Chan) : signalled (withCarrier x s) c = withCarrier x (signalled s c) := by
  unfold signalled
  rw [apply_ite (withCarrier x)]
  rfl

/-! ### Operations -/

theorem memWrite_withCarrier (who : Master) (a : Word) (n : Size) (v : Word) :
    memWrite who a n v (withCarrier x s) = (memWrite who a n v s).map (withCarrier x) := by
  have hcfg : (withCarrier x s).cfg = s.cfg := rfl
  unfold memWrite
  rw [apply_ite (Except.map (withCarrier x)), hcfg]
  refine congrArg _ ?_
  split
  · rfl
  · rename_i r _
    cases r <;> simp only [apply_ite (Except.map (withCarrier x))] <;> rfl

theorem placeDescriptor_withCarrier (c : Chan) (d : Descriptor) :
    (withCarrier x s).placeDescriptor c d = (s.placeDescriptor c d).map (withCarrier x) :=
  bind_map (memWrite_withCarrier ..) fun _ => bind_map (memWrite_withCarrier ..) fun _ =>
    bind_map (memWrite_withCarrier ..) fun _ => memWrite_withCarrier ..

theorem generateChirp_withCarrier : (withCarrier x s).generateChirp = s.generateChirp.map (withCarrier x) := by
  unfold State.generateChirp
  simp only [apply_ite (Except.map (withCarrier x))]
  rfl

theorem teConfigure_withCarrier (c : Chan) (p t b : BitVec 2) :
    (withCarrier x s).teConfigure c p t b = (s.teConfigure c p t b).map (withCarrier x) := by
  unfold State.teConfigure
  simp only [apply_ite (Except.map (withCarrier x)), setChan_withCarrier]
  rfl

theorem teArm_withCarrier (c : Chan) (a : Word) : (withCarrier x s).teArm c a = (s.teArm c a).map (withCarrier x) := by
  unfold State.teArm
  simp only [apply_ite (Except.map (withCarrier x)), setChan_withCarrier]
  rfl

theorem teEnable_withCarrier (c : Chan) : (withCarrier x s).teEnable c = (s.teEnable c).map (withCarrier x) := by
  have hload : (withCarrier x s).loadDesc ((withCarrier x s).chan c) ((withCarrier x s).chan c).descPtr =
      s.loadDesc (s.chan c) (s.chan c).descPtr := rfl
  unfold State.teEnable
  rw [hload, apply_ite (Except.map (withCarrier x)), apply_ite (Except.map (withCarrier x))]
  refine congrArg _ (congrArg _ ?_)
  split
  · rfl
  · rfl
  · exact congrArg Except.ok (setChan_withCarrier ..)

theorem gtConfigure_withCarrier (p c : Word) : (withCarrier x s).gtConfigure p c = (s.gtConfigure p c).map (withCarrier x) := by
  unfold State.gtConfigure
  simp only [apply_ite (Except.map (withCarrier x))]
  rfl

theorem gtRetrigger_withCarrier : (withCarrier x s).gtRetrigger = s.gtRetrigger.map (withCarrier x) := by
  unfold State.gtRetrigger
  rw [apply_ite (Except.map (withCarrier x))]
  rfl

theorem drain_withCarrier : (withCarrier x s).drain = s.drain.map (withCarrier x) := by
  unfold State.drain
  rw [apply_ite (Except.map (withCarrier x))]
  rfl

theorem handle_withCarrier (e : Event) (f : Flag) (name : String) :
    (withCarrier x s).handle e f name = (s.handle e f name).map (withCarrier x) := by
  unfold State.handle
  rw [apply_ite (Except.map (withCarrier x))]
  rfl

theorem moveElement_withCarrier (c : Chan) (v : Half) :
    (withCarrier x s).moveElement c v = (s.moveElement c v).map (withCarrier x) := by
  have hchan : (withCarrier x s).chan c = s.chan c := rfl
  unfold State.moveElement
  rw [hchan]
  cases elemSize (s.chan c).wCtrl with
  | none => rfl
  | some n =>
    change memRead (.beat c) v (s.chan c).wSrc n s >>= _ = (memRead (.beat c) v (s.chan c).wSrc n s >>= _).map _
    cases memRead (.beat c) v (s.chan c).wSrc n s with
    | error e => rfl
    | ok w =>
      exact bind_map (memWrite_withCarrier ..) fun _ => congrArg Except.ok (setChan_withCarrier ..)

theorem blockComplete_withCarrier (c : Chan) :
    (withCarrier x s).blockComplete c = (s.blockComplete c).map (withCarrier x) := by
  have hnext : successor (withCarrier x s) c = successor s c := by
    unfold successor
    rw [signalled_withCarrier]
    rfl
  have hchan : (withCarrier x s).chan c = s.chan c := rfl
  simp only [blockComplete_eq, hnext, hchan, signalled_withCarrier, setChan_withCarrier]
  cases successor s c <;> rfl

theorem teBeat_withCarrier (c : Chan) (v : Half) : (withCarrier x s).teBeat c v = (s.teBeat c v).map (withCarrier x) := by
  unfold State.teBeat
  rw [apply_ite (Except.map (withCarrier x))]
  refine congrArg _ (bind_map (moveElement_withCarrier ..) fun t => ?_)
  rw [apply_ite (Except.map (withCarrier x)), blockComplete_withCarrier]
  rfl

/-! ### The transitions -/

theorem idleToEmit_withCarrier : (withCarrier x s).idleToEmit = s.idleToEmit.map (withCarrier x) := by
  have hresume := teResume_withCarrier x (s.clearFlag .emitStart) .emit
  unfold State.idleToEmit
  rw [apply_ite (Except.map (withCarrier x))]
  exact congrArg (ite _ · _) (congrArg (fun t : State => Except.ok { t with acqState := .emit }) hresume)

theorem emitToWait_withCarrier : (withCarrier x s).emitToWait = s.emitToWait.map (withCarrier x) := by
  have htrigger : ((withCarrier x s).clearFlag .emitStop).gtRetrigger =
      ((s.clearFlag .emitStop).gtRetrigger).map (withCarrier x) := gtRetrigger_withCarrier x (s.clearFlag .emitStop)
  unfold State.emitToWait
  rw [apply_ite (Except.map (withCarrier x)), htrigger]
  cases (s.clearFlag .emitStop).gtRetrigger <;> rfl

theorem waitToListen_withCarrier : (withCarrier x s).waitToListen = s.waitToListen.map (withCarrier x) := by
  have hresume : (((withCarrier x s).clearFlag .waitStop).teResume .cap0).teResume .cap1 =
      withCarrier x (((s.clearFlag .waitStop).teResume .cap0).teResume .cap1) := by
    rw [← teResume_withCarrier, ← teResume_withCarrier]
    rfl
  unfold State.waitToListen
  rw [apply_ite (Except.map (withCarrier x)), hresume]
  rfl

theorem listenToIdle_withCarrier : (withCarrier x s).listenToIdle = s.listenToIdle.map (withCarrier x) := by
  have hdrain : (((withCarrier x s).clearFlag .cap0Done).clearFlag .cap1Done).drain =
      (((s.clearFlag .cap0Done).clearFlag .cap1Done).drain).map (withCarrier x) :=
    drain_withCarrier x ((s.clearFlag .cap0Done).clearFlag .cap1Done)
  unfold State.listenToIdle
  rw [apply_ite (Except.map (withCarrier x)), hdrain]
  cases ((s.clearFlag .cap0Done).clearFlag .cap1Done).drain <;> rfl

theorem noTransition_withCarrier : (withCarrier x s).noTransition = s.noTransition.map (withCarrier x) := by
  unfold State.noTransition
  rw [apply_ite (Except.map (withCarrier x))]
  rfl

theorem leave_withCarrier : leave (withCarrier x s) = (leave s).map (withCarrier x) := by
  have hstate : (withCarrier x s).acqState = s.acqState := rfl
  unfold leave
  rw [hstate]
  cases s.acqState with
  | idle => exact idleToEmit_withCarrier x s
  | emit => exact emitToWait_withCarrier x s
  | wait => exact waitToListen_withCarrier x s
  | listen => exact listenToIdle_withCarrier x s

theorem transition_withCarrier : transition (withCarrier x s) = mapNext (withCarrier x) (transition s) := by
  have hguard : (withCarrier x s).guardHolds = s.guardHolds := rfl
  cases hg : s.guardHolds with
  | false => rw [transition_of_not_guard (hguard.trans hg), transition_of_not_guard hg]; rfl
  | true => rw [transition_of_guard (hguard.trans hg), transition_of_guard hg, answer_map (leave_withCarrier x s)]

/-! ### Answers -/

theorem execAsEval_withCarrier : execAsEval (withCarrier x s) = mapNext (withCarrier x) (execAsEval s) := by
  have htransition := transition_withCarrier x { s with phase := .poll }
  unfold execAsEval
  rw [apply_ite (mapNext (withCarrier x)), ← htransition]
  rfl

theorem hostByte_withCarrier (b : Byte) : hostByte b (withCarrier x s) = mapNext (withCarrier x) (hostByte b s) := by
  unfold hostByte
  split
  · exact congrArg Host.Outcome.next (startJob_withCarrier x s)
  all_goals rfl

theorem execHlPoll_withCarrier : execHlPoll (withCarrier x s) = mapNext (withCarrier x) (execHlPoll s) := by
  have hqueue : (withCarrier x s).rxq = s.rxq := rfl
  unfold execHlPoll
  rw [apply_ite (mapNext (withCarrier x)), hqueue]
  refine congrArg _ ?_
  split
  · rfl
  · rename_i b rest _
    exact hostByte_withCarrier x { s with rxq := rest, phase := .eval } b

theorem execHAltTrig_withCarrier : execHAltTrig (withCarrier x s) = mapNext (withCarrier x) (execHAltTrig s) := by
  have hcount := countEdge_withCarrier x (s.ack .altEdge)
  unfold execHAltTrig
  rw [apply_ite (mapNext (withCarrier x))]
  exact congrArg (ite _ · _) (congrArg Host.Outcome.next hcount)

theorem execDescriptor_withCarrier (c : Chan) (d : Descriptor) :
    execDescriptor c d (withCarrier x s) = mapNext (withCarrier x) (execDescriptor c d s) := by
  unfold execDescriptor
  rw [apply_ite (mapNext (withCarrier x)), answer_map (placeDescriptor_withCarrier x s c d)]
  rfl

theorem execGtTick_withCarrier : execGtTick (withCarrier x s) = mapNext (withCarrier x) (execGtTick s) := by
  unfold execGtTick
  rw [apply_ite (mapNext (withCarrier x)), guardCount_withCarrier]
  rfl

theorem execEnvTrigger_withCarrier (c : Chan) :
    execEnvTrigger c (withCarrier x s) = mapNext (withCarrier x) (execEnvTrigger c s) := by
  unfold execEnvTrigger
  simp only [apply_ite (mapNext (withCarrier x)), setChan_withCarrier]
  rfl

theorem execEnvAltEdge_withCarrier : execEnvAltEdge (withCarrier x s) = mapNext (withCarrier x) (execEnvAltEdge s) := by
  unfold execEnvAltEdge
  rw [apply_ite (mapNext (withCarrier x))]
  rfl

end

/-! ### Every operation -/

/-- The operations that write or read the carrier's registers. -/
def UsesCarrier (i : Instr) : Prop :=
  i = .boot ∨ i = .ctEnable ∨ i = .ctTick ∨ ∃ per duty ind, i = .ctConfigure per duty ind

/-- Every other operation commutes with replacing the carrier's registers. -/
theorem exec_withCarrier {i : Instr} (h : ¬UsesCarrier i) (x : CarrierRegs) (s : State) :
    exec i (withCarrier x s) = mapNext (withCarrier x) (exec i s) := by
  cases i with
  | boot => exact absurd (.inl rfl) h
  | ctEnable => exact absurd (.inr (.inl rfl)) h
  | ctTick => exact absurd (.inr (.inr (.inl rfl))) h
  | ctConfigure per duty ind => exact absurd (.inr (.inr (.inr ⟨per, duty, ind, rfl⟩))) h
  | startJob => exact congrArg Host.Outcome.next (startJob_withCarrier x s)
  | ampEnable => rfl
  | ampDisable => rfl
  | rsvdLow low => rfl
  | ignored b => rfl
  | tIdleEmit => exact answer_map (idleToEmit_withCarrier x s)
  | tEmitWait => exact answer_map (emitToWait_withCarrier x s)
  | tWaitListen => exact answer_map (waitToListen_withCarrier x s)
  | tListenIdle => exact answer_map (listenToIdle_withCarrier x s)
  | tNone v => exact answer_map (noTransition_withCarrier x s)
  | hEmitDone => exact answer_map (handle_withCarrier x s ..)
  | hGuardOvf => exact answer_map (handle_withCarrier x s ..)
  | hCap0Done => exact answer_map (handle_withCarrier x s ..)
  | hCap1Done => exact answer_map (handle_withCarrier x s ..)
  | hAltTrig => exact execHAltTrig_withCarrier x s
  | csGenerate => exact answer_map (generateChirp_withCarrier x s)
  | teConfigure c prio trigsrc burst => exact answer_map (teConfigure_withCarrier x s ..)
  | teArm c a => exact answer_map (teArm_withCarrier x s ..)
  | teEnable c => exact answer_map (teEnable_withCarrier x s c)
  | teSuspend c => exact congrArg Host.Outcome.next (teSuspend_withCarrier x s c)
  | teResume c => exact congrArg Host.Outcome.next (teResume_withCarrier x s c)
  | teDisable c => exact congrArg Host.Outcome.next (setChan_withCarrier x s c _)
  | gtConfigure per cmp => exact answer_map (gtConfigure_withCarrier x s ..)
  | gtRetrigger => exact answer_map (gtRetrigger_withCarrier x s)
  | descriptor c d => exact execDescriptor_withCarrier x s c d
  | sample v => rfl
  | hlPoll => exact execHlPoll_withCarrier x s
  | asEval => exact execAsEval_withCarrier x s
  | hlDrain => exact answer_map (drain_withCarrier x s)
  | teBeat c v => exact answer_map (teBeat_withCarrier x s c v)
  | gtTick => exact execGtTick_withCarrier x s
  | envHostSend b => rfl
  | envTrigger c => exact execEnvTrigger_withCarrier x s c
  | envAltEdge => exact execEnvAltEdge_withCarrier x s

/-- Replacing the registers by themselves changes nothing, so they stand. -/
theorem exec_ct {i : Instr} {s t : State} (hi : ¬UsesCarrier i) (h : exec i s = .next t) : t.ct = s.ct := by
  have hself : exec i s = mapNext (withCarrier s.ct) (exec i s) := exec_withCarrier hi s.ct s
  rw [h] at hself
  have ht : t = withCarrier s.ct t := Host.Outcome.next.inj hself
  exact (congrArg State.ct ht :)

theorem exec_ctTick_eq {s t : State} (h : exec .ctTick s = .next t) : t = { s with ct := { s.ct with cnt := t.ct.cnt } } := by
  change execCtTick s = .next t at h
  unfold execCtTick at h
  split at h <;> cases h
  rfl

/-- Settles O46: the operations that do not use the carrier commute with replacing its registers. -/
theorem carrierIndependence : Obligations.CarrierIndependence := by
  refine ⟨fun i s t h => ⟨fun hct => ?_, ?_⟩, fun i s regs hboot henable htick hconfigure => ?_⟩
  · by_contra hi
    exact hct (exec_ct hi h)
  · rintro rfl
    exact exec_ctTick_eq h
  · have hi : ¬UsesCarrier i := by
      rintro (hi | hi | hi | ⟨per, duty, ind, hi⟩)
      · exact hboot hi
      · exact henable hi
      · exact htick hi
      · exact hconfigure per duty ind hi
    have hreplaced : exec i { s with ct := regs } = mapNext (withCarrier regs) (exec i s) := exec_withCarrier hi regs s
    rw [hreplaced]
    cases h : exec i s with
    | next t => exact ⟨exec_ct hi h, rfl⟩
    | refused r => rfl
    | fault e => cases e

end Sys2Proof.Proofs
end

section
/-! PROOF. The guard timer: its setup, one tick, and the interval of GT_PER ticks after a retrigger (43_guard_timer.md R201 to R205). -/

namespace Sys2Proof.Proofs

open Sys2Proof Sys2Proof.Machine

/-! ### Setup (R201, R202) -/

theorem guardOperands_iff {per cmp : Word} :
    guardOperands per cmp = true ↔ 1 ≤ per.toNat ∧ (cmp.toNat < per.toNat ∨ cmp = 0) := by
  simp [guardOperands, or_comm]

theorem gtConfigure_badOperand {per cmp : Word} (h : ¬guardOperands per cmp = true) (s : State) :
    s.gtConfigure per cmp = .error (.badOperand "GT_CONFIGURE") := by
  simp [State.gtConfigure, h]

theorem gtConfigure_running {s : State} {per cmp : Word} (ho : guardOperands per cmp = true) (hr : s.gt.run = true) :
    s.gtConfigure per cmp = .error (.timerRunning "GT_CONFIGURE") := by
  simp [State.gtConfigure, ho, hr]

/-- The state with the countdown started from GT_PER (R202). -/
def retriggered (s : State) : State := { s with gt := { s.gt with cnt := s.gt.per, run := true, aux := false } }

theorem exec_gtRetrigger {s : State} (h : s.gt.per ≠ 0) : exec .gtRetrigger s = .next (retriggered s) := by
  change answer s.gtRetrigger = _
  rw [State.gtRetrigger, if_neg h, answer_ok]
  rfl

theorem exec_gtRetrigger_unconfigured {s : State} (h : s.gt.per = 0) :
    exec .gtRetrigger s = .refused (.notConfigured "GT_RETRIGGER") := by
  change answer s.gtRetrigger = _
  rw [State.gtRetrigger, if_pos h, answer_error]

/-- Where a retrigger completes the timer is configured, and the countdown has started. -/
theorem exec_gtRetrigger_eq_next {s u : State} (h : exec .gtRetrigger s = .next u) : s.gt.per ≠ 0 ∧ u = retriggered s := by
  by_cases hp : s.gt.per = 0
  · rw [exec_gtRetrigger_unconfigured hp] at h
    cases h
  · rw [exec_gtRetrigger hp] at h
    cases h
    exact ⟨hp, rfl⟩

/-- Settles O47: the operands are tested before GT_RUN, and a retrigger tests GT_PER alone. -/
theorem guardSetup : Obligations.GuardSetup := by
  intro s per cmp ok hok
  rw [← guardOperands_iff] at hok
  refine ⟨hasOp_of_encodeOp rfl, hasOp_of_encodeOp rfl, fun h hr => ?_, fun h hr => ?_, fun h => ?_,
    exec_gtRetrigger, exec_gtRetrigger_unconfigured⟩ <;>
    change answer (s.gtConfigure per cmp) = _
  · rw [gtConfigure_ok (hok.1 h) hr, answer_ok]
  · rw [gtConfigure_running (hok.1 h) hr, answer_error]
  · rw [gtConfigure_badOperand (mt hok.2 h), answer_error]

/-! ### One tick (R203) -/

/-- The state with other values in GT_CNT and GT_AUX. -/
def withGtCount (s : State) (n : Word) (aux : Bool) : State := { s with gt := { s.gt with cnt := n, aux := aux } }

/-- The state with the timer stopped at 0 and EV_GUARD_OVF signalled. -/
def guardOverflowed (s : State) : State :=
  { s with gt := { s.gt with cnt := 0, run := false, aux := false }, evtPending := s.evtPending ||| 0b00010#5 }

theorem exec_gtTick_stopped {s : State} (hr : s.gt.run = false) : exec .gtTick s = .refused (.notEnabled "GT_TICK") :=
  if_neg (by simp [hr])

theorem exec_gtTick_running {s : State} (hr : s.gt.run = true) : exec .gtTick s = .next s.guardCount := if_pos hr

theorem guardCount_last {s : State} (h0 : s.gt.cnt ≠ 0) (h : s.gt.cnt - 1 = 0) : s.guardCount = guardOverflowed s := by
  simp only [State.guardCount, guardDown_of_ne h0]
  rw [if_pos h]
  rfl

/-- Before the last tick the compare point, once GT_CMP ticks have elapsed, sets GT_AUX, and no other count changes it. -/
theorem guardCount_before_last {s : State} (h0 : s.gt.cnt ≠ 0) (h : s.gt.cnt - 1 ≠ 0) :
    s.guardCount = withGtCount s (s.gt.cnt - 1)
      (s.gt.aux || decide (s.gt.cmp ≠ 0 ∧ (s.gt.cnt - 1).toNat + s.gt.cmp.toNat = s.gt.per.toNat)) := by
  simp only [State.guardCount, guardDown_of_ne h0]
  rw [if_neg h]
  split
  next hc => rw [decide_eq_true hc, Bool.or_true, withGtCount]
  next hc => rw [decide_eq_false hc, Bool.or_false, withGtCount]

/-- Settles O48: the last tick overflows, and a tick before it sets GT_AUX exactly at the compare point. -/
theorem guardTick : Obligations.GuardTick := by
  rintro s n rfl
  refine ⟨fun hr h0 h => ?_, fun hr h0 h hcmp heq => ?_, fun hr h0 h hne => ?_, exec_gtTick_stopped⟩ <;>
    rw [exec_gtTick_running hr]
  · rw [guardCount_last h0 h, guardOverflowed]
  · rw [guardCount_before_last h0 h, decide_eq_true ⟨hcmp, by omega⟩, Bool.or_true, withGtCount]
  · have hpoint : ¬(s.gt.cmp ≠ 0 ∧ (s.gt.cnt - 1).toNat + s.gt.cmp.toNat = s.gt.per.toNat) := by
      rintro ⟨hcmp, heq⟩
      exact hne.elim hcmp fun hne => hne (by omega)
    rw [guardCount_before_last h0 h, decide_eq_false hpoint, Bool.or_false, withGtCount]

/-! ### The interval (R203 to R205) -/

/-- The state when `k` ticks have been taken since the retrigger that left `u`. -/
def ticksElapsed (u : State) (k : Nat) : State :=
  withGtCount u (BitVec.ofNat 32 (u.gt.per.toNat - k)) (decide (u.gt.cmp ≠ 0 ∧ u.gt.cmp.toNat ≤ k))

/-- A retrigger leaves the countdown with no tick taken: GT_CMP is not 0 where it counts, so GT_AUX is 0. -/
theorem ticksElapsed_zero (s : State) : ticksElapsed (retriggered s) 0 = retriggered s := by
  have haux : ¬((retriggered s).gt.cmp ≠ 0 ∧ (retriggered s).gt.cmp.toNat ≤ 0) := fun ⟨hne, hle⟩ =>
    hne (BitVec.eq_of_toNat_eq (Nat.le_zero.1 hle))
  rw [ticksElapsed, decide_eq_false haux, Nat.sub_zero, BitVec.ofNat_toNat, BitVec.setWidth_eq]
  rfl

theorem ticksElapsed_cnt_toNat (u : State) (k : Nat) : (ticksElapsed u k).gt.cnt.toNat = u.gt.per.toNat - k := by
  have hper := u.gt.per.isLt
  simp only [ticksElapsed, withGtCount, BitVec.toNat_ofNat]
  omega

theorem ticksElapsed_cnt_ne_zero {u : State} {k : Nat} (h : k < u.gt.per.toNat) : (ticksElapsed u k).gt.cnt ≠ 0 := by
  intro hz
  have hcnt := ticksElapsed_cnt_toNat u k
  rw [hz, BitVec.ofNat_eq_ofNat, BitVec.toNat_zero] at hcnt
  omega

theorem ticksElapsed_cnt_sub_one {u : State} {k : Nat} (h : k < u.gt.per.toNat) :
    (ticksElapsed u k).gt.cnt - 1 = BitVec.ofNat 32 (u.gt.per.toNat - (k + 1)) := by
  have hcnt := ticksElapsed_cnt_toNat u k
  have hper := u.gt.per.isLt
  generalize (ticksElapsed u k).gt.cnt = n at hcnt ⊢
  bv_omega

/-- A tick before the last: the compare point is reached at tick GT_CMP, and GT_AUX stays 1 from there on (R204). -/
theorem exec_gtTick_ticksElapsed {u : State} {k : Nat} (hr : u.gt.run = true) (h : k + 1 < u.gt.per.toNat) :
    exec .gtTick (ticksElapsed u k) = .next (ticksElapsed u (k + 1)) := by
  have hsub := ticksElapsed_cnt_sub_one (u := u) (k := k) (by omega)
  have hne : (ticksElapsed u k).gt.cnt - 1 ≠ 0 := by
    rw [hsub]
    exact ticksElapsed_cnt_ne_zero h
  have hcnt : ((ticksElapsed u k).gt.cnt - 1).toNat = u.gt.per.toNat - (k + 1) := by
    rw [hsub]
    exact ticksElapsed_cnt_toNat u (k + 1)
  have haux : (decide (u.gt.cmp ≠ 0 ∧ u.gt.cmp.toNat ≤ k) ||
      decide (u.gt.cmp ≠ 0 ∧ u.gt.per.toNat - (k + 1) + u.gt.cmp.toNat = u.gt.per.toNat)) =
      decide (u.gt.cmp ≠ 0 ∧ u.gt.cmp.toNat ≤ k + 1) := by
    rw [← Bool.decide_or, decide_eq_decide, ← and_or_left]
    exact and_congr_right fun _ => by omega
  rw [exec_gtTick_running (s := ticksElapsed u k) hr, guardCount_before_last (ticksElapsed_cnt_ne_zero (by omega)) hne, hcnt, hsub]
  exact congrArg (fun aux => Host.Outcome.next (withGtCount u _ aux)) haux

/-- Tick GT_PER overflows, whatever the compare point. -/
theorem exec_gtTick_ticksElapsed_last {u : State} {k : Nat} (hr : u.gt.run = true) (h : k + 1 = u.gt.per.toNat) :
    exec .gtTick (ticksElapsed u k) = .next (guardOverflowed u) := by
  have hz : (ticksElapsed u k).gt.cnt - 1 = 0 := by
    rw [ticksElapsed_cnt_sub_one (by omega), h, Nat.sub_self]
    rfl
  rw [exec_gtTick_running (s := ticksElapsed u k) hr, guardCount_last (ticksElapsed_cnt_ne_zero (by omega)) hz]
  rfl

/-- One operation taken `k` times goes through the states of a sequence that it steps along. -/
theorem runAll_replicate {i : Instr} {f : Nat → State} {k : Nat} (h : ∀ j < k, exec i (f j) = .next (f (j + 1)))
    (rest : List Instr) : runAll (List.replicate k i ++ rest) (f 0) = runAll rest (f k) := by
  induction k generalizing f with
  | zero => rfl
  | succ k ih =>
    rw [List.replicate_succ, List.cons_append, runAll, h 0 (by omega)]
    exact ih (f := fun j => f (j + 1)) fun j hj => h (j + 1) (by omega)

/-- Fewer than GT_PER ticks after a retrigger are all taken. -/
theorem runAll_gtTick_retriggered {s : State} {k : Nat} (hk : k < s.gt.per.toNat) (rest : List Instr) :
    runAll (List.replicate k .gtTick ++ rest) (retriggered s) = runAll rest (ticksElapsed (retriggered s) k) := by
  have hrun := runAll_replicate (i := .gtTick) (f := ticksElapsed (retriggered s)) (k := k)
    (fun j hj => exec_gtTick_ticksElapsed rfl (Nat.lt_of_le_of_lt hj hk)) rest
  rwa [ticksElapsed_zero] at hrun

/-- GT_PER ticks after a retrigger leave the overflow, and what follows them starts there. -/
theorem runAll_gtTick_overflow {s : State} (h : s.gt.per ≠ 0) (rest : List Instr) :
    runAll (List.replicate s.gt.per.toNat .gtTick ++ rest) (retriggered s) =
      runAll rest (guardOverflowed (retriggered s)) := by
  obtain ⟨k, hk⟩ : ∃ k, s.gt.per.toNat = k + 1 :=
    Nat.exists_eq_succ_of_ne_zero fun hz => h (BitVec.eq_of_toNat_eq hz)
  rw [hk, List.replicate_succ', List.append_assoc, runAll_gtTick_retriggered (by omega), List.singleton_append, runAll,
    exec_gtTick_ticksElapsed_last (u := retriggered s) rfl hk.symm]

/-- Settles O49: the countdown goes through `ticksElapsed` up to the overflow, which stops the timer. -/
theorem guardInterval : Obligations.GuardInterval := by
  intro s u hu
  obtain ⟨hper, rfl⟩ := exec_gtRetrigger_eq_next hu
  have hinterval := runAll_gtTick_overflow hper
  refine ⟨fun k hk => ?_, ?_, ?_⟩
  · rw [← List.append_nil (List.replicate k _), runAll_gtTick_retriggered hk]
    rfl
  · rw [← List.append_nil (List.replicate _ _), hinterval]
    rfl
  · rw [List.replicate_succ', hinterval, runAll, exec_gtTick_stopped rfl]

end Sys2Proof.Proofs
end

section
/-! PROOF. The acquisition state machine: the order of its states, the row of format T that a vector selects, each transition where its
guard holds and where it does not, and the evaluation (44_acq_fsm.md R216 to R221, R225). -/

namespace Sys2Proof.Proofs

open Sys2Proof Sys2Proof.Machine

/-! ### The order of the states (R225) -/

theorem departed_acqState (s : State) : (departed s).acqState = nextAcq s.acqState := by
  unfold departed
  split <;> simp [nextAcq, *]

/-- ACQ_STATE changes only where the state machine leaves a state, and then to the next one (R21, R225). -/
theorem Effect.acqState_of_ne {s t : State} {i : Instr} (h : Effect s t i) (hne : t.acqState ≠ s.acqState) :
    t.acqState = nextAcq s.acqState ∧ (i = .asEval ∨ i = transitionOf s.acqState) := by
  cases h with
  | stands hc => exact absurd (congrArg Control.acqState hc) hne
  | sets f _ hc => exact absurd (congrArg Control.acqState hc) hne
  | departs hi hc => exact ⟨(congrArg Control.acqState hc).trans (departed_acqState s), hi⟩
  | sends sent _ hc => exact absurd (congrArg Control.acqState hc) hne

/-- Settles O20: a change of ACQ_STATE is a departure, state by state. -/
theorem stateSequence : Obligations.StateSequence := by
  intro i s t h hne
  obtain ⟨hnext, hi⟩ := (exec_effect h).acqState_of_ne hne
  rw [hnext]
  cases ha : s.acqState <;> rw [ha] at hi
  · exact ⟨.inl ⟨rfl, rfl⟩, hi.imp_right .inl⟩
  · exact ⟨.inr (.inl ⟨rfl, rfl⟩), hi.imp_right (.inr ∘ .inl)⟩
  · exact ⟨.inr (.inr (.inl ⟨rfl, rfl⟩)), hi.imp_right (.inr ∘ .inr ∘ .inl)⟩
  · exact ⟨.inr (.inr (.inr ⟨rfl, rfl⟩)), hi.imp_right (.inr ∘ .inr ∘ .inr)⟩

/-! ### The row of a vector (R101) -/

theorem decode_t_eq_ok {v : BitVec 7} {i : Instr} : decode ⟨.t, [v.setWidth 8]⟩ = .ok i ↔ selectT v = i := by
  rw [show decode ⟨.t, [v.setWidth 8]⟩ = decodeT (v.setWidth 8) from rfl, decodeT_setWidth, Except.ok.injEq]

theorem selectT_eq_tIdleEmit (v : BitVec 7) : selectT v = .tIdleEmit ↔ v &&& 0x07 = 0x04 := by
  rw [tIdleEmit_mask, selectT_eq]
  split_ifs with h0
  · exact iff_of_true rfl h0
  all_goals exact iff_of_false nofun h0

/-- A later row is selected wherever it matches, since an earlier one matches another ACQ_STATE only. -/
theorem selectT_eq_tEmitWait (v : BitVec 7) : selectT v = .tEmitWait ↔ v &&& 0x0B = 0x09 := by
  rw [tEmitWait_mask, selectT_eq]
  split_ifs with h0 h1
  · simp [h0.1]
  · exact iff_of_true rfl h1
  all_goals exact iff_of_false nofun h1

theorem selectT_eq_tWaitListen (v : BitVec 7) : selectT v = .tWaitListen ↔ v &&& 0x13 = 0x12 := by
  rw [tWaitListen_mask, selectT_eq]
  split_ifs with h0 h1 h2
  · simp [h0.1]
  · simp [h1.1]
  · exact iff_of_true rfl h2
  all_goals exact iff_of_false nofun h2

theorem selectT_eq_tListenIdle (v : BitVec 7) : selectT v = .tListenIdle ↔ v &&& 0x63 = 0x63 := by
  rw [tListenIdle_mask, selectT_eq]
  split_ifs with h0 h1 h2 h3
  · simp [h0.1]
  · simp [h1.1]
  · simp [h2.1]
  · exact iff_of_true rfl h3
  · exact iff_of_false nofun h3

theorem selectT_eq_tNone (v : BitVec 7) :
    selectT v = .tNone v ↔
      ¬(v &&& 0x07 = 0x04 ∨ v &&& 0x0B = 0x09 ∨ v &&& 0x13 = 0x12 ∨ v &&& 0x63 = 0x63) := by
  unfold selectT
  split_ifs with h0 h1 h2 h3
  · exact iff_of_false nofun (not_not.2 (.inl h0))
  · exact iff_of_false nofun (not_not.2 (.inr (.inl h1)))
  · exact iff_of_false nofun (not_not.2 (.inr (.inr (.inl h2))))
  · exact iff_of_false nofun (not_not.2 (.inr (.inr (.inr h3))))
  · exact iff_of_true rfl (by tauto)

/-! ### The guards (R217 to R221) -/

/-- The four guards by state and flag. -/
theorem guardHolds_iff (s : State) :
    s.guardHolds = true ↔
      (s.acqState = .idle ∧ s.flags.getLsbD 0 = true) ∨ (s.acqState = .emit ∧ s.flags.getLsbD 1 = true) ∨
        (s.acqState = .wait ∧ s.flags.getLsbD 2 = true) ∨
        (s.acqState = .listen ∧ s.flags.getLsbD 3 = true ∧ s.flags.getLsbD 4 = true) := by
  unfold State.guardHolds
  cases s.acqState <;> simp [flag_eq_getLsbD, bitOf]

theorem exec_tNone_of_not_guard {s : State} (h : ¬s.guardHolds = true) (v : BitVec 7) : exec (.tNone v) s = .next s := by
  change answer s.noTransition = _
  rw [State.noTransition, if_neg h, answer_ok]

theorem exec_tNone_of_guard {s : State} (h : s.guardHolds = true) (v : BitVec 7) :
    exec (.tNone v) s = .refused (.notEnabled "T_NONE") := by
  change answer s.noTransition = _
  rw [State.noTransition, if_pos h, answer_error]

/-- Settles O17: the row is the default of the selection, and without a guard T_NONE is taken and keeps the state. -/
theorem noTransition : Obligations.NoTransition :=
  ⟨fun v => decode_t_eq_ok.trans (selectT_eq_tNone v), fun s v h => exec_tNone_of_not_guard (mt (guardHolds_iff s).1 h) v⟩

/-- Settles O18: each operation tests its own guard first. -/
theorem guardsDecline : Obligations.GuardsDecline := by
  intro s
  have hbit := flag_eq_getLsbD s
  refine ⟨fun h => ?_, fun h => ?_, fun h => ?_, fun h => ?_, fun v h => exec_tNone_of_guard ((guardHolds_iff s).2 h) v⟩
  · exact congrArg answer (if_neg (by rwa [hbit]))
  · exact congrArg answer (if_neg (by rwa [hbit]))
  · exact congrArg answer (if_neg (by rwa [hbit]))
  · exact congrArg answer (if_neg (by rwa [hbit, hbit]))

/-! ### The transitions where their guards hold -/

/-- The registers of a channel after a resume (R156): ACTIVE if it was SUSPENDED. -/
def resumed (r : ChanRegs) : ChanRegs := { r with state := if r.state = .suspended then .active else r.state }

theorem teResume_eq (s : State) (c : Chan) : s.teResume c = s.setChan c (resumed (s.chan c)) := by
  by_cases h : (s.chan c).state = .suspended
  · rw [teResume_of_suspended h, resumed, if_pos h]
  · rw [resumed, if_neg h, State.setChan_chan]
    exact if_neg h

/-- Settles O13: the guard holds, and the resume is of channel 0. -/
theorem idleToEmit : Obligations.IdleToEmit := by
  refine ⟨fun v => decode_t_eq_ok.trans (selectT_eq_tIdleEmit v), fun s ha hf => ?_⟩
  have hf : s.flag .emitStart = true := (flag_eq_getLsbD s .emitStart).trans hf
  change answer s.idleToEmit = _
  rw [State.idleToEmit, if_pos ⟨ha, hf⟩, teResume_eq]
  rfl

/-- Settles O14: the guard holds, and the retrigger completes where GT_PER is set. -/
theorem emitToWait : Obligations.EmitToWait := by
  refine ⟨fun v => decode_t_eq_ok.trans (selectT_eq_tEmitWait v), fun s ha hf => ?_⟩
  have hf : s.flag .emitStop = true := (flag_eq_getLsbD s .emitStop).trans hf
  refine ⟨fun hper => congrArg answer (emitToWait_eq ha hf hper), fun hper => ?_⟩
  have hretrigger : (s.clearFlag .emitStop).gtRetrigger = .error (.notConfigured "GT_RETRIGGER") := if_pos hper
  change answer s.emitToWait = _
  rw [State.emitToWait, if_pos ⟨ha, hf⟩, hretrigger]
  rfl

/-- Settles O15: the guard holds, and the two resumes are of different channels. -/
theorem waitToListen : Obligations.WaitToListen := by
  refine ⟨fun v => decode_t_eq_ok.trans (selectT_eq_tWaitListen v), fun s ha hf => ?_⟩
  have hf : s.flag .waitStop = true := (flag_eq_getLsbD s .waitStop).trans hf
  change answer s.waitToListen = _
  rw [State.waitToListen, if_pos ⟨ha, hf⟩, teResume_eq, teResume_eq]
  rfl

/-- The elements of a buffer, each low byte first, are its bytes in address order (R94, R247). -/
theorem bufferBytes_eq (s : State) (b n : Nat) :
    s.bufferBytes b n = (List.range (2 * n)).map fun k => Memory.read s.mem (b + k) := by
  induction n with
  | zero => rfl
  | succ n ih =>
    have hlast : sampleBytes (s.element b n) = [Memory.read s.mem (b + 2 * n), Memory.read s.mem (b + (2 * n + 1))] :=
      bytes_le16 _ _
    have hsplit : s.bufferBytes b (n + 1) = s.bufferBytes b n ++ sampleBytes (s.element b n) := by
      simp [State.bufferBytes, List.range_succ]
    rw [hsplit, ih, hlast, show 2 * (n + 1) = 2 * n + 1 + 1 from rfl, List.range_succ, List.range_succ]
    simp

theorem payload_eq (s : State) :
    s.payload =
      (List.range (2 * s.cfg.nCap)).map (fun k => Memory.read s.mem (s.cfg.cap0Base + k)) ++
        (List.range (2 * s.cfg.nCap)).map (fun k => Memory.read s.mem (s.cfg.cap1Base + k)) := by
  rw [State.payload, bufferBytes_eq, bufferBytes_eq]

/-- Settles O16: both capture flags are set, so the drain is taken, and with legal parameters it appends the payload. -/
theorem listenToIdle : Obligations.ListenToIdle := by
  refine ⟨fun v => decode_t_eq_ok.trans (selectT_eq_tListenIdle v), fun s hl ha h0 h1 => ?_⟩
  have h0 : s.flag .cap0Done = true := (flag_eq_getLsbD s .cap0Done).trans h0
  have h1 : s.flag .cap1Done = true := (flag_eq_getLsbD s .cap1Done).trans h1
  have hflags : s.flags &&& ~~~Flag.mask .cap0Done &&& ~~~Flag.mask .cap1Done = s.flags &&& 0b00111#5 := BitVec.and_assoc ..
  change answer s.listenToIdle = _
  rw [listenToIdle_eq ha h0 h1 hl, payload_eq, answer_ok, ← hflags]
  rfl

/-! ### The evaluation (R216) -/

theorem exec_asEval_due {s : State} (h : s.phase = .eval) : exec .asEval s = transition { s with phase := .poll } :=
  if_neg (not_not.2 h)

/-- The rows on the vector of the state are tried in order, and the operation of the first that matches is run. -/
theorem transition_eq (s : State) :
    transition s =
      if s.vector &&& 0x07 = 0x04 then exec .tIdleEmit s
      else if s.vector &&& 0x0B = 0x09 then exec .tEmitWait s
      else if s.vector &&& 0x13 = 0x12 then exec .tWaitListen s
      else if s.vector &&& 0x63 = 0x63 then exec .tListenIdle s
      else exec (.tNone s.vector) s := by
  unfold transition selectT
  split_ifs <;> rfl

/-- Where a guard holds an evaluation that is due is the transition of the state. -/
theorem exec_asEval_of_guard {s : State} {a : AcqState} (h : s.phase = .eval) (hg : s.guardHolds = true) (ha : s.acqState = a) :
    exec .asEval s = exec (transitionOf a) { s with phase := .poll } := by
  rw [exec_asEval_due h, transition_of_guard (s := { s with phase := .poll }) hg, leave, ha]
  cases a <;> rfl

/-- With legal parameters and a configured guard timer an evaluation that is due completes. -/
theorem exec_asEval_completes {s : State} (h : s.phase = .eval) (hl : s.cfg.Legal) (hper : s.gt.per ≠ 0) :
    ∃ t, exec .asEval s = .next t ∧ t.phase = .poll := by
  by_cases hg : s.guardHolds = true
  · have htaken {a : AcqState} (ha : s.acqState = a) := exec_asEval_of_guard h hg ha
    obtain ⟨ha, hf⟩ | ⟨ha, hf⟩ | ⟨ha, hf⟩ | ⟨ha, h0, h1⟩ := (guardHolds_iff s).1 hg
    · exact ⟨_, (htaken ha).trans (idleToEmit.2 _ ha hf), rfl⟩
    · exact ⟨_, (htaken ha).trans ((emitToWait.2 { s with phase := .poll } ha hf).1 hper), rfl⟩
    · exact ⟨_, (htaken ha).trans (waitToListen.2 _ ha hf), rfl⟩
    · exact ⟨_, (htaken ha).trans (listenToIdle.2 _ hl ha h0 h1), rfl⟩
  · have hstay := transition_of_not_guard (s := { s with phase := .poll }) (Bool.not_eq_true _ ▸ hg)
    exact ⟨_, (exec_asEval_due h).trans hstay, rfl⟩

/-- Settles O19: the vector is FLAGS before the code of ACQ_STATE, and the rows are tried in order. -/
theorem evaluationSelects : Obligations.EvaluationSelects := by
  refine ⟨?_, fun s => exec_asEval_completes, fun s h => if_pos h⟩
  rintro s u v hp rfl rfl
  have hv : ({ s with phase := .poll } : State).vector =
      s.flags ++ (match s.acqState with | .idle => 0#2 | .emit => 1#2 | .wait => 2#2 | .listen => 3#2) := by
    simp only [State.vector]
    cases s.acqState <;> rfl
  rw [exec_asEval_due hp, transition_eq, hv]
  rfl

end Sys2Proof.Proofs
end

section
/-! PROOF. The host link (45_host_link.md): the outcomes of a host byte (R242 to R246), the poll (R241), and the drain (R247). -/

namespace Sys2Proof.Proofs

open Sys2Proof Sys2Proof.Machine

/-! ### Host bytes (R92) -/

theorem decode_h_eq_ok {b : Byte} {i : Instr} : decode ⟨.h, [b]⟩ = .ok i ↔ decodeByte b = i := by
  rw [(hostOpcodeMap b).1, Except.ok.injEq]

/-! ### The outcomes (R242 to R246) -/

theorem exec_startJob (s : State) :
    exec .startJob s =
      .next (if s.acqState = .idle then { s with flags := s.flags ||| 0b00001#5, jobInd := !s.jobInd } else s) := rfl

theorem exec_rsvdLow (s : State) (low : BitVec 4) : exec (.rsvdLow low) s = .next s := rfl

theorem exec_ignored (s : State) (b : Byte) : exec (.ignored b) s = .next s := rfl

/-- Settles O6: the map's row 0x10, and the operation tests ACQ_STATE alone. -/
theorem startJob : Obligations.StartJob := by
  refine ⟨fun b => ?_, exec_startJob⟩
  obtain ⟨-, hstart, -⟩ := hostOpcodeMap b
  rw [decode_h_eq_ok, hstart, ← BitVec.toNat_inj]
  rfl

/-- Settles O7: the map's rows 0xFE and 0xFF, and each operation is one write. -/
theorem amplifierCommands : Obligations.AmplifierCommands := by
  refine ⟨fun b => ?_, fun s => ⟨rfl, rfl⟩⟩
  obtain ⟨-, -, henable, hdisable, -⟩ := hostOpcodeMap b
  rw [decode_h_eq_ok, decode_h_eq_ok, henable, hdisable, ← BitVec.toNat_inj, ← BitVec.toNat_inj]
  exact ⟨Iff.rfl, Iff.rfl⟩

/-- Settles O8: both operations answer the state they are given. -/
theorem ignoredOutcomes : Obligations.IgnoredOutcomes :=
  fun s low b => ⟨exec_rsvdLow s low, exec_ignored s b⟩

/-! ### The poll (R241) -/

/-- What a host byte does is the operation it decodes to. -/
theorem hostByte_eq (b : Byte) (s : State) : hostByte b s = exec (decodeByte b) s := by
  unfold hostByte
  rw [decodeByte_eq]
  split_ifs <;> rfl

theorem exec_hlPoll_not_due {s : State} (h : s.phase ≠ .poll) : exec .hlPoll s = .refused (.notEnabled "HL_POLL") := if_pos h

theorem exec_hlPoll_empty {s : State} (h : s.phase = .poll) (hq : s.rxq = []) :
    exec .hlPoll s = .next { s with phase := .eval } := by
  change execHlPoll s = _
  rw [execHlPoll, if_neg (not_not.2 h), hq]

/-- A poll that is due removes the oldest byte and runs the operation it decodes to. -/
theorem exec_hlPoll_cons {s : State} {b : Byte} {rest : List Byte} (h : s.phase = .poll) (hq : s.rxq = b :: rest) :
    exec .hlPoll s = exec (decodeByte b) { s with phase := .eval, rxq := rest } := by
  rw [← hostByte_eq]
  change execHlPoll s = _
  rw [execHlPoll, if_neg (not_not.2 h), hq]

/-- The outcome of a byte by its number, the last two rows of the map doing nothing (R242 to R246). -/
theorem exec_decodeByte (b : Byte) (s : State) :
    exec (decodeByte b) s =
      .next (if b.toNat = 0x10 then
          if s.acqState = .idle then { s with flags := s.flags ||| 0b00001#5, jobInd := !s.jobInd } else s
        else if b.toNat = 0xFE then { s with ampEn := true }
        else if b.toNat = 0xFF then { s with ampEn := false }
        else s) := by
  rw [decodeByte_eq]
  split_ifs with hstart hidle henable hdisable hlow
  · rw [exec_startJob, if_pos hidle]
  · rw [exec_startJob, if_neg hidle]
  · rfl
  · rfl
  · exact exec_rsvdLow s _
  · exact exec_ignored s b

/-- Settles O9: the queue is empty or has an oldest byte, and that byte's outcome is its operation's. -/
theorem hostPoll : Obligations.HostPoll := by
  refine ⟨fun s => exec_hlPoll_empty, ?_, fun s => exec_hlPoll_not_due⟩
  rintro s u b rest h hq rfl
  rw [exec_hlPoll_cons h hq, exec_decodeByte]

/-! ### The drain (R247) -/

/-- Settles O12: with legal parameters the drain appends the payload, which is the bytes of the two buffers. -/
theorem drainPayload : Obligations.DrainPayload := by
  intro s hl
  refine ⟨s.payload, ?_, s.payload_length, payload_eq s⟩
  change answer s.drain = _
  rw [State.drain_legal hl, answer_ok]

end Sys2Proof.Proofs
end

section
/-! PROOF. AMP_EN stands apart (45_host_link.md R248). No operation reads it and only the amplifier commands write it: every other operation
commutes with replacing it, a poll that takes no amplifier command among them. -/

namespace Sys2Proof.Proofs

open Sys2Proof Sys2Proof.Machine

/-- The state with `b` in AMP_EN. -/
def withAmp (b : Bool) (s : State) : State := { s with ampEn := b }

/-- An operation neither reads AMP_EN nor writes it: replaced before, it is replaced after, and a refusal is the same. -/
def Blind (g : State → Except Refusal State) : Prop := ∀ b s, g (withAmp b s) = (g s).map (withAmp b)

/-- A branch on what `f` leaves alone commutes with `f` where both of its sides do. -/
theorem ite_commutes {α β : Type} {f : α → β} {c : Prop} [Decidable c] {x y : α} {x' y' : β} (hx : x' = f x) (hy : y' = f y) :
    (if c then x' else y') = f (if c then x else y) := by
  rw [hx, hy, apply_ite f]

/-- What goes on from the same value commutes with `f` where it does so from every value. -/
theorem bind_commutes {α : Type} {f : State → State} {x : Except Refusal α} {g g' : α → Except Refusal State}
    (hg : ∀ a, g' a = (g a).map f) : x >>= g' = (x >>= g).map f := by
  cases x with
  | error e => rfl
  | ok a => exact hg a

/-! ### Updates of the state -/

section

variable (b : Bool) (s : State)

theorem setChan_withAmp (c : Chan) (r : ChanRegs) : (withAmp b s).setChan c r = withAmp b (s.setChan c r) := by
  cases c <;> rfl

theorem startJob_withAmp : (withAmp b s).startJob = withAmp b s.startJob := ite_commutes rfl rfl

theorem teSuspend_withAmp (c : Chan) : (withAmp b s).teSuspend c = withAmp b (s.teSuspend c) :=
  ite_commutes (setChan_withAmp ..) rfl

theorem teResume_withAmp (c : Chan) : (withAmp b s).teResume c = withAmp b (s.teResume c) :=
  ite_commutes (setChan_withAmp ..) rfl

theorem countEdge_withAmp : (withAmp b s).countEdge = withAmp b s.countEdge := ite_commutes rfl rfl

theorem guardCount_withAmp : (withAmp b s).guardCount = withAmp b s.guardCount := ite_commutes rfl (ite_commutes rfl rfl)

theorem signalled_withAmp (c : Chan) : signalled (withAmp b s) c = withAmp b (signalled s c) := ite_commutes rfl rfl

end

/-! ### Operations -/

theorem Blind.answer_withAmp {g : State → Except Refusal State} (hg : Blind g) (b : Bool) (s : State) :
    answer (g (withAmp b s)) = mapNext (withAmp b) (answer (g s)) :=
  answer_map (hg b s)

theorem blind_memWrite (who : Master) (a : Word) (n : Size) (v : Word) : Blind (memWrite who a n v) := by
  intro b s
  have hcfg : (withAmp b s).cfg = s.cfg := rfl
  unfold memWrite
  refine ite_commutes rfl ?_
  rw [hcfg]
  cases regionOf s.cfg a.toNat n.bytes with
  | none => rfl
  | some r =>
    refine ite_commutes (ite_commutes rfl ?_) rfl
    cases r with
    | dacData => exact ite_commutes rfl rfl
    | chirp | cap0 | cap1 | desc | adc0 | adc1 => rfl

theorem blind_placeDescriptor (c : Chan) (d : Descriptor) : Blind (·.placeDescriptor c d) := fun b _ =>
  bind_map (blind_memWrite _ _ _ _ b _) fun _ => bind_map (blind_memWrite _ _ _ _ b _) fun _ =>
    bind_map (blind_memWrite _ _ _ _ b _) fun _ => blind_memWrite _ _ _ _ b _

theorem blind_generateChirp : Blind State.generateChirp := fun _ _ => ite_commutes rfl (ite_commutes rfl rfl)

theorem blind_teConfigure (c : Chan) (prio trigsrc burst : BitVec 2) : Blind (·.teConfigure c prio trigsrc burst) := fun _ _ =>
  ite_commutes rfl (ite_commutes rfl (congrArg Except.ok (setChan_withAmp ..)))

theorem blind_teArm (c : Chan) (a : Word) : Blind (·.teArm c a) := fun _ _ =>
  ite_commutes rfl (ite_commutes rfl (congrArg Except.ok (setChan_withAmp ..)))

theorem blind_teEnable (c : Chan) : Blind (·.teEnable c) := by
  intro b s
  have hload : (withAmp b s).loadDesc ((withAmp b s).chan c) ((withAmp b s).chan c).descPtr =
      s.loadDesc (s.chan c) (s.chan c).descPtr := rfl
  dsimp only [State.teEnable]
  refine ite_commutes rfl (ite_commutes rfl ?_)
  rw [hload]
  obtain e | _ | r := s.loadDesc (s.chan c) (s.chan c).descPtr
  · rfl
  · rfl
  · exact congrArg Except.ok (setChan_withAmp ..)

theorem blind_ctConfigure (per duty ind : Half) : Blind (·.ctConfigure per duty ind) := fun _ _ =>
  ite_commutes rfl (ite_commutes rfl rfl)

theorem blind_ctEnable : Blind State.ctEnable := fun _ _ => ite_commutes rfl rfl

theorem blind_gtConfigure (per cmp : Word) : Blind (·.gtConfigure per cmp) := fun _ _ =>
  ite_commutes rfl (ite_commutes rfl rfl)

theorem blind_gtRetrigger : Blind State.gtRetrigger := fun _ _ => ite_commutes rfl rfl

theorem blind_drain : Blind State.drain := fun _ _ => ite_commutes rfl rfl

theorem blind_handle (e : Event) (f : Flag) (name : String) : Blind (·.handle e f name) := fun _ _ => ite_commutes rfl rfl

theorem blind_moveElement (c : Chan) (v : Half) : Blind (·.moveElement c v) := by
  intro b s
  have hchan : (withAmp b s).chan c = s.chan c := rfl
  dsimp only [State.moveElement]
  rw [hchan]
  cases elemSize (s.chan c).wCtrl with
  | none => rfl
  | some n =>
    exact bind_commutes (x := memRead (.beat c) v (s.chan c).wSrc n s) fun _ =>
      bind_map (blind_memWrite _ _ _ _ b s) fun _ => congrArg Except.ok (setChan_withAmp ..)

theorem blind_blockComplete (c : Chan) : Blind (·.blockComplete c) := by
  intro b s
  have hnext : successor (withAmp b s) c = successor s c := by
    unfold successor
    rw [signalled_withAmp]
    rfl
  have hchan : (withAmp b s).chan c = s.chan c := rfl
  simp only [blockComplete_eq, hnext, hchan, signalled_withAmp, setChan_withAmp]
  cases successor s c <;> rfl

theorem blind_teBeat (c : Chan) (v : Half) : Blind (·.teBeat c v) := fun b s =>
  ite_commutes rfl (bind_map (blind_moveElement c v b s) fun t => ite_commutes (blind_blockComplete c b t) rfl)

theorem blind_bootChannel (c : Chan) : Blind (·.bootChannel c) := fun b _ =>
  bind_map (blind_teConfigure _ _ _ _ b _) fun _ => bind_map (blind_teArm _ _ b _) fun _ =>
    bind_map (blind_teEnable _ b _) fun _ => congrArg Except.ok (teSuspend_withAmp ..)

theorem blind_bootUnits : Blind State.bootUnits := fun b _ =>
  bind_map (blind_generateChirp b _) fun _ =>
  bind_map (blind_placeDescriptor _ _ b _) fun _ => bind_map (blind_placeDescriptor _ _ b _) fun _ =>
  bind_map (blind_placeDescriptor _ _ b _) fun _ =>
  bind_map (blind_bootChannel _ b _) fun _ => bind_map (blind_bootChannel _ b _) fun _ =>
  bind_map (blind_bootChannel _ b _) fun _ =>
  bind_map (blind_ctConfigure _ _ _ b _) fun _ => bind_map (blind_ctEnable b _) fun _ => blind_gtConfigure _ _ b _

/-! ### The transitions -/

theorem blind_idleToEmit : Blind State.idleToEmit := fun b s =>
  have hresume : ((withAmp b s).clearFlag .emitStart).teResume .emit = withAmp b ((s.clearFlag .emitStart).teResume .emit) :=
    teResume_withAmp b (s.clearFlag .emitStart) .emit
  ite_commutes (congrArg (fun t : State => Except.ok { t with acqState := .emit }) hresume) rfl

theorem blind_emitToWait : Blind State.emitToWait := by
  intro b s
  have htrigger : ((withAmp b s).clearFlag .emitStop).gtRetrigger = ((s.clearFlag .emitStop).gtRetrigger).map (withAmp b) :=
    blind_gtRetrigger b (s.clearFlag .emitStop)
  unfold State.emitToWait
  refine ite_commutes ?_ rfl
  rw [htrigger]
  cases (s.clearFlag .emitStop).gtRetrigger <;> rfl

theorem blind_waitToListen : Blind State.waitToListen := fun b s =>
  have hresume : (((withAmp b s).clearFlag .waitStop).teResume .cap0).teResume .cap1 =
      withAmp b (((s.clearFlag .waitStop).teResume .cap0).teResume .cap1) :=
    (congrArg (·.teResume .cap1) (teResume_withAmp b (s.clearFlag .waitStop) .cap0)).trans (teResume_withAmp b _ .cap1)
  ite_commutes (congrArg (fun t : State => Except.ok { t with acqState := .listen }) hresume) rfl

theorem blind_listenToIdle : Blind State.listenToIdle := by
  intro b s
  have hdrain : (((withAmp b s).clearFlag .cap0Done).clearFlag .cap1Done).drain =
      (((s.clearFlag .cap0Done).clearFlag .cap1Done).drain).map (withAmp b) :=
    blind_drain b ((s.clearFlag .cap0Done).clearFlag .cap1Done)
  unfold State.listenToIdle
  refine ite_commutes ?_ rfl
  rw [hdrain]
  cases ((s.clearFlag .cap0Done).clearFlag .cap1Done).drain <;> rfl

theorem blind_noTransition : Blind State.noTransition := fun _ _ => ite_commutes rfl rfl

theorem blind_leave : Blind leave := by
  intro b s
  have hstate : (withAmp b s).acqState = s.acqState := rfl
  unfold leave
  rw [hstate]
  cases s.acqState with
  | idle => exact blind_idleToEmit b s
  | emit => exact blind_emitToWait b s
  | wait => exact blind_waitToListen b s
  | listen => exact blind_listenToIdle b s

/-! ### Answers -/

section

variable (b : Bool) (s : State)

theorem transition_withAmp : transition (withAmp b s) = mapNext (withAmp b) (transition s) := by
  have hguard : (withAmp b s).guardHolds = s.guardHolds := rfl
  cases hg : s.guardHolds with
  | false => rw [transition_of_not_guard (hguard.trans hg), transition_of_not_guard hg]; rfl
  | true => rw [transition_of_guard (hguard.trans hg), transition_of_guard hg, blind_leave.answer_withAmp]

theorem execAsEval_withAmp : execAsEval (withAmp b s) = mapNext (withAmp b) (execAsEval s) :=
  ite_commutes rfl (transition_withAmp b { s with phase := .poll })

theorem execHAltTrig_withAmp : execHAltTrig (withAmp b s) = mapNext (withAmp b) (execHAltTrig s) :=
  ite_commutes (congrArg Host.Outcome.next (countEdge_withAmp b (s.ack .altEdge))) rfl

theorem execDescriptor_withAmp (c : Chan) (d : Descriptor) :
    execDescriptor c d (withAmp b s) = mapNext (withAmp b) (execDescriptor c d s) :=
  ite_commutes rfl ((blind_placeDescriptor c d).answer_withAmp b s)

theorem execCtTick_withAmp : execCtTick (withAmp b s) = mapNext (withAmp b) (execCtTick s) := ite_commutes rfl rfl

theorem execGtTick_withAmp : execGtTick (withAmp b s) = mapNext (withAmp b) (execGtTick s) :=
  ite_commutes (congrArg Host.Outcome.next (guardCount_withAmp b s)) rfl

theorem execEnvTrigger_withAmp (c : Chan) : execEnvTrigger c (withAmp b s) = mapNext (withAmp b) (execEnvTrigger c s) :=
  ite_commutes rfl (ite_commutes rfl (ite_commutes rfl (congrArg Host.Outcome.next (setChan_withAmp ..))))

theorem execEnvAltEdge_withAmp : execEnvAltEdge (withAmp b s) = mapNext (withAmp b) (execEnvAltEdge s) := ite_commutes rfl rfl

theorem execBoot_withAmp : execBoot (withAmp b s) = mapNext (withAmp b) (execBoot s) := by
  unfold execBoot
  refine ite_commutes rfl (ite_commutes rfl ?_)
  rw [blind_bootUnits b s]
  cases s.bootUnits <;> rfl

end

/-! ### Every operation -/

/-- The operations that may write AMP_EN: the amplifier commands, by themselves or in a poll. -/
def WritesAmp (i : Instr) : Prop := i = .ampEnable ∨ i = .ampDisable ∨ i = .hlPoll

/-- Every other operation commutes with replacing AMP_EN. -/
theorem exec_withAmp {i : Instr} (h : ¬WritesAmp i) (b : Bool) (s : State) :
    exec i (withAmp b s) = mapNext (withAmp b) (exec i s) := by
  cases i with
  | ampEnable => exact absurd (.inl rfl) h
  | ampDisable => exact absurd (.inr (.inl rfl)) h
  | hlPoll => exact absurd (.inr (.inr rfl)) h
  | startJob => exact congrArg Host.Outcome.next (startJob_withAmp b s)
  | rsvdLow low => rfl
  | ignored x => rfl
  | tIdleEmit => exact blind_idleToEmit.answer_withAmp b s
  | tEmitWait => exact blind_emitToWait.answer_withAmp b s
  | tWaitListen => exact blind_waitToListen.answer_withAmp b s
  | tListenIdle => exact blind_listenToIdle.answer_withAmp b s
  | tNone v => exact blind_noTransition.answer_withAmp b s
  | hEmitDone => exact (blind_handle _ _ _).answer_withAmp b s
  | hGuardOvf => exact (blind_handle _ _ _).answer_withAmp b s
  | hCap0Done => exact (blind_handle _ _ _).answer_withAmp b s
  | hCap1Done => exact (blind_handle _ _ _).answer_withAmp b s
  | hAltTrig => exact execHAltTrig_withAmp b s
  | csGenerate => exact blind_generateChirp.answer_withAmp b s
  | teConfigure c prio trigsrc burst => exact (blind_teConfigure _ _ _ _).answer_withAmp b s
  | teArm c a => exact (blind_teArm c a).answer_withAmp b s
  | teEnable c => exact (blind_teEnable c).answer_withAmp b s
  | teSuspend c => exact congrArg Host.Outcome.next (teSuspend_withAmp b s c)
  | teResume c => exact congrArg Host.Outcome.next (teResume_withAmp b s c)
  | teDisable c => exact congrArg Host.Outcome.next (setChan_withAmp b s c _)
  | ctConfigure per duty ind => exact (blind_ctConfigure _ _ _).answer_withAmp b s
  | ctEnable => exact blind_ctEnable.answer_withAmp b s
  | gtConfigure per cmp => exact (blind_gtConfigure _ _).answer_withAmp b s
  | gtRetrigger => exact blind_gtRetrigger.answer_withAmp b s
  | descriptor c d => exact execDescriptor_withAmp b s c d
  | sample v => rfl
  | asEval => exact execAsEval_withAmp b s
  | hlDrain => exact blind_drain.answer_withAmp b s
  | teBeat c v => exact (blind_teBeat c v).answer_withAmp b s
  | ctTick => exact execCtTick_withAmp b s
  | gtTick => exact execGtTick_withAmp b s
  | boot => exact execBoot_withAmp b s
  | envHostSend x => rfl
  | envTrigger c => exact execEnvTrigger_withAmp b s c
  | envAltEdge => exact execEnvAltEdge_withAmp b s

/-- Replacing AMP_EN by itself changes nothing, so it stands. -/
theorem exec_ampEn {i : Instr} {s t : State} (hi : ¬WritesAmp i) (h : exec i s = .next t) : t.ampEn = s.ampEn := by
  have hself : exec i s = mapNext (withAmp s.ampEn) (exec i s) := exec_withAmp hi s.ampEn s
  rw [h] at hself
  have ht : t = withAmp s.ampEn t := Host.Outcome.next.inj hself
  exact (congrArg State.ampEn ht :)

/-! ### The two answers -/

/-- Two answers are the same but for AMP_EN of the next state. -/
def SameButAmp (a a' : Result) : Prop := ∃ b, a' = mapNext (withAmp b) a

/-- An operation that is no poll writes AMP_EN whatever it was, or commutes with replacing it. -/
theorem sameButAmp_of_ne_hlPoll {i : Instr} (hi : i ≠ .hlPoll) (b : Bool) (s : State) :
    SameButAmp (exec i s) (exec i (withAmp b s)) := by
  by_cases hw : WritesAmp i
  · obtain rfl | rfl | rfl := hw
    · exact ⟨true, rfl⟩
    · exact ⟨false, rfl⟩
    · exact absurd rfl hi
  · exact ⟨b, exec_withAmp hw b s⟩

theorem decodeByte_ne_hlPoll (x : Byte) : decodeByte x ≠ .hlPoll := by
  rw [decodeByte_eq]
  split_ifs <;> nofun

/-- A poll finds the same queue, so it takes the same byte, if there is one, and runs the same operation. -/
theorem sameButAmp_hlPoll (b : Bool) (s : State) : SameButAmp (exec .hlPoll s) (exec .hlPoll (withAmp b s)) := by
  by_cases hp : s.phase = .poll
  · cases hq : s.rxq with
    | nil =>
      rw [exec_hlPoll_empty hp hq, exec_hlPoll_empty (s := withAmp b s) hp hq]
      exact ⟨b, rfl⟩
    | cons x rest =>
      rw [exec_hlPoll_cons hp hq, exec_hlPoll_cons (s := withAmp b s) hp hq]
      exact sameButAmp_of_ne_hlPoll (decodeByte_ne_hlPoll x) b { s with phase := .eval, rxq := rest }
  · rw [exec_hlPoll_not_due hp, exec_hlPoll_not_due (s := withAmp b s) hp]
    exact ⟨b, rfl⟩

theorem exec_sameButAmp (i : Instr) (b : Bool) (s : State) : SameButAmp (exec i s) (exec i (withAmp b s)) := by
  by_cases hi : i = .hlPoll
  · exact hi ▸ sameButAmp_hlPoll b s
  · exact sameButAmp_of_ne_hlPoll hi b s

/-- Settles O57: the operations that do not write AMP_EN commute with replacing it, and those that do answer the same
but for it. -/
theorem amplifierIndependence : Obligations.AmplifierIndependence := by
  intro i s b
  refine ⟨fun t h hne => ?_, ?_⟩
  · by_contra hi
    exact hne (exec_ampEn hi h)
  · obtain ⟨v, hv⟩ := exec_sameButAmp i b s
    have hreplaced : exec i { s with ampEn := b } = mapNext (withAmp v) (exec i s) := hv
    rw [hreplaced]
    cases exec i s with
    | next t => rfl
    | refused r => rfl
    | fault e => cases e

end Sys2Proof.Proofs
end

section
/-! PROOF. The bridge (60_exceptions.md R263 to R269). The five handlers are one operation over the five event lines: a handler of an enabled
line acknowledges it and then acts, by a flag or by the count of R268. Acknowledging and acting commute over different lines. -/

namespace Sys2Proof.Proofs

open Sys2Proof Sys2Proof.Machine

/-! ### The handler of a line -/

/-- The handler that serves an event line (R264 to R268). -/
def handlerOf : Event → Instr
  | .emitDone => .hEmitDone
  | .guardOvf => .hGuardOvf
  | .cap0Done => .hCap0Done
  | .cap1Done => .hCap1Done
  | .altEdge => .hAltTrig

/-- The name under which a handler that is not enabled is declined (R50, log 35). -/
def handlerName : Event → String
  | .emitDone => "H_EMIT_DONE"
  | .guardOvf => "H_GUARD_OVF"
  | .cap0Done => "H_CAP0_DONE"
  | .cap1Done => "H_CAP1_DONE"
  | .altEdge => "H_ALT_TRIG"

/-- What the handler of a line does besides acknowledging it: one flag (R264 to R267), or the count of R268. -/
def act : Event → State → State
  | .emitDone => (·.setFlag .emitStop)
  | .guardOvf => (·.setFlag .waitStop)
  | .cap0Done => (·.setFlag .cap0Done)
  | .cap1Done => (·.setFlag .cap1Done)
  | .altEdge => State.countEdge

/-- The state after the handler of a line (R263). -/
def served (e : Event) (s : State) : State := act e (s.ack e)

theorem exists_handlerOf {i : Instr} (h : isHandler i = true) : ∃ e, handlerOf e = i := by
  cases i with
  | hEmitDone => exact ⟨.emitDone, rfl⟩
  | hGuardOvf => exact ⟨.guardOvf, rfl⟩
  | hCap0Done => exact ⟨.cap0Done, rfl⟩
  | hCap1Done => exact ⟨.cap1Done, rfl⟩
  | hAltTrig => exact ⟨.altEdge, rfl⟩
  | _ => cases h

/-- R263 to R268 at once: a handler serves its line where it is enabled and is declined elsewhere. -/
theorem exec_handlerOf (e : Event) (s : State) :
    exec (handlerOf e) s =
      if s.enabled (handlerOf e) then .next (served e s) else .refused (.notEnabled (handlerName e)) := by
  cases e with
  | altEdge => rfl
  | _ => exact apply_ite answer _ _ _

theorem exec_handlerOf_enabled {e : Event} {s : State} (h : s.enabled (handlerOf e) = true) :
    exec (handlerOf e) s = .next (served e s) := by
  rw [exec_handlerOf, if_pos h]

/-! ### When a handler is enabled (R50) -/

/-- The bit of EVT_PENDING that an event line is (R37). -/
def lineBit : Event → Nat
  | .emitDone => 0
  | .guardOvf => 1
  | .cap0Done => 2
  | .cap1Done => 3
  | .altEdge => 4

theorem pending_eq_getLsbD (s : State) (e : Event) : s.pending e = s.evtPending.getLsbD (lineBit e) := by
  simp only [State.pending]
  generalize s.evtPending = x
  cases e <;> revert x <;> decide

theorem mayHandle_iff {s : State} {e : Event} :
    s.mayHandle e = true ↔ s.phase ≠ .boot ∧ s.evtPending.getLsbD (lineBit e) = true := by
  simp [State.mayHandle, pending_eq_getLsbD]

/-- The fifth handler asks for its path as well (R268). -/
theorem enabled_handlerOf_iff {s : State} {e : Event} :
    s.enabled (handlerOf e) = true ↔ (e = .altEdge → s.cfg.altEnable = true) ∧ s.mayHandle e = true := by
  cases e <;> simp [handlerOf, State.enabled]

/-! ### Acting and acknowledging -/

/-- The occurrence that R268 counts up to. -/
theorem countEdge_arming {s : State} (h : s.cfg.altArmCount = (altUp s.altCount).toNat) :
    s.countEdge = { s.setFlag .emitStart with altCount := 0 } := if_pos h.symm

theorem countEdge_counting {s : State} (h : s.cfg.altArmCount ≠ (altUp s.altCount).toNat) :
    s.countEdge = { s with altCount := altUp s.altCount } := if_neg h.symm

theorem setFlag_comm (s : State) (f g : Flag) : (s.setFlag f).setFlag g = (s.setFlag g).setFlag f :=
  have hflags : s.flags ||| f.mask ||| g.mask = s.flags ||| g.mask ||| f.mask := by ac_rfl
  congrArg (fun x => { s with flags := x }) hflags

theorem ack_comm (s : State) (e d : Event) : (s.ack e).ack d = (s.ack d).ack e :=
  have hlines : s.evtPending &&& ~~~e.mask &&& ~~~d.mask = s.evtPending &&& ~~~d.mask &&& ~~~e.mask := by ac_rfl
  congrArg (fun x => { s with evtPending := x }) hlines

/-- The count reads no flag. -/
theorem countEdge_setFlag (s : State) (f : Flag) : (s.setFlag f).countEdge = s.countEdge.setFlag f :=
  ite_commutes (f := fun t : State => t.setFlag f) (congrArg (fun t : State => { t with altCount := 0 }) (setFlag_comm s f .emitStart)) rfl

/-- The count reads no event line. -/
theorem countEdge_ack (s : State) (e : Event) : (s.ack e).countEdge = s.countEdge.ack e :=
  ite_commutes (f := fun t : State => t.ack e) rfl rfl

theorem act_eq_setFlag {e : Event} (h : e ≠ .altEdge) : ∃ f : Flag, act e = (·.setFlag f) := by
  cases e with
  | altEdge => exact absurd rfl h
  | _ => exact ⟨_, rfl⟩

theorem act_ack (s : State) (e d : Event) : act e (s.ack d) = (act e s).ack d := by
  by_cases he : e = .altEdge
  · exact he ▸ countEdge_ack s d
  · obtain ⟨f, hf⟩ := act_eq_setFlag he
    rw [hf]
    rfl

/-- Two flags are set in either order, and the count reads none. -/
theorem act_comm (s : State) (e d : Event) : act e (act d s) = act d (act e s) := by
  by_cases he : e = .altEdge <;> by_cases hd : d = .altEdge
  · rw [he, hd]
  · obtain ⟨f, hf⟩ := act_eq_setFlag hd
    rw [he, hf]
    exact countEdge_setFlag s f
  · obtain ⟨f, hf⟩ := act_eq_setFlag he
    rw [hd, hf]
    exact (countEdge_setFlag s f).symm
  · obtain ⟨f, hf⟩ := act_eq_setFlag he
    obtain ⟨g, hg⟩ := act_eq_setFlag hd
    rw [hf, hg]
    exact setFlag_comm s g f

theorem served_comm (s : State) (e d : Event) : served e (served d s) = served d (served e s) :=
  calc act e ((act d (s.ack d)).ack e)
      = act e (act d ((s.ack d).ack e)) := by rw [act_ack (s.ack d)]
    _ = act d (act e ((s.ack e).ack d)) := by rw [act_comm, ack_comm]
    _ = act d ((act e (s.ack e)).ack d) := by rw [act_ack (s.ack e)]

/-! ### What serving one line leaves to another -/

theorem countEdge_frame (s : State) :
    s.countEdge.cfg = s.cfg ∧ s.countEdge.phase = s.phase ∧ s.countEdge.evtPending = s.evtPending := by
  by_cases h : s.cfg.altArmCount = (altUp s.altCount).toNat
  · rw [countEdge_arming h]
    exact ⟨rfl, rfl, rfl⟩
  · rw [countEdge_counting h]
    exact ⟨rfl, rfl, rfl⟩

theorem act_frame (s : State) (e : Event) :
    (act e s).cfg = s.cfg ∧ (act e s).phase = s.phase ∧ (act e s).evtPending = s.evtPending := by
  cases e with
  | altEdge => exact countEdge_frame s
  | _ => exact ⟨rfl, rfl, rfl⟩

/-- A line keeps its handler enabled while another is served. -/
theorem enabled_served {s : State} {e d : Event} (hne : e ≠ d) (h : s.enabled (handlerOf d) = true) :
    (served e s).enabled (handlerOf d) = true := by
  obtain ⟨hcfg, hphase, hevt⟩ := act_frame (s.ack e) e
  have hpending : (served e s).pending d = s.pending d := by
    rw [served, pending_congr hevt, pending_ack, decide_eq_false hne, Bool.not_false, Bool.true_and]
  have hmay : (served e s).mayHandle d = s.mayHandle d := by
    rw [State.mayHandle, hpending, served, hphase, State.ack_phase, State.mayHandle]
  rw [enabled_handlerOf_iff] at h ⊢
  rwa [hmay, served, hcfg, State.ack_cfg]

theorem runAll_handlers {s : State} {e d : Event} (hne : e ≠ d) (he : s.enabled (handlerOf e) = true)
    (hd : s.enabled (handlerOf d) = true) : runAll [handlerOf e, handlerOf d] s = .next (served d (served e s)) := by
  simp only [runAll, exec_handlerOf_enabled he, exec_handlerOf_enabled (enabled_served hne hd)]

/-- Settles O23: each handler leaves the other's enabled, so both orders complete, and what they do commutes. -/
theorem handlersCommute : Obligations.HandlersCommute := by
  intro i j s hi hj hne hei hej
  obtain ⟨e, rfl⟩ := exists_handlerOf hi
  obtain ⟨d, rfl⟩ := exists_handlerOf hj
  have hlines : e ≠ d := fun h => hne (congrArg handlerOf h)
  refine ⟨served d (served e s), runAll_handlers hlines hei hej, ?_⟩
  rw [served_comm]
  exact runAll_handlers hlines.symm hej hei

/-! ### The four handlers of R264 to R267 -/

theorem exec_handlerOf_of_ne_altEdge {e : Event} (he : e ≠ .altEdge) (s : State) :
    exec (handlerOf e) s =
      if s.phase ≠ .boot ∧ s.evtPending.getLsbD (lineBit e) = true then .next (served e s)
      else .refused (.notEnabled (handlerName e)) := by
  have hiff : s.enabled (handlerOf e) = true ↔ s.phase ≠ .boot ∧ s.evtPending.getLsbD (lineBit e) = true := by
    simp [enabled_handlerOf_iff, mayHandle_iff, he]
  rw [exec_handlerOf]
  exact if_congr hiff rfl rfl

/-- Settles O22: `exec_handlerOf_of_ne_altEdge` for each of the four lines. -/
theorem handlers : Obligations.Handlers :=
  ⟨⟨by decide, by decide, by decide, by decide⟩, fun s =>
    ⟨exec_handlerOf_of_ne_altEdge (e := .emitDone) nofun s, exec_handlerOf_of_ne_altEdge (e := .guardOvf) nofun s,
      exec_handlerOf_of_ne_altEdge (e := .cap0Done) nofun s, exec_handlerOf_of_ne_altEdge (e := .cap1Done) nofun s⟩⟩

/-! ### The fifth handler (R268) -/

theorem enabled_hAltTrig_iff {s : State} :
    s.enabled .hAltTrig = true ↔ s.cfg.altEnable = true ∧ s.phase ≠ .boot ∧ s.evtPending.getLsbD 4 = true := by
  have h := enabled_handlerOf_iff (s := s) (e := .altEdge)
  rwa [mayHandle_iff, forall_prop_of_true rfl] at h

theorem exec_hAltTrig_enabled {s : State} (he : s.cfg.altEnable = true) (hp : s.phase ≠ .boot)
    (hl : s.evtPending.getLsbD 4 = true) : exec .hAltTrig s = .next (s.ack .altEdge).countEdge :=
  exec_handlerOf_enabled (e := .altEdge) (enabled_hAltTrig_iff.2 ⟨he, hp, hl⟩)

theorem exec_hAltTrig_refused {s : State} (h : ¬s.enabled .hAltTrig = true) :
    exec .hAltTrig s = .refused (.notEnabled "H_ALT_TRIG") := if_neg h

/-- Settles O24: an enabled H_ALT_TRIG acknowledges and counts, and the count either arms or goes on. -/
theorem alternateTrigger : Obligations.AlternateTrigger := by
  rintro s u n rfl hn
  obtain rfl : n = altUp s.altCount := hn
  refine ⟨fun he hp hl harm => ?_, fun he hp hl harm => ?_, fun hoff => exec_hAltTrig_refused fun hen => ?_⟩
  · rw [exec_hAltTrig_enabled he hp hl, countEdge_arming (s := s.ack .altEdge) harm]
    rfl
  · rw [exec_hAltTrig_enabled he hp hl, countEdge_counting (s := s.ack .altEdge) harm]
    rfl
  · obtain ⟨he, hp, hl⟩ := enabled_hAltTrig_iff.1 hen
    obtain h | h | h := hoff
    · exact Bool.false_ne_true (h.symm.trans he)
    · exact hp h
    · exact Bool.false_ne_true (h.symm.trans hl)

end Sys2Proof.Proofs
end

section
/-! PROOF. The state after reset (70_reset_and_hazards.md R300), and the quiescent states (R320): with every channel suspended, the guard timer
stopped and neither a flag, an event nor a byte there, the only steps R50 enables besides the host's bytes and the carrier's ticks are the two
halves of the main loop and the environment's triggers and edges, and none of these finds anything to do. -/

namespace Sys2Proof.Proofs

open Sys2Proof Sys2Proof.Machine

/-! ### Reset (R300) -/

/-- The three channels are reset alike (R300 S10 to S14). -/
theorem resetWith_chan (p : Params) (c : Chan) : (State.resetWith p).chan c = ChanRegs.reset := by
  cases c <;> rfl

theorem resetWith_mem_wf (p : Params) : Memory.Wf (State.resetWith p).mem := Memory.wf_nil

/-- Settles O50: every element is read off the reset state, the channels' registers by `resetWith_chan`. -/
theorem resetState : Obligations.ResetState := by
  refine ⟨rfl, ?_⟩
  rintro p _ rfl
  exact ⟨rfl, rfl, rfl, rfl, rfl, rfl, rfl, rfl, rfl, resetWith_chan p, rfl, rfl, rfl, rfl, rfl⟩

/-- Settles O55: reset lists no byte. -/
theorem canonicalMemoryAtReset : Obligations.CanonicalMemoryAtReset :=
  ⟨resetWith_mem_wf Params.default, resetWith_mem_wf⟩

/-! ### What rests in a quiescent state (R224, R320) -/

/-- In Idle the transfer engine and the guard timer are at rest. -/
theorem idle_rests {s : State} (h : s.Proper) (ha : s.acqState = .idle) :
    (∀ c, (s.chan c).state = .suspended) ∧ s.gt.run = false := by
  have hrow := (row_iff s).1 h.row
  refine ⟨fun c => (hrow.resting c ?_).suspended, (hrow.stopped (by simp [ha])).1⟩
  cases c <;> simp [busyState, ha]

theorem not_active_of_idle {s : State} (h : s.Proper) (ha : s.acqState = .idle) (c : Chan) : (s.chan c).state ≠ .active := by
  simp [(idle_rests h ha).1 c]

/-- Without an event no handler is enabled (R50). -/
theorem handlerOf_not_enabled {s : State} (h : s.evtPending = 0) (e : Event) : s.enabled (handlerOf e) ≠ true := by
  simp [enabled_handlerOf_iff, mayHandle_iff, h]

/-- Without a flag no transition's guard holds. -/
theorem guardHolds_of_no_flag {s : State} (h : s.flags = 0) : s.guardHolds = false := by
  have hflag := (flags_eq_zero_iff s).1 h
  unfold State.guardHolds
  split <;> simp [hflag]

/-! ### The steps that are left -/

theorem exec_asEval_of_no_flag {s : State} (hp : s.phase = .eval) (h : s.flags = 0) :
    exec .asEval s = .next { s with phase := .poll } := by
  rw [exec_asEval_due hp]
  exact transition_of_not_guard (guardHolds_of_no_flag h)

/-- The trigger of a channel that is not ACTIVE is lost (R159). -/
theorem exec_envTrigger_of_not_active {s : State} {c : Chan} (h : (s.chan c).state ≠ .active) :
    exec (.envTrigger c) s = .next s :=
  (triggerLatch s c).trans (congrArg Host.Outcome.next (if_neg fun ⟨_, hact, _⟩ => h hact))

/-- With the alternate trigger off its edge has no effect (R52). -/
theorem exec_envAltEdge_of_off {s : State} (h : s.cfg.altEnable = false) : exec .envAltEdge s = .next s := by
  simp [exec_envAltEdge, h]

/-- Settles O59: operation by operation, either something at rest keeps it from being enabled, or it finds nothing to do. -/
theorem quiescence : Obligations.Quiescence := by
  rintro i s h ⟨hidle, hflags, hevt, hrxq⟩ he hct hsend
  have hinactive := not_active_of_idle h hidle
  have hhandler := handlerOf_not_enabled hevt
  cases i with
  | hlPoll => exact ⟨.eval, exec_hlPoll_empty (of_decide_eq_true he) hrxq⟩
  | asEval => exact ⟨.poll, exec_asEval_of_no_flag (of_decide_eq_true he) hflags⟩
  | envTrigger c => exact ⟨s.phase, exec_envTrigger_of_not_active (hinactive c)⟩
  | envAltEdge => exact ⟨s.phase, exec_envAltEdge_of_off h.altOff⟩
  | ctTick => exact absurd rfl hct
  | envHostSend b => exact absurd rfl (hsend b)
  | boot => exact absurd (of_decide_eq_true he) h.booted
  | gtTick => exact absurd ((idle_rests h hidle).2.symm.trans he) Bool.false_ne_true
  | teBeat c v => exact absurd ((State.grant_eq_none hinactive).symm.trans (of_decide_eq_true he)) nofun
  | hEmitDone => exact absurd he (hhandler .emitDone)
  | hGuardOvf => exact absurd he (hhandler .guardOvf)
  | hCap0Done => exact absurd he (hhandler .cap0Done)
  | hCap1Done => exact absurd he (hhandler .cap1Done)
  | hAltTrig => exact absurd he (hhandler .altEdge)
  | _ => exact absurd he Bool.false_ne_true  -- an operation that is no step of its own (log 5)

end Sys2Proof.Proofs
end
